-- ==== Sys2Proof/Syntax.lean ====
section
/-!
DEFINITION. The commands of FSKC: one constructor per row of `spec/opcode_table.json` (R95).

Format `C` has no register field and no immediate (R93): the operands of a command are the registers and buffers its
rule names, so no constructor has an argument.
-/

namespace Sys2Proof

/-- The seven commands (R5, R95). -/
inductive Instr where
  /-- `FREQOF`, code 0x01: the frequency of one symbol (R123). -/
  | freqof
  /-- `GENTONE`, code 0x02: one tone block (R134). -/
  | gentone
  /-- `MODULATE`, code 0x03: byte buffer to waveform (R150). -/
  | modulate
  /-- `DECSLOT`, code 0x04: decode one slot of `IS` (R170). -/
  | decslot
  /-- `DEMODULATE`, code 0x05: waveform to byte buffer (R188). -/
  | demodulate
  /-- `EXPAND`, code 0x06: byte buffer to symbol sequence (R201). -/
  | expand
  /-- `PACK`, code 0x07: symbol sequence to byte buffer (R202). -/
  | pack
deriving DecidableEq, Repr

end Sys2Proof
end

