-- ==== Sys2Proof/Word.lean ====
section
/-!
DEFINITION. The value types of FSKC: 32-bit register words, buffer bytes, exact parameter values, amplitude samples.

Nothing here computes; the arithmetic stands in `Sys2Proof/Machine/`.
-/

namespace Sys2Proof

/-- A `u32` register value (R17: `REGW = 32` bits, unsigned). -/
abbrev Word := BitVec 32

/-- One element of the buffers `IB` and `OB` (R60). -/
abbrev Byte := BitVec 8

/-- One symbol, held as a buffer element holds it: 0 or 1 in Bit mode, 0 to 255 in Byte mode (R97, R195). -/
abbrev Symbol := Byte

/-- A value of `PARAM`: a non-negative rational, exact (R13). Frequencies, the duration and the sample rate. -/
structure Param where
  val : ℚ
  nonneg : 0 ≤ val
deriving DecidableEq, Repr

namespace Param

/-- The parameter value 0, the reset value of every `PARAM` register (R38). -/
def zero : Param := ⟨0, le_refl 0⟩

/-- The parameter value `n / d`, as a host script writes it (R101: `1000`, `1/100`). -/
def frac (n d : ℕ) : Param := ⟨(n : ℚ) / (d : ℚ), by positivity⟩

end Param

/-- One amplitude sample, as plain data. Under `NUM_REF` (R14) it stands for a real number (`Sample.val`), and every real
number is some sample's: either it is written as a sum of sines, or it goes by a name. Under another numerics the datum is
only the name of one of that numerics' sample values. DESIGN CHOICE (log entry 3). -/
inductive Sample where
  /-- The sum of the terms `(amp, turns)`, each standing for `amp · sin(2π · turns)`. Every sample a tone holds is such a
  sum, and so is every rational number (`amp` at a quarter turn). -/
  | sum (terms : List (ℚ × ℚ))
  /-- The real number that goes by name `n`: any real number whatever, for nothing is known of what the names stand for
  (`Config.realNames`). -/
  | named (n : ℕ)
deriving DecidableEq, Repr, Inhabited

/-- The rational number `q` as a sample: `q · sin(2π · 1/4)`. -/
def Sample.ofRat (q : ℚ) : Sample := .sum [(q, 1 / 4)]

end Sys2Proof
end

