-- ==== Sys2Proof/WellFormed.lean ====
section
/-!
DEFINITION. What a well-formed command and a well-formed command word are (R93, R95, R99).
-/

namespace Sys2Proof

/-- Every command is well-formed: format `C` gives a command no operand field that could be out of range (R93, R96). -/
def Instr.wf : Instr → Bool
  | .freqof => true
  | .gentone => true
  | .modulate => true
  | .decslot => true
  | .demodulate => true
  | .expand => true
  | .pack => true

/-- The `ZERO` field, bits 31:8, is 0 (R93). -/
def CommandWord.zeroOk (w : Word) : Bool := w.extractLsb' 8 24 == 0#24

/-- The `OPC` field, bits 7:0, is one of the seven codes 0x01 to 0x07 (R95, R99). -/
def CommandWord.opcOk (w : Word) : Bool :=
  decide (1 ≤ (w.extractLsb' 0 8).toNat) && decide ((w.extractLsb' 0 8).toNat ≤ 7)

/-- A legal command word (R94, R99). -/
def CommandWord.wf (w : Word) : Bool := CommandWord.zeroOk w && CommandWord.opcOk w

end Sys2Proof
end

