-- ==== Sys2Proof/Decode.lean ====
section
/-!
DEFINITION. The command word: decoder, encoder, and the host's table word (R93 to R95, R99, R100).
-/

namespace Sys2Proof

/-- Why a word is no command (R99). Either way it is `IllegalCommand` when written to `CMD` (R217). -/
inductive DecodeError where
  /-- Some bit of 31:8 is set. -/
  | zeroFieldSet
  /-- `OPC` is 0x00 or one of 0x08 to 0xFF. -/
  | reservedOpc
deriving DecidableEq, Repr

/-- Bits 7:0, the command code (R93). -/
def opcField (w : Word) : BitVec 8 := w.extractLsb' 0 8

/-- Bits 31:8, which must be 0 (R93). -/
def zeroField (w : Word) : BitVec 24 := w.extractLsb' 8 24

/-- The command a code names (R95). -/
def opcTable (opc : Nat) : Option Instr :=
  match opc with
  | 1 => some .freqof
  | 2 => some .gentone
  | 3 => some .modulate
  | 4 => some .decslot
  | 5 => some .demodulate
  | 6 => some .expand
  | 7 => some .pack
  | _ => none

/-- The decoder: total on every 32-bit word, with a named reason where the word is no command (R94, R99). -/
def decode (w : Word) : Except DecodeError Instr :=
  if zeroField w ≠ 0#24 then .error .zeroFieldSet
  else match opcTable (opcField w).toNat with
    | some i => .ok i
    | none => .error .reservedOpc

/-- The code of a command (R95). -/
def opcOf : Instr → BitVec 8
  | .freqof => 0x01#8
  | .gentone => 0x02#8
  | .modulate => 0x03#8
  | .decslot => 0x04#8
  | .demodulate => 0x05#8
  | .expand => 0x06#8
  | .pack => 0x07#8

/-- The word of a command: `ZERO` above `OPC` (R93). -/
def encode (i : Instr) : Word := 0#24 ++ opcOf i

/-- What the decoder reads from the table word `w` of `nbits` bits (bit 0 the least significant). A command word is one
32-bit register value, so nothing lies above it and no byte order enters (R61, R100). -/
def decodeTableWord (nbits w : Nat) : Option Instr :=
  match decode (BitVec.ofNat 32 (w % 2 ^ nbits)) with
  | .ok i => some i
  | .error _ => none

end Sys2Proof
end

