-- ==== Sys2Proof/Config.lean ====
section
/-!
DEFINITION. What is fixed for one block and what the spec leaves open.

`Params` is the record of the spec's open parameters (`92_eei_decisions.md`, "Open parameters in one list"); a block has
one such record for life (R37) and every claim is made for every value of it. The opaque constants are the values no rule
gives: nothing can be proved about them but what holds of any value. One more of them stands with its type in
`Sys2Proof/Machine/Numerics.lean`: `Config.realNamesOf`, what the names of samples stand for.
-/

namespace Sys2Proof

/-- `ROUND_TIE` (R15): what `round` answers when the fractional part is exactly one half. -/
inductive RoundTie where
  | halfEven
  | halfAwayFromZero
deriving DecidableEq, Repr, Inhabited

/-- `NUM` (R14): which numerics the block computes samples and spectra with. -/
inductive Numerics where
  /-- `NUM_REF`: the exact real sine and the exact real magnitude (R131, R160). -/
  | reference
  /-- Any other instance; `id` tells one from another. Its `SIN` and `MAG` are `Config.realisedSin` and
  `Config.realisedMag`, of which nothing is known (R136, R175). -/
  | realised (id : Nat)
deriving DecidableEq, Repr, Inhabited

/-- The open parameters of a block (R9 to R18). The two that are at least 1 are held as their predecessors, so that no
value of this type breaks a bound; the capacities are at most `2^32 − 1` by their type (R16). -/
structure Params where
  /-- `MIN_SLOT_LEN − 1` (R11). -/
  minSlotLenPred : Nat
  /-- `NWORKERS_HW − 1` (R12). -/
  nWorkersPred : Nat
  numerics : Numerics
  roundTie : RoundTie
  capIB : Fin (2 ^ 32)
  capIS : Fin (2 ^ 32)
  capOB : Fin (2 ^ 32)
  capOS : Fin (2 ^ 32)
deriving DecidableEq, Repr, Inhabited

/-- `MIN_SLOT_LEN` (R11): the smallest slot length the block accepts, at least 1. -/
def Params.minSlotLen (p : Params) : Nat := p.minSlotLenPred + 1

/-- `NWORKERS_HW` (R12): the number of worker units, at least 1. -/
def Params.nWorkers (p : Params) : Nat := p.nWorkersPred + 1

/-- `TOL_HZ` (R9): the half-width of the decoder's tolerance window, in hertz. The spec fixes it at 10. -/
def Config.tolHz : ℚ := 10

/-- The parameters of the block that comes out of reset: not known, one value for life (log entry 1). -/
opaque Config.block : Params

/-- `NUM.SIN` of a realised numerics: a function of frequency, sample rate and sample index alone (R136). -/
opaque Config.realisedSin (id : Nat) (f r : Param) (i : Nat) : Sample

/-- `NUM.MAG` of a realised numerics: a function of the block of samples and the bin alone (R175). The magnitudes of
any numerics, totally ordered and countable, are named by rationals in the same order. -/
opaque Config.realisedMag (id : Nat) (x : List Sample) (j : Int) : ℚ

/-- What a host read of an element of `OB` at or beyond `OBLEN` returns, the `n`-th time (R64, U6: any value). -/
opaque Config.unspecifiedByte (n : Nat) : Byte

/-- What a host read of an element of `OS` at or beyond `OSLEN` returns, the `n`-th time (R64, U6: any value). -/
opaque Config.unspecifiedSample (n : Nat) : Sample

end Sys2Proof
end

