-- ==== Sys2Proof/Machine/State.lean ====
section
/-!
DEFINITION. The state of FSKC, as plain data, and the state after reset.

Registers: R20 to R34. Buffers: R35, R60. Hidden state of a command in flight: R36. Reset: R38.
Registers with no storage of their own are computed where they are read (`Sys2Proof/Machine/Ops.lean`): `SLOTLEN` (R24),
`CMD` (reads as 0, R29), the four length registers (the lengths of the buffers, R35), and `STATUS` and `HOSTIF` as words,
whose bits are held here one by one.
-/

namespace Sys2Proof.Machine

/-- The encoding mode (R10, R91). -/
inductive Mode where
  | bit
  | byte
deriving DecidableEq, Repr

/-- The values `ERRCODE` can hold, by name (R90); the codes are `ErrCode.code`. -/
inductive ErrCode where
  | none
  | sourceUnavailable
  | invalidMode
  | invalidSymbol
  | durationTooShort
  | incompleteSlot
  | sinkUnavailable
  | illegalCommand
  | noQualifyingBin
  | badWorkerCount
deriving DecidableEq, Repr

/-- The registers of type `u32` (R20). -/
inductive WordReg where
  | mode | workers | slotlen | hostif | cmd | arg | status | errcode | errinfo | erridx | res
  | iblen | islen | oblen | oslen
deriving DecidableEq, Repr

/-- The registers of type `PARAM` (R20). -/
inductive ParamReg where
  | freq0 | freq1 | symdur | srate | farg | fres | israte | osrate
deriving DecidableEq, Repr

/-- A register a transaction can name: one of the 23, or the reserved number `23 + n` (R20, R34). -/
inductive Reg where
  | word (r : WordReg)
  | param (r : ParamReg)
  | reserved (n : Nat)
deriving DecidableEq, Repr

/-- A value of a register's type. -/
inductive RegVal where
  | word (v : Word)
  | param (v : Param)
deriving DecidableEq, Repr

/-- The host transactions (R92), with the one-element read-outs of R64. A write carries a value of its register's type. -/
inductive Txn where
  /-- `WR` to a `u32` register; `WR CMD, w` starts a command (R94). -/
  | wrWord (r : WordReg) (v : Word)
  /-- `WR` to a `PARAM` register. -/
  | wrParam (r : ParamReg) (v : Param)
  /-- `WR` to the reserved register number `23 + n` (R34). -/
  | wrReserved (n : Nat) (v : Word)
  /-- `RD` of a register. -/
  | rd (r : Reg)
  /-- `LOADB B` (R63). -/
  | loadB (bytes : List Byte)
  /-- `LOADS rate, X` (R63). -/
  | loadS (rate : Param) (samples : List Sample)
  /-- `READB` (R64). -/
  | readB
  /-- `READS` (R64). -/
  | readS
  /-- Reads the one element `OB:i` (R64). -/
  | readByteAt (i : Nat)
  /-- Reads the one element `OS:i` (R64). -/
  | readSampleAt (i : Nat)
  /-- `RESET` (R38). -/
  | reset
deriving DecidableEq, Repr

/-- What a read returned to the host (R256: the observable result of a run is the sequence of these). -/
inductive Reply where
  | reg (v : RegVal)
  | bytes (b : List Byte)
  | samples (rate : Param) (x : List Sample)
  | byte (b : Byte)
  | sample (x : Sample)
deriving DecidableEq, Repr

/-- What one agent does (R21). The spec fixes no schedule; the script is the schedule. -/
inductive Event where
  /-- The host performs a transaction. A command it starts runs from acceptance to finish in this one step, as R94 allows. -/
  | host (t : Txn)
  /-- The host performs `WR CMD, w` and the command stays in flight, to be advanced step by step (R94, R149, R189). -/
  | accept (w : Word)
  /-- A worker takes the next symbol of chunk `n` (`MODULATE`, R149) or slot `n` (`DEMODULATE`, R189). -/
  | worker (n : Nat)
  /-- The controller takes the finish step (R231, R232). -/
  | finish
deriving DecidableEq, Repr

/-- One line of the script: an event, or one of the two things a host does that look at `STATUS` first (R101, R102). -/
inductive Line where
  | event (e : Event)
  /-- `WAIT` (R101): `RD STATUS`, repeated until it reads `DONE = 1`. -/
  | wait
  /-- The result of a contract call (R102): the caller reads `STATUS`; with `ERR = 1` it then reads `ERRCODE`, otherwise it
  performs the read-out `t`. -/
  | result (t : Txn)
deriving DecidableEq, Repr

/-- One row of the chunk table of R143 with its progress counter `p_c` (R149). -/
structure Chunk where
  start : Nat
  len : Nat
  progress : Nat
deriving DecidableEq, Repr

/-- The outcome of decoding one slot (R166): a symbol, or the failure `NoQualifyingBin(s)` (R164). -/
inductive SlotResult where
  | symbol (v : Symbol)
  | noBin (s : Symbol)
deriving DecidableEq, Repr

/-- The part of the `InFlight` record that depends on the command (R36). -/
inductive Work where
  /-- No element steps: a unit-level command, or a command that an up-front check ends (R255, R206). -/
  | unit
  /-- `MODULATE`: the symbol sequence `S`, the effective worker count `W`, the chunk table with the progress counters, and
  the staging storage, one entry per symbol (`N` samples each) once a worker has written it (R67, R149). -/
  | encode (symbols : List Symbol) (workers : Nat) (chunks : List Chunk) (stage : List (Option (List Sample)))
  /-- `DEMODULATE`: the slot count and the staging storage, one entry per slot once it is decoded. The set `done` is the
  set of slots with an entry; the element errors found are the entries `noBin` (R36, R189). -/
  | decode (slots : Nat) (stage : List (Option SlotResult))
deriving DecidableEq, Repr

/-- The `InFlight` record (R36). -/
structure InFlight where
  cmd : Instr
  work : Work
deriving DecidableEq, Repr

/-- The four buffers, each a sequence of elements indexed from 0 (R35, R60). Two equal buffers are equal lists. -/
structure Memory where
  /-- `IB`, input bytes. -/
  ib : List Byte
  /-- `IS`, input samples. -/
  is : List Sample
  /-- `OB`, output bytes. -/
  ob : List Byte
  /-- `OS`, output samples. -/
  os : List Sample
deriving DecidableEq, Repr

/-- Every buffer is within its capacity (R32: always `x[IBLEN] ≤ CAP_IB`, and likewise for the other three). -/
def Memory.wf (p : Params) (m : Memory) : Bool :=
  decide (m.ib.length ≤ p.capIB.val) && decide (m.is.length ≤ p.capIS.val)
    && decide (m.ob.length ≤ p.capOB.val) && decide (m.os.length ≤ p.capOS.val)

/-- The state of the block, of what the host will do, and of what it has read. -/
structure State where
  /-- Register 0 (R22): any 32-bit value. -/
  mode : Word
  /-- Register 1 (R23), hertz. -/
  freq0 : Param
  /-- Register 2 (R23), hertz. -/
  freq1 : Param
  /-- Register 3 (R23), seconds. -/
  symdur : Param
  /-- Register 4 (R23), hertz. -/
  srate : Param
  /-- Register 5 (R25). -/
  workers : Word
  /-- `HOSTIF.SRC_FAIL`, bit 0 of register 7 (R30). -/
  srcFail : Bool
  /-- `HOSTIF.SINK_FAIL`, bit 1 of register 7 (R30). -/
  sinkFail : Bool
  /-- Register 9 (R26). -/
  arg : Word
  /-- Register 10 (R26), hertz. -/
  farg : Param
  /-- `STATUS.DONE`, bit 1 of register 11 (R28). `STATUS.BUSY`, bit 0, is whether `inFlight` holds a record (R28, R36). -/
  done : Bool
  /-- `STATUS.ERR`, bit 2 of register 11 (R28). -/
  err : Bool
  /-- Register 12 (R31, R90). -/
  errcode : ErrCode
  /-- Register 13 (R31). -/
  errinfo : Word
  /-- Register 14 (R31). -/
  erridx : Word
  /-- Register 15 (R26). -/
  res : Word
  /-- Register 16 (R26), hertz. -/
  fres : Param
  /-- Register 21 (R33). -/
  israte : Param
  /-- Register 22 (R33). -/
  osrate : Param
  /-- The four buffers (R35); registers 17 to 20 are their lengths (R32). -/
  mem : Memory
  /-- The hidden `InFlight` record; none when the block is idle (R36). -/
  inFlight : Option InFlight
  /-- The block's open parameters, one record for life: an argument of the model that `step : State → …` has nowhere else
  to take from (R37; log entry 1). No step changes it. -/
  block : Params
  /-- The model's own: what the agents do from here on, first line first (R21, R71, R101; log entry 2). -/
  script : List Line
  /-- The model's own: what the host has read so far, oldest first (R256; log entry 2). -/
  replies : List Reply
  /-- The model's own: how many unspecified values have been handed out (R64, U6; log entry 4). -/
  fresh : Nat
deriving DecidableEq, Repr

/-- How a step can fault: it cannot. Every command finishes and no state exists from which the block cannot accept the
next command (R255; `93_implementation_defined.md`: nothing in FSKC is `stuck`), and the spec's errors are values of
`ERRCODE` that a command writes in a next state (R232). -/
inductive Fault : Type
deriving DecidableEq, Repr

/-- How a step can be refused. -/
inductive Refusal where
  /-- Raised by an arm of `exec` whose instruction has no meaning yet; safe. No arm raises it. -/
  | notModelled (mnemonic : String)
deriving DecidableEq, Repr

/-- What a step answers. -/
abbrev Result := Host.Outcome State Fault Refusal

/-- The state right after reset (R38, R250): every register at its value of R38's table, the buffers empty, no `InFlight`
record. The parameters are those of the block, whatever they are; the host has done nothing and will do nothing. -/
def State.reset : State where
  mode := 0
  freq0 := Param.zero
  freq1 := Param.zero
  symdur := Param.zero
  srate := Param.zero
  workers := 1
  srcFail := false
  sinkFail := false
  arg := 0
  farg := Param.zero
  done := false
  err := false
  errcode := .none
  errinfo := 0
  erridx := 0
  res := 0
  fres := Param.zero
  israte := Param.zero
  osrate := Param.zero
  mem := ⟨[], [], [], []⟩
  inFlight := none
  block := Config.block
  script := []
  replies := []
  fresh := 0

end Sys2Proof.Machine
end

