-- ==== Sys2Proof/Machine/Flags.lean ====
section
/-!
DEFINITION. The flags: `STATUS` (R28), `HOSTIF` (R30), the error codes (R90), and what acceptance does to the flags (R94).
No command computes an arithmetic flag (R28, R204).
-/

namespace Sys2Proof.Machine

/-- `STATUS.BUSY`: a command is in flight (R28, R36). -/
def State.busy (s : State) : Bool := s.inFlight.isSome

/-- `STATUS` as the host reads it: `BUSY` bit 0, `DONE` bit 1, `ERR` bit 2, bits 31:3 zero (R28). -/
def State.statusWord (s : State) : Word :=
  BitVec.ofNat 32 (s.busy.toNat + 2 * s.done.toNat + 4 * s.err.toNat)

/-- `HOSTIF` as the host reads it: `SRC_FAIL` bit 0, `SINK_FAIL` bit 1, bits 31:2 zero (R30). -/
def State.hostifWord (s : State) : Word :=
  BitVec.ofNat 32 (s.srcFail.toNat + 2 * s.sinkFail.toNat)

/-- The code of an error, the value of `ERRCODE` (R90). -/
def ErrCode.code : ErrCode → Word
  | .none => 0x00
  | .sourceUnavailable => 0x01
  | .invalidMode => 0x02
  | .invalidSymbol => 0x03
  | .durationTooShort => 0x04
  | .incompleteSlot => 0x05
  | .sinkUnavailable => 0x06
  | .illegalCommand => 0x80
  | .noQualifyingBin => 0x81
  | .badWorkerCount => 0x82

/-- Acceptance clears `DONE` and `ERR` (R28, R94); this is also how an error is acknowledged (R233). -/
def State.clearFlags (s : State) : State := { s with done := false, err := false }

end Sys2Proof.Machine
end

