-- ==== Sys2Proof/Machine/Operands.lean ====
section
/-!
DEFINITION. How a command gets its operands from the registers and buffers (R96), with the integer arithmetic they need
(R19, R24, R204). No operand is sign-extended, scaled or shifted.
-/

namespace Sys2Proof.Machine

/-- A natural number cut to 32 bits by saturation: `min(n, 2^32 − 1)` (R24, R204, R214, R216). -/
def sat32 (n : Nat) : Word := BitVec.ofNat 32 (min n (2 ^ 32 - 1))

/-- The mode operand (R22, R91): 0 is Bit, 1 is Byte, any other value is unsupported. -/
def modeOf (m : Word) : Option Mode :=
  if m = 0 then some .bit else if m = 1 then some .byte else none

/-- `round(a / b)` of R19 for natural `a` and `b > 0`: `n = floor(a / b)`, and the fractional part `(a mod b) / b` is below,
above or exactly one half. The quotient need not be in lowest terms. -/
def roundQuot (tie : RoundTie) (a b : Nat) : Nat :=
  let n := a / b
  let twice := 2 * (a % b)
  if twice < b then n
  else if b < twice then n + 1
  else match tie with
    | .halfAwayFromZero => n + 1
    | .halfEven => if n % 2 = 0 then n else n + 1

/-- The slot length `N = round(SRATE · SYMDUR)` (R24): the product is the exact rational `(p·q) / (d·e)` of the two
parameters `p / d` and `q / e`. -/
def State.slotLen (s : State) : Nat :=
  roundQuot s.block.roundTie (s.srate.val.num.toNat * s.symdur.val.num.toNat) (s.srate.val.den * s.symdur.val.den)

/-- The effective worker count `W = min(WORKERS, NWORKERS_HW)` (R142). -/
def State.workerCount (s : State) : Nat := min s.workers.toNat s.block.nWorkers

/-- The block of slot `k`: `IS[k·N ..< (k+1)·N]` (R169). -/
def State.slotBlock (s : State) (k : Nat) : List Sample := (s.mem.is.drop (k * s.slotLen)).take s.slotLen

/-- The samples available to slot `k`: `min(N, max(0, ISLEN − k·N))` (R169). -/
def State.avail (s : State) (k : Nat) : Nat := min s.slotLen (s.mem.is.length - k * s.slotLen)

/-- The slot count `K = ISLEN div N` of a decode (R181). -/
def State.slotCount (s : State) : Nat := s.mem.is.length / s.slotLen

/-- The alphabet of a mode, in increasing symbol value (R10, R124). -/
def alphabet : Mode → List Symbol
  | .bit => [0, 1]
  | .byte => (List.range 256).map (BitVec.ofNat 8)

/-- The symbol domain of a mode, for a symbol operand of 32 bits (R122): `{0, 1}` or `[0, 255]`. -/
def inDomain (m : Mode) (v : Word) : Bool :=
  match m with
  | .bit => decide (v.toNat ≤ 1)
  | .byte => decide (v.toNat ≤ 255)

end Sys2Proof.Machine
end

