-- ==== Sys2Proof/Machine/Ops.lean ====
section
/-!
DEFINITION. The named operations over registers and buffers: the two finish steps (success, and error entry), commit, the
host's register accesses, loads and read-outs, and reset.
-/

namespace Sys2Proof.Machine

/-! ### Finish steps -/

/-- The success finish (R231): `BUSY <- 0; DONE <- 1; ERR <- 0`, the error registers 0, the `InFlight` record removed. -/
def State.finishOk (s : State) : State :=
  { s with inFlight := none, done := true, err := false, errcode := .none, errinfo := 0, erridx := 0 }

/-- The error finish (R232): `BUSY <- 0; DONE <- 1; ERR <- 1`, the three error registers written, staging and the `InFlight`
record discarded. Nothing else changes. -/
def State.finishError (s : State) (e : ErrCode) (info idx : Word) : State :=
  { s with inFlight := none, done := true, err := true, errcode := e, errinfo := info, erridx := idx }

/-- `raise E(info, idx)` (R19, R232): how every error of the spec is taken. There is no return from it: the next command's
acceptance acknowledges (R233, `State.clearFlags`). -/
def raise (s : State) (e : ErrCode) (info idx : Word) : Result := .next (s.finishError e info idx)

/-- Ends a command with success. -/
def succeed (s : State) : Result := .next s.finishOk

/-! ### Commit (R68) -/

/-- Replaces the whole of `OB`, and with it `OBLEN`. -/
def State.setOB (s : State) (out : List Byte) : State := { s with mem := { s.mem with ob := out } }

/-- Replaces the whole of `OS`, and with it `OSLEN`, and sets `OSRATE <- SRATE` (R33). -/
def State.setOS (s : State) (out : List Sample) : State :=
  { s with mem := { s.mem with os := out }, osrate := s.srate }

/-- `RES <- v` (R26). -/
def State.setRes (s : State) (v : Word) : State := { s with res := v }

/-- `FRES <- v` (R26). -/
def State.setFres (s : State) (v : Param) : State := { s with fres := v }

/-- The end of a command that writes `OB`: `SinkUnavailable` if the sink failed or the staged output is longer than
`CAP_OB`, else commit (R216, R68, R231). -/
def finishBytes (s : State) (out : List Byte) : Result :=
  if s.sinkFail || decide (s.block.capOB.val < out.length) then raise s .sinkUnavailable (sat32 out.length) 0
  else succeed (s.setOB out)

/-- The end of a command that writes `OS` (R216, R68, R231). -/
def finishSamples (s : State) (out : List Sample) : Result :=
  if s.sinkFail || decide (s.block.capOS.val < out.length) then raise s .sinkUnavailable (sat32 out.length) 0
  else succeed (s.setOS out)

/-! ### Register access (R20, R92) -/

/-- The number of a `u32` register (R20). -/
def WordReg.number : WordReg → Nat
  | .mode => 0
  | .workers => 5
  | .slotlen => 6
  | .hostif => 7
  | .cmd => 8
  | .arg => 9
  | .status => 11
  | .errcode => 12
  | .errinfo => 13
  | .erridx => 14
  | .res => 15
  | .iblen => 17
  | .islen => 18
  | .oblen => 19
  | .oslen => 20

/-- The number of a `PARAM` register (R20). -/
def ParamReg.number : ParamReg → Nat
  | .freq0 => 1
  | .freq1 => 2
  | .symdur => 3
  | .srate => 4
  | .farg => 10
  | .fres => 16
  | .israte => 21
  | .osrate => 22

/-- The number a transaction gives a register (R20; 23 and above are reserved, R34). -/
def Reg.number : Reg → Nat
  | .word r => r.number
  | .param r => r.number
  | .reserved n => 23 + n

/-- The register of a number (R20, R34). -/
def Reg.ofNumber : Nat → Reg
  | 0 => .word .mode
  | 1 => .param .freq0
  | 2 => .param .freq1
  | 3 => .param .symdur
  | 4 => .param .srate
  | 5 => .word .workers
  | 6 => .word .slotlen
  | 7 => .word .hostif
  | 8 => .word .cmd
  | 9 => .word .arg
  | 10 => .param .farg
  | 11 => .word .status
  | 12 => .word .errcode
  | 13 => .word .errinfo
  | 14 => .word .erridx
  | 15 => .word .res
  | 16 => .param .fres
  | 17 => .word .iblen
  | 18 => .word .islen
  | 19 => .word .oblen
  | 20 => .word .oslen
  | 21 => .param .israte
  | 22 => .param .osrate
  | n + 23 => .reserved n

/-- The value of a `u32` register. `SLOTLEN` is `min(N, 2^32 − 1)` (R24), `CMD` reads as 0 (R29), the length registers are
the buffers' lengths (R32, R35). -/
def State.readWord (s : State) : WordReg → Word
  | .mode => s.mode
  | .workers => s.workers
  | .slotlen => sat32 s.slotLen
  | .hostif => s.hostifWord
  | .cmd => 0
  | .arg => s.arg
  | .status => s.statusWord
  | .errcode => s.errcode.code
  | .errinfo => s.errinfo
  | .erridx => s.erridx
  | .res => s.res
  | .iblen => BitVec.ofNat 32 s.mem.ib.length
  | .islen => BitVec.ofNat 32 s.mem.is.length
  | .oblen => BitVec.ofNat 32 s.mem.ob.length
  | .oslen => BitVec.ofNat 32 s.mem.os.length

/-- The value of a `PARAM` register. -/
def State.readParam (s : State) : ParamReg → Param
  | .freq0 => s.freq0
  | .freq1 => s.freq1
  | .symdur => s.symdur
  | .srate => s.srate
  | .farg => s.farg
  | .fres => s.fres
  | .israte => s.israte
  | .osrate => s.osrate

/-- What `RD` returns; 0 for a reserved number (R34). -/
def State.readReg (s : State) : Reg → RegVal
  | .word r => .word (s.readWord r)
  | .param r => .param (s.readParam r)
  | .reserved _ => .word 0

/-- A `WR` to a `u32` register other than `CMD`, on an idle block. The read-only registers ignore it (R20, R92); `HOSTIF`
keeps bits 0 and 1 only (R30). (`WR CMD` starts a command: `Sys2Proof/Machine/HostPort.lean`.) -/
def State.writeWord (s : State) (r : WordReg) (v : Word) : State :=
  match r with
  | .mode => { s with mode := v }
  | .workers => { s with workers := v }
  | .hostif => { s with srcFail := v.getLsbD 0, sinkFail := v.getLsbD 1 }
  | .arg => { s with arg := v }
  | .slotlen => s
  | .cmd => s
  | .status => s
  | .errcode => s
  | .errinfo => s
  | .erridx => s
  | .res => s
  | .iblen => s
  | .islen => s
  | .oblen => s
  | .oslen => s

/-- A `WR` to a `PARAM` register, on an idle block; the read-only ones ignore it (R20, R92). -/
def State.writeParam (s : State) (r : ParamReg) (v : Param) : State :=
  match r with
  | .freq0 => { s with freq0 := v }
  | .freq1 => { s with freq1 := v }
  | .symdur => { s with symdur := v }
  | .srate => { s with srate := v }
  | .farg => { s with farg := v }
  | .fres => s
  | .israte => s
  | .osrate => s

/-! ### Buffer loads and read-outs (R63, R64) -/

/-- `LOADB B` on an idle block (R63): replaces `IB`, or changes nothing if `B` is longer than `CAP_IB`. -/
def State.loadB (s : State) (b : List Byte) : State :=
  if b.length ≤ s.block.capIB.val then { s with mem := { s.mem with ib := b } } else s

/-- `LOADS rate, X` on an idle block (R63): replaces `IS` and `ISRATE`, or changes nothing if `X` is longer than `CAP_IS`. -/
def State.loadS (s : State) (rate : Param) (x : List Sample) : State :=
  if x.length ≤ s.block.capIS.val then { s with mem := { s.mem with is := x }, israte := rate } else s

/-- Records what a read returned to the host (R256). -/
def State.reply (s : State) (r : Reply) : State := { s with replies := s.replies ++ [r] }

/-- Takes the next unspecified value. -/
def State.nextFresh (s : State) : State := { s with fresh := s.fresh + 1 }

/-- The one-element read `OB:i` (R64): the element, or an unspecified value at or beyond `OBLEN`. -/
def State.readByteAt (s : State) (i : Nat) : State :=
  match s.mem.ob[i]? with
  | some b => s.reply (.byte b)
  | none => s.nextFresh.reply (.byte (Config.unspecifiedByte s.fresh))

/-- The one-element read `OS:i` (R64): the element, or an unspecified value at or beyond `OSLEN`. -/
def State.readSampleAt (s : State) (i : Nat) : State :=
  match s.mem.os[i]? with
  | some x => s.reply (.sample x)
  | none => s.nextFresh.reply (.sample (Config.unspecifiedSample s.fresh))

/-! ### Reset -/

/-- `RESET` (R38, R250): the block's registers and buffers as after reset, a command in flight discarded. The block stays
the block it is, and what the host does next and has read already is not the block's. -/
def State.resetBlock (s : State) : State :=
  { State.reset with block := s.block, script := s.script, replies := s.replies, fresh := s.fresh }

end Sys2Proof.Machine
end

