-- ==== Sys2Proof/Machine/Packing.lean ====
section
/-!
DEFINITION. The Bit/Byte Packing Utilities, `EXPAND` and `PACK` (`45_packing.md`).
-/

namespace Sys2Proof.Machine

/-- The eight Bit-mode symbols of a byte, most significant first: symbol `j` is `(b div 2^(7−j)) mod 2` (R97, R196). -/
def bitsOf (b : Byte) : List Symbol :=
  (List.range 8).map fun j => BitVec.ofNat 8 (b.toNat / 2 ^ (7 - j) % 2)

/-- `expand(B, mode)` (R196, R197). -/
def expand (b : List Byte) (m : Mode) : List Symbol :=
  match m with
  | .bit => b.flatMap bitsOf
  | .byte => b

/-- Byte `n` of a packed Bit-mode symbol sequence: `Σ_j S[8n + j] · 2^(7−j)` (R198). -/
def packByte (s : List Symbol) (n : Nat) : Byte :=
  BitVec.ofNat 8 ((List.range 8).map fun j => (s.getD (8 * n + j) 0).toNat * 2 ^ (7 - j)).sum

/-- `pack(S, mode)` (R198, R199): in Bit mode `len(S) div 8` bytes, the incomplete group dropped. -/
def pack (s : List Symbol) (m : Mode) : List Byte :=
  match m with
  | .bit => (List.range (s.length / 8)).map (packByte s)
  | .byte => s

/-- The least index from `i` on that holds a symbol above 1, with that symbol (R203). -/
def firstAboveOne : List Symbol → Nat → Option (Nat × Symbol)
  | [], _ => none
  | v :: rest, i => if 1 < v.toNat then some (i, v) else firstAboveOne rest (i + 1)

/-- The least symbol of a host-supplied sequence that is outside the mode's domain, with its index (R203): in Byte mode
there is none. -/
def firstBadSymbol (s : List Symbol) (m : Mode) : Option (Nat × Symbol) :=
  match m with
  | .bit => firstAboveOne s 0
  | .byte => none

/-- `EXPAND` (R201). It does not use the slot length. -/
def execExpand (s : State) : Result :=
  if s.srcFail then raise s .sourceUnavailable 0 0
  else match modeOf s.mode with
    | none => raise s .invalidMode s.mode 0
    | some m => finishBytes s (expand s.mem.ib m)

/-- `PACK` (R202). It does not use the slot length. -/
def execPack (s : State) : Result :=
  if s.srcFail then raise s .sourceUnavailable 0 0
  else match modeOf s.mode with
    | none => raise s .invalidMode s.mode 0
    | some m =>
      match firstBadSymbol s.mem.ib m with
      | some (i, v) => raise s .invalidSymbol (v.setWidth 32) (sat32 i)
      | none => finishBytes s (pack s.mem.ib m)

end Sys2Proof.Machine
end

