-- ==== Sys2Proof/Machine/FrequencyMap.lean ====
section
/-!
DEFINITION. The Frequency Map and `FREQOF` (`40_frequency_map.md`).
-/

namespace Sys2Proof.Machine

/-- The Byte-mode frequency is never negative: it lies between the two bounds (R121). -/
theorem byteFreq_nonneg (f0 f1 : Param) (s : Symbol) :
    0 ≤ f0.val + (s.toNat : ℚ) * (f1.val - f0.val) / 255 := by
  have h255 : (s.toNat : ℚ) ≤ 255 := by
    have : s.toNat ≤ 255 := Nat.lt_succ_iff.mp s.isLt
    exact_mod_cast this
  have h0 : (0 : ℚ) ≤ s.toNat := Nat.cast_nonneg _
  have e : f0.val + (s.toNat : ℚ) * (f1.val - f0.val) / 255
      = (f0.val * (255 - s.toNat) + f1.val * s.toNat) / 255 := by ring
  rw [e]
  exact div_nonneg (add_nonneg (mul_nonneg f0.nonneg (sub_nonneg.mpr h255)) (mul_nonneg f1.nonneg h0)) (by norm_num)

/-- `freqOf(s, mode, f0, f1)` (R120, R121), exact: in Bit mode `f0` for symbol 0 and `f1` for symbol 1; in Byte mode
`f0 + s · (f1 − f0) / 255`. It is used on symbols of the mode's domain only; the caller checks (R122). -/
def freqOf (s : Symbol) (m : Mode) (f0 f1 : Param) : Param :=
  match m with
  | .bit => if s = 0 then f0 else f1
  | .byte => ⟨f0.val + (s.toNat : ℚ) * (f1.val - f0.val) / 255, byteFreq_nonneg f0 f1 s⟩

/-- `FREQOF` (R123). -/
def execFreqof (s : State) : Result :=
  match modeOf s.mode with
  | none => raise s .invalidMode s.mode 0
  | some m =>
    if inDomain m s.arg then succeed (s.setFres (freqOf (s.arg.setWidth 8) m s.freq0 s.freq1))
    else raise s .invalidSymbol s.arg 0

end Sys2Proof.Machine
end

