-- ==== Sys2Proof/Machine/ExactCos.lean ====
section
/-!
DEFINITION. Exact comparison of two spectral magnitudes, on rational numbers alone.

A sample of `NUM_REF` is a sum of terms `amp · sin(2π·turns)` with rational `amp` and `turns`, so the real and the imaginary
part of a bin (R160) are COSINE SUMS `Σ c · cos(2π·t)` with rational `c` and `t`. `sqSumLe` decides `c² + d² ≤ a² + b²` for
four cosine sums, and `sqSumLe_iff` says that its answer is that of the real numbers, with no rounding anywhere in the
meaning: first the sums are computed to 32 binary digits with a proved error; where that does not settle the order, they
are computed to a precision below the least possible distance of two different values (`sqDiff_gap`: a non-zero algebraic
integer of a cyclotomic field has a norm of absolute value at least 1).

No rule of the spec gives this algorithm; the rules are R160 and R166, and the meaning (`Sys2Proof/Machine/Numerics.lean`)
compares the real magnitudes. This file makes that comparison one that can be evaluated.
-/

namespace Sys2Proof.Machine

open Real

/-! ### Cosines of rational turns, computed with a proved error -/

/-- `q` rounded down to `p` binary digits after the point. -/
def rnd (p : ℕ) (q : ℚ) : ℚ := (⌊q * 2 ^ p⌋ : ℚ) / 2 ^ p

theorem rnd_err (p : ℕ) (q : ℚ) : |q - rnd p q| ≤ 1 / 2 ^ p := by
  have h2 : (0 : ℚ) < 2 ^ p := by positivity
  have h1 := Int.floor_le (q * 2 ^ p)
  have h3 := (Int.lt_floor_add_one (q * 2 ^ p)).le
  have e : q - rnd p q = (q * 2 ^ p - ⌊q * 2 ^ p⌋) / 2 ^ p := by
    unfold rnd; field_simp
  rw [e, abs_le]
  constructor
  · rw [le_div_iff₀ h2, neg_mul, one_div, inv_mul_cancel₀ h2.ne']; linarith
  · exact div_le_div_of_nonneg_right (by linarith) h2.le

theorem rnd_err_real (p : ℕ) (q : ℚ) : |(q : ℝ) - (rnd p q : ℝ)| ≤ 1 / 2 ^ p := by
  have h := (Rat.cast_le (K := ℝ)).mpr (rnd_err p q)
  push_cast at h
  exact h

/-- The nested form `1 − y/((2m+1)(2m+2))·(1 − …)` of the cosine series, the innermost `n` of `t` factors, in units of
`1 / 2 ^ p` and rounded at each factor; `y` is `q / 2 ^ p`. -/
def cosHorner (p q t : ℕ) : ℕ → ℕ
  | 0 => 0
  | n + 1 => 2 ^ p - q * cosHorner p q t n / (2 ^ p * ((2 * (t - (n + 1)) + 1) * (2 * (t - (n + 1)) + 2)))

theorem cosHorner_le (p q t n : ℕ) : cosHorner p q t n ≤ 2 ^ p := by
  cases n with
  | zero => exact Nat.zero_le _
  | succ n => exact Nat.sub_le _ _

/-- `cosHorner` without rounding. -/
noncomputable def hornerExact (y : ℝ) : ℕ → ℕ → ℝ
  | 0, _ => 0
  | n + 1, m => 1 - y / ((2 * m + 1) * (2 * m + 2)) * hornerExact y n (m + 1)

theorem natDiv_err (a b : ℕ) (hb : 0 < b) : |(a : ℝ) / b - ((a / b : ℕ) : ℝ)| ≤ 1 := by
  have hb' : (0 : ℝ) < b := by exact_mod_cast hb
  have h1 : ((a / b : ℕ) : ℝ) * b ≤ a := by exact_mod_cast Nat.div_mul_le_self a b
  have h2 : (a : ℝ) ≤ (((a / b : ℕ) : ℝ) + 1) * b := by
    have h : a ≤ (a / b + 1) * b := by
      have := Nat.div_add_mod a b
      have := Nat.mod_lt a hb
      nlinarith
    exact_mod_cast h
  rw [abs_le]
  constructor
  · have := (le_div_iff₀ hb').mpr h1; linarith
  · have := (div_le_iff₀ hb').mpr h2; linarith

theorem cosHorner_err (p q t : ℕ) (hq : q ≤ 2 ^ p) (n : ℕ) (hn : n ≤ t) :
    |(cosHorner p q t n : ℝ) / 2 ^ p - hornerExact (q / 2 ^ p) n (t - n)| ≤ 2 / 2 ^ p := by
  induction n with
  | zero => simp only [cosHorner, hornerExact, Nat.cast_zero, zero_div, sub_zero, abs_zero]; positivity
  | succ n ih =>
    have hi := ih (by omega)
    rw [show t - n = t - (n + 1) + 1 by omega] at hi
    set m := t - (n + 1) with hm
    set h := cosHorner p q t n with hh
    have hP : (0 : ℝ) < 2 ^ p := by positivity
    have hPn : 0 < 2 ^ p := by positivity
    have hDn : 2 ≤ (2 * m + 1) * (2 * m + 2) := by nlinarith
    have hD : (2 : ℝ) ≤ (2 * m + 1) * (2 * m + 2) := by exact_mod_cast hDn
    have hle : q * h / (2 ^ p * ((2 * m + 1) * (2 * m + 2))) ≤ 2 ^ p := by
      refine Nat.div_le_of_le_mul ?_
      calc q * h ≤ 2 ^ p * 2 ^ p := Nat.mul_le_mul hq (cosHorner_le p q t n)
        _ ≤ 2 ^ p * ((2 * m + 1) * (2 * m + 2)) * 2 ^ p :=
            Nat.mul_le_mul_right _ (Nat.le_mul_of_pos_right _ (by omega))
    have hr := natDiv_err (q * h) (2 ^ p * ((2 * m + 1) * (2 * m + 2))) (Nat.mul_pos hPn (by omega))
    simp only [cosHorner, hornerExact, ← hm, ← hh]
    rw [Nat.cast_sub hle]
    set r : ℝ := ((q * h / (2 ^ p * ((2 * m + 1) * (2 * m + 2))) : ℕ) : ℝ)
    push_cast at hr ⊢
    set e := hornerExact ((q : ℝ) / 2 ^ p) n (m + 1)
    have hq1 : (q : ℝ) / 2 ^ p ≤ 1 := by
      rw [div_le_one hP]; exact_mod_cast hq
    have hf0 : 0 ≤ (q : ℝ) / 2 ^ p / ((2 * m + 1) * (2 * m + 2)) := by positivity
    have hf1 : (q : ℝ) / 2 ^ p / ((2 * m + 1) * (2 * m + 2)) ≤ 1 / 2 := by
      rw [div_le_div_iff₀ (by linarith) (by norm_num)]; linarith
    set f := (q : ℝ) / 2 ^ p / ((2 * m + 1) * (2 * m + 2)) with hf
    have hqh : (q : ℝ) * h / (2 ^ p * ((2 * m + 1) * (2 * m + 2))) = f * h := by
      rw [hf]; field_simp
    rw [hqh] at hr
    have e1 : (2 ^ p - r) / 2 ^ p - (1 - f * e) = (f * h - r) / 2 ^ p - f * (h / 2 ^ p - e) := by
      field_simp; ring
    rw [e1]
    calc |(f * h - r) / 2 ^ p - f * (h / 2 ^ p - e)|
        ≤ |(f * h - r) / 2 ^ p| + |f * (h / 2 ^ p - e)| := abs_sub _ _
      _ ≤ 1 / 2 ^ p + 1 / 2 * (2 / 2 ^ p) := by
          rw [abs_div, abs_of_pos hP, abs_mul, abs_of_nonneg hf0]
          exact add_le_add (div_le_div_of_nonneg_right hr hP.le)
            (mul_le_mul hf1 hi (abs_nonneg _) (by norm_num))
      _ = 2 / 2 ^ p := by ring

theorem hornerExact_eq (y : ℝ) (n m : ℕ) :
    hornerExact y n m = ∑ j ∈ Finset.range n, (-y) ^ j * ((2 * m).factorial / (2 * m + 2 * j).factorial : ℝ) := by
  induction n generalizing m with
  | zero => simp [hornerExact]
  | succ n ih =>
    rw [hornerExact, ih, Finset.sum_range_succ', Finset.mul_sum]
    have h0 : ((2 * m).factorial : ℝ) ≠ 0 := by positivity
    simp only [pow_zero, mul_zero, add_zero, div_self h0, mul_one]
    rw [sub_eq_add_neg, add_comm, ← Finset.sum_neg_distrib]
    congr 1
    refine Finset.sum_congr rfl fun j _ => ?_
    have e1 : 2 * (m + 1) + 2 * j = 2 * m + 2 * (j + 1) := by ring
    have e2 : ((2 * (m + 1)).factorial : ℝ) = (2 * m + 2) * (2 * m + 1) * (2 * m).factorial := by
      rw [show 2 * (m + 1) = (2 * m + 1) + 1 from by ring, Nat.factorial_succ, Nat.factorial_succ]
      push_cast; ring
    rw [e1, e2, pow_succ]
    have : ((2 * m + 2 * (j + 1)).factorial : ℝ) ≠ 0 := by positivity
    field_simp

theorem two_pow_le_factorial (j : ℕ) : 2 ^ j ≤ (2 * j).factorial := by
  induction j with
  | zero => simp
  | succ j ih =>
    rw [show 2 * (j + 1) = (2 * j + 1) + 1 from by ring, Nat.factorial_succ, Nat.factorial_succ, pow_succ]
    calc 2 ^ j * 2 ≤ (2 * j).factorial * 2 := Nat.mul_le_mul_right _ ih
      _ ≤ (2 * j).factorial * ((2 * j + 1 + 1) * (2 * j + 1)) := Nat.mul_le_mul_left _ (by nlinarith)
      _ = _ := by ring

theorem cos_hornerExact (x : ℝ) (h : x ^ 2 ≤ 1) (n : ℕ) :
    |Real.cos x - hornerExact (x ^ 2) n 0| ≤ 2 / 2 ^ n := by
  have hs := Real.hasSum_cos x
  have hterm : ∀ j, ‖(-1) ^ j * x ^ (2 * j) / ((2 * j).factorial : ℝ)‖ ≤ (1 / 2) ^ j := fun j => by
    rw [norm_div, norm_mul, norm_pow, norm_neg, norm_one, one_pow, one_mul, norm_pow, pow_mul,
      Real.norm_eq_abs, sq_abs, Real.norm_eq_abs, abs_of_pos (by positivity), one_div, inv_pow, ← one_div]
    refine div_le_div₀ zero_le_one (pow_le_one₀ (sq_nonneg x) h) (by positivity) ?_
    exact_mod_cast two_pow_le_factorial j
  have hpart : hornerExact (x ^ 2) n 0 = ∑ j ∈ Finset.range n, (-1) ^ j * x ^ (2 * j) / ((2 * j).factorial : ℝ) := by
    rw [hornerExact_eq]
    refine Finset.sum_congr rfl fun j _ => ?_
    rw [neg_pow, ← pow_mul]; simp [mul_div_assoc]; ring
  have htail := hs.summable.sum_add_tsum_nat_add n
  rw [hs.tsum_eq] at htail
  rw [hpart, ← htail, add_sub_cancel_left]
  have hg : HasSum (fun j : ℕ => (1 / 2 : ℝ) ^ (j + n)) (2 / 2 ^ n) := by
    have := (hasSum_geometric_of_lt_one (r := (1/2 : ℝ)) (by norm_num) (by norm_num)).mul_right ((1/2) ^ n)
    have e : (1 - 1 / 2 : ℝ)⁻¹ * (1 / 2) ^ n = 2 / 2 ^ n := by
      rw [one_div, inv_pow]; norm_num [div_eq_mul_inv]
    rw [e] at this
    simpa only [pow_add] using this
  exact tsum_of_norm_bounded hg fun j => hterm (j + n)

/-- `n` terms of the series of `arctan (1/m)`. -/
def arctanInv (m : ℕ) : ℕ → ℚ
  | 0 => 0
  | n + 1 => arctanInv m n + (-1) ^ n / ((2 * n + 1) * m ^ (2 * n + 1))

theorem arctanInv_err (m : ℕ) (hm : 2 ≤ m) (n : ℕ) :
    |Real.arctan (m : ℝ)⁻¹ - arctanInv m n| ≤ 2 * ((m : ℝ)⁻¹) ^ (2 * n + 1) := by
  have hm' : (2 : ℝ) ≤ m := by exact_mod_cast hm
  have hx0 : 0 < (m : ℝ)⁻¹ := by positivity
  have hx1 : (m : ℝ)⁻¹ ≤ 1 / 2 := by rw [one_div]; exact inv_anti₀ (by norm_num) hm'
  set x := (m : ℝ)⁻¹ with hx
  have hs := Real.hasSum_arctan (x := x) (by rw [Real.norm_eq_abs, abs_of_pos hx0]; linarith)
  have hpart : ((arctanInv m n : ℚ) : ℝ) = ∑ j ∈ Finset.range n, (-1) ^ j * x ^ (2 * j + 1) / (↑(2 * j + 1) : ℝ) := by
    induction n with
    | zero => simp [arctanInv]
    | succ n ih =>
      rw [arctanInv, Finset.sum_range_succ, ← ih]
      push_cast
      rw [hx, inv_pow]; field_simp
  have htail := hs.summable.sum_add_tsum_nat_add n
  rw [hs.tsum_eq] at htail
  rw [hpart, ← htail, add_sub_cancel_left]
  have hx2 : x ^ 2 ≤ 1 / 2 := by nlinarith
  have hg : HasSum (fun j : ℕ => x ^ (2 * n + 1) * (1 / 2 : ℝ) ^ j) (2 * x ^ (2 * n + 1)) := by
    have := (hasSum_geometric_of_lt_one (r := (1/2 : ℝ)) (by norm_num) (by norm_num)).mul_left (x ^ (2 * n + 1))
    have e : x ^ (2 * n + 1) * (1 - 1 / 2 : ℝ)⁻¹ = 2 * x ^ (2 * n + 1) := by norm_num; ring
    rwa [e] at this
  rw [← Real.norm_eq_abs]
  refine tsum_of_norm_bounded hg fun j => ?_
  rw [norm_div, norm_mul, norm_pow, norm_neg, norm_one, one_pow, one_mul, Real.norm_eq_abs, Real.norm_eq_abs,
    abs_of_pos (by positivity), abs_of_pos (by positivity)]
  refine (div_le_self (by positivity) (by push_cast; linarith [(Nat.cast_nonneg (j + n) : (0:ℝ) ≤ _)])).trans ?_
  rw [show 2 * (j + n) + 1 = (2 * n + 1) + 2 * j by ring, pow_add x, pow_mul x 2 j]
  exact mul_le_mul_of_nonneg_left (pow_le_pow_left₀ (by positivity) hx2 j) (by positivity)

/-- `π` to `p` binary digits, by Machin's formula. -/
def piApprox (p : ℕ) : ℚ :=
  rnd (p + 1) (16 * arctanInv 5 (p / 4 + 2) - 4 * arctanInv 239 (p / 4 + 2))

theorem piApprox_err (p : ℕ) : |π - piApprox p| ≤ 1 / 2 ^ p := by
  set n := p / 4 + 2 with hn
  have h5 := arctanInv_err 5 (by norm_num) n
  have h239 := arctanInv_err 239 (by norm_num) n
  have hr := rnd_err_real (p + 1) (16 * arctanInv 5 n - 4 * arctanInv 239 n)
  have hpi := four_mul_arctan_inv_5_sub_arctan_inv_239
  have hpow : (2 : ℝ) ^ p * 32 ≤ 16 ^ n := by
    have : (16 : ℝ) ^ n = 2 ^ (4 * n) := by rw [pow_mul]; norm_num
    rw [this, show (32 : ℝ) = 2 ^ 5 by norm_num, ← pow_add]
    exact pow_le_pow_right₀ (by norm_num) (by omega)
  have hinv : ∀ m : ℕ, 5 ≤ m → ((m : ℝ)⁻¹) ^ (2 * n + 1) ≤ 1 / 5 * (1 / (2 ^ p * 32)) := fun m hm => by
    have hm5 : (5 : ℝ) ≤ m := by exact_mod_cast hm
    calc ((m : ℝ)⁻¹) ^ (2 * n + 1) ≤ ((5 : ℝ)⁻¹) ^ (2 * n + 1) :=
          pow_le_pow_left₀ (by positivity) (inv_anti₀ (by norm_num) hm5) _
      _ = 1 / 5 * (1 / 25 ^ n) := by
          rw [pow_succ, pow_mul, show ((5 : ℝ)⁻¹) ^ 2 = 25⁻¹ by norm_num, inv_pow]; ring
      _ ≤ 1 / 5 * (1 / 16 ^ n) := by
          gcongr; norm_num
      _ ≤ _ := by gcongr
  have i5 := hinv 5 le_rfl
  have i239 := hinv 239 (by norm_num)
  push_cast at h5 h239 i5 i239 hr
  have key : π - piApprox p = 16 * (arctan 5⁻¹ - arctanInv 5 n) - 4 * (arctan 239⁻¹ - arctanInv 239 n)
      + ((16 * arctanInv 5 n - 4 * arctanInv 239 n : ℝ) - (piApprox p : ℝ)) := by
    linear_combination (-4) * hpi
  have hq : (1 : ℝ) / 2 ^ (p + 1) = 1 / 2 * (1 / 2 ^ p) := by rw [pow_succ]; field_simp
  have hq2 : (1 : ℝ) / (2 ^ p * 32) = 1 / 32 * (1 / 2 ^ p) := by field_simp
  have hpos : (0 : ℝ) < 1 / 2 ^ p := by positivity
  rw [hq] at hr
  rw [hq2] at i5 i239
  unfold piApprox at key ⊢
  rw [← hn] at key ⊢
  rw [abs_le] at h5 h239 hr ⊢
  constructor <;> nlinarith [h5.1, h5.2, h239.1, h239.2, hr.1, hr.2]

/-- `cos 2θ` from `cos θ`. -/
def dbl (c : ℚ) : ℚ := 2 * c * c - 1

theorem dbl_err {c : ℚ} {θ e : ℝ} (h : |Real.cos θ - c| ≤ e) (he : e ≤ 1 / 2) :
    |Real.cos (2 * θ) - dbl c| ≤ 5 * e := by
  have h0 : 0 ≤ e := (abs_nonneg _).trans h
  rw [Real.cos_two_mul, dbl]
  push_cast
  have : 2 * Real.cos θ ^ 2 - 1 - (2 * c * c - 1) = (Real.cos θ - c) * (2 * (2 * Real.cos θ - (Real.cos θ - c))) := by ring
  rw [this, abs_mul]
  have hc : |2 * (2 * Real.cos θ - (Real.cos θ - c))| ≤ 5 := by
    have h1 := Real.abs_cos_le_one θ
    rw [abs_le] at h h1 ⊢
    constructor <;> linarith [h.1, h.2, h1.1, h1.2]
  calc _ ≤ e * 5 := mul_le_mul h hc (abs_nonneg _) h0
    _ = _ := by ring

/-- `π` in units of `1 / 2 ^ p`. -/
def piNat (p : ℕ) : ℕ := ⌊piApprox p * 2 ^ p⌋.toNat

theorem piNat_err (p : ℕ) : |π - piNat p / 2 ^ p| ≤ 2 / 2 ^ p := by
  have h1 := piApprox_err p
  have hP : (0 : ℝ) < 2 ^ p := by positivity
  have h1p : (1 : ℝ) ≤ 2 ^ p := one_le_pow₀ (by norm_num)
  have hpos : (0 : ℚ) ≤ piApprox p * 2 ^ p := by
    have : (0 : ℝ) ≤ piApprox p := by
      have : (1 : ℝ) / 2 ^ p ≤ 1 := by rw [div_le_one hP]; exact h1p
      rw [abs_le] at h1
      linarith [Real.pi_gt_three, h1.2]
    have h : (0 : ℚ) ≤ piApprox p := by exact_mod_cast this
    positivity
  have hfl : ((piNat p : ℕ) : ℝ) = ((⌊piApprox p * 2 ^ p⌋ : ℤ) : ℝ) := by
    rw [piNat]
    exact_mod_cast Int.toNat_of_nonneg (Int.floor_nonneg.mpr hpos)
  have f1 : ((⌊piApprox p * 2 ^ p⌋ : ℤ) : ℝ) ≤ piApprox p * 2 ^ p := by
    exact_mod_cast Int.floor_le (piApprox p * 2 ^ p)
  have f2 : (piApprox p : ℝ) * 2 ^ p ≤ ((⌊piApprox p * 2 ^ p⌋ : ℤ) : ℝ) + 1 := by
    exact_mod_cast (Int.lt_floor_add_one (piApprox p * 2 ^ p)).le
  rw [hfl]
  have g1 : ((⌊piApprox p * 2 ^ p⌋ : ℤ) : ℝ) / 2 ^ p ≤ piApprox p := (div_le_iff₀ hP).mpr f1
  have g2 : (piApprox p : ℝ) ≤ ((⌊piApprox p * 2 ^ p⌋ : ℤ) : ℝ) / 2 ^ p + 1 / 2 ^ p := by
    rw [← add_div]; exact (le_div_iff₀ hP).mpr f2
  have e : (2 : ℝ) / 2 ^ p = 1 / 2 ^ p + 1 / 2 ^ p := by ring
  rw [e]
  rw [abs_le] at h1 ⊢
  constructor <;> linarith [h1.1, h1.2]

theorem abs_cos_sub_le_sq (a b : ℝ) : |Real.cos a - Real.cos b| ≤ |a ^ 2 - b ^ 2| / 2 := by
  rw [Real.cos_sub_cos, abs_mul, abs_mul, abs_neg, abs_two]
  have h1 := Real.abs_sin_le_abs (x := (a + b) / 2)
  have h2 := Real.abs_sin_le_abs (x := (a - b) / 2)
  have e : |a ^ 2 - b ^ 2| / 2 = 2 * |(a + b) / 2| * |(a - b) / 2| := by
    rw [abs_div, abs_div, abs_two, show a ^ 2 - b ^ 2 = (a + b) * (a - b) by ring, abs_mul]; ring
  rw [e]
  gcongr

/-- The angle `(2π · fract t) / 8` in units of `1 / 2 ^ p`. -/
def eighthAngle (p : ℕ) (t : ℚ) : ℕ := piNat p * (Int.fract t).num.toNat / (4 * (Int.fract t).den)

theorem eighthAngle_err (p : ℕ) (t : ℚ) :
    |π * (Int.fract t : ℚ) / 4 - eighthAngle p t / 2 ^ p| ≤ (3 / 2) / 2 ^ p := by
  set u := Int.fract t with hu
  have hu0q : (0 : ℚ) ≤ u := Int.fract_nonneg t
  have hu0 : (0 : ℝ) ≤ u := by exact_mod_cast hu0q
  have hu1 : (u : ℝ) ≤ 1 := by exact_mod_cast (Int.fract_lt_one t).le
  have hP : (0 : ℝ) < 2 ^ p := by positivity
  have hpi := piNat_err p
  have hden : (0 : ℝ) < (u.den : ℝ) := by exact_mod_cast u.den_pos
  have hur : (u : ℝ) = (u.num.toNat : ℝ) / u.den := by
    have h1 : (u : ℚ) = (u.num.toNat : ℚ) / u.den := by
      conv_lhs => rw [← Rat.num_div_den u]
      congr 1
      exact_mod_cast (Int.toNat_of_nonneg (Rat.num_nonneg.mpr hu0q)).symm
    have h2 : ((u : ℚ) : ℝ) = (((u.num.toNat : ℚ) / u.den : ℚ) : ℝ) := by rw [← h1]
    rw [h2]; push_cast; rfl
  have hr := natDiv_err (piNat p * u.num.toNat) (4 * u.den) (Nat.mul_pos (by norm_num) u.den_pos)
  have e1 : ((piNat p * u.num.toNat : ℕ) : ℝ) / ((4 * u.den : ℕ) : ℝ) = piNat p * (u : ℝ) / 4 := by
    rw [hur]; push_cast; field_simp
  rw [e1] at hr
  change |_ - ((eighthAngle p t : ℕ) : ℝ)| ≤ 1 at hr
  have e2 : π * u / 4 - eighthAngle p t / 2 ^ p
      = (π - piNat p / 2 ^ p) * (u / 4) + (piNat p * (u : ℝ) / 4 - eighthAngle p t) / 2 ^ p := by
    field_simp; ring
  rw [e2]
  refine (abs_add_le _ _).trans ?_
  rw [abs_mul, abs_of_nonneg (by positivity : (0:ℝ) ≤ (u : ℝ) / 4), abs_div _ ((2 : ℝ) ^ p), abs_of_pos hP]
  have h3 : |π - piNat p / 2 ^ p| * ((u : ℝ) / 4) ≤ 2 / 2 ^ p * (1 / 4) :=
    mul_le_mul hpi (by linarith) (by positivity) (by positivity)
  have h4 := div_le_div_of_nonneg_right hr hP.le
  calc _ ≤ 2 / 2 ^ p * (1 / 4) + 1 / 2 ^ p := add_le_add h3 h4
    _ = (3 / 2) / 2 ^ p := by ring

/-- A rational within `1 / 2 ^ k` of `cos (2π·t)`: the cosine of an eighth of the angle, doubled three times. -/
def cosTurns (k : ℕ) (t : ℚ) : ℚ :=
  let p := k + 11
  let x := eighthAngle p t
  dbl (dbl (dbl ((cosHorner p (x * x / 2 ^ p) p p : ℚ) / 2 ^ p)))

theorem cosTurns_err (k : ℕ) (t : ℚ) : |Real.cos (2 * π * t) - cosTurns k t| ≤ 1 / 2 ^ k := by
  set p := k + 11 with hp
  set u := Int.fract t with hu
  have hu0 : (0 : ℝ) ≤ u := by exact_mod_cast Int.fract_nonneg t
  have hu1 : (u : ℝ) ≤ 1 := by exact_mod_cast (Int.fract_lt_one t).le
  set x := eighthAngle p t with hx
  have hang := eighthAngle_err p t
  rw [← hx, ← hu] at hang
  have hP : (0 : ℝ) < 2 ^ p := by positivity
  have e0 : (1 : ℝ) / 2 ^ p = 1 / 2048 * (1 / 2 ^ k) := by
    rw [hp, pow_add]; norm_num
  have hk : (1 : ℝ) / 2 ^ k ≤ 1 := by
    rw [div_le_one (by positivity)]; exact one_le_pow₀ (by norm_num)
  have hkpos : (0 : ℝ) < 1 / 2 ^ k := by positivity
  set δ : ℝ := 1 / 2 ^ k with hδ
  have e1 : (2 : ℝ) / 2 ^ p = 2 / 2048 * δ := by rw [div_eq_mul_one_div, e0]; ring
  have e3 : (3 / 2 : ℝ) / 2 ^ p = 3 / 4096 * δ := by rw [div_eq_mul_one_div, e0]; ring
  rw [e3] at hang
  have hpi4 := Real.pi_lt_d2
  have hpi0 := Real.pi_pos
  have hx0 : (0 : ℝ) ≤ (x : ℝ) / 2 ^ p := by positivity
  have hx1 : (x : ℝ) / 2 ^ p ≤ 1 := by
    rw [abs_le] at hang
    have hpu : π * u ≤ 3.15 := by nlinarith
    linarith [hang.1]
  have hxn : x ≤ 2 ^ p := by
    rw [div_le_one hP] at hx1; exact_mod_cast hx1
  have hqn : x * x / 2 ^ p ≤ 2 ^ p := Nat.div_le_of_le_mul (Nat.mul_le_mul hxn hxn)
  set q := x * x / 2 ^ p with hq
  have hq0 : (0 : ℝ) ≤ (q : ℝ) / 2 ^ p := by positivity
  have hq1 : (q : ℝ) / 2 ^ p ≤ 1 := by rw [div_le_one hP]; exact_mod_cast hqn
  have hqx : |((x : ℝ) / 2 ^ p) ^ 2 - q / 2 ^ p| ≤ 1 / 2048 * δ := by
    have hr := natDiv_err (x * x) (2 ^ p) (by positivity)
    rw [← hq] at hr
    push_cast at hr
    have : ((x : ℝ) / 2 ^ p) ^ 2 - q / 2 ^ p = (x * x / 2 ^ p - q) / 2 ^ p := by field_simp
    rw [this, abs_div, abs_of_pos hP, ← e0]
    exact div_le_div_of_nonneg_right hr hP.le
  have hc1 : |Real.cos (π * u / 4) - Real.cos (x / 2 ^ p)| ≤ 3 / 4096 * δ :=
    (Real.abs_cos_sub_cos_le _ _).trans hang
  have hsq : Real.sqrt (q / 2 ^ p) ^ 2 = q / 2 ^ p := Real.sq_sqrt hq0
  have hc2 : |Real.cos (x / 2 ^ p) - Real.cos (Real.sqrt (q / 2 ^ p))| ≤ 1 / 4096 * δ := by
    refine (abs_cos_sub_le_sq _ _).trans ?_
    rw [hsq]; linarith
  have hc3 := cos_hornerExact (Real.sqrt (q / 2 ^ p)) (by rw [hsq]; exact hq1) p
  rw [hsq, e1] at hc3
  have hc4 := cosHorner_err p q p hqn p le_rfl
  rw [e1, Nat.sub_self] at hc4
  have hc : |Real.cos (π * u / 4) - ((cosHorner p q p p : ℚ) / 2 ^ p : ℚ)| ≤ 6 / 2048 * δ := by
    push_cast
    rw [abs_le] at hc1 hc2 hc3 hc4 ⊢
    constructor <;> linarith [hc1.1, hc1.2, hc2.1, hc2.2, hc3.1, hc3.2, hc4.1, hc4.2]
  have d1 := dbl_err hc (by linarith)
  have d2 := dbl_err d1 (by linarith)
  have d3 := dbl_err d2 (by linarith)
  have hper : Real.cos (2 * π * t) = Real.cos (2 * (2 * (2 * (π * u / 4)))) := by
    have ht : (t : ℝ) = u + (⌊t⌋ : ℤ) := by
      have := Int.fract_add_floor t
      exact_mod_cast this.symm
    rw [ht, show 2 * π * ((u : ℝ) + ((⌊t⌋ : ℤ) : ℝ)) = 2 * (2 * (2 * (π * u / 4))) + (⌊t⌋ : ℤ) * (2 * π) by ring]
    exact Real.cos_add_int_mul_two_pi _ _
  rw [hper]
  refine d3.trans ?_
  linarith

/-! ### The gap between two different values -/

/-- `z` is an integer polynomial of `ζ`, of absolute value at most `A` at every point of the unit circle. -/
def CycInt (ζ : ℂ) (A : ℝ) (z : ℂ) : Prop :=
  ∃ p : Polynomial ℤ, Polynomial.aeval ζ p = z ∧ ∀ w : ℂ, ‖w‖ = 1 → ‖Polynomial.aeval w p‖ ≤ A

theorem CycInt.add {ζ z z' : ℂ} {A B : ℝ} (h : CycInt ζ A z) (h' : CycInt ζ B z') :
    CycInt ζ (A + B) (z + z') := by
  obtain ⟨p, rfl, hp⟩ := h
  obtain ⟨q, rfl, hq⟩ := h'
  exact ⟨p + q, by simp, fun w hw => by
    rw [map_add]; exact (norm_add_le _ _).trans (add_le_add (hp w hw) (hq w hw))⟩

theorem CycInt.neg {ζ z : ℂ} {A : ℝ} (h : CycInt ζ A z) : CycInt ζ A (-z) := by
  obtain ⟨p, rfl, hp⟩ := h
  exact ⟨-p, by simp, fun w hw => by simpa using hp w hw⟩

theorem CycInt.mul {ζ z z' : ℂ} {A B : ℝ} (h : CycInt ζ A z) (h' : CycInt ζ B z') :
    CycInt ζ (A * B) (z * z') := by
  obtain ⟨p, rfl, hp⟩ := h
  obtain ⟨q, rfl, hq⟩ := h'
  refine ⟨p * q, by simp, fun w hw => ?_⟩
  rw [map_mul, norm_mul]
  exact mul_le_mul (hp w hw) (hq w hw) (norm_nonneg _) ((norm_nonneg _).trans (hp w hw))

theorem CycInt.sep_of_field {M : ℕ} (K : Type) [Field K] [CharZero K]
    [IsCyclotomicExtension {M} ℚ K] (hM : 0 < M) {ζ z : ℂ} {A : ℝ} (hζ : IsPrimitiveRoot ζ M)
    (hA : 1 ≤ A) (h : CycInt ζ A z) (hz : z ≠ 0) : 1 ≤ ‖z‖ * A ^ M := by
  obtain ⟨p, rfl, hp⟩ := h
  have : NeZero M := ⟨hM.ne'⟩
  have hμ : IsPrimitiveRoot (IsCyclotomicExtension.zeta M ℚ K) M :=
    IsCyclotomicExtension.zeta_spec M ℚ K
  set μ := IsCyclotomicExtension.zeta M ℚ K with hμdef
  let x : K := Polynomial.aeval μ p
  -- the embedding that sends μ to ζ
  have : FiniteDimensional ℚ K := IsCyclotomicExtension.finiteDimensional {M} ℚ K
  have hirr : Irreducible (Polynomial.cyclotomic M ℚ) := Polynomial.cyclotomic.irreducible_rat hM
  have hmin : minpoly ℚ μ = Polynomial.cyclotomic M ℚ := (Polynomial.cyclotomic_eq_minpoly_rat hμ hM).symm
  obtain ⟨σ₀, hσ₀⟩ : ∃ σ : K →ₐ[ℚ] ℂ, σ μ = ζ := by
    let pb := hμ.powerBasis ℚ
    have hgen : pb.gen = μ := hμ.powerBasis_gen ℚ
    have hroot : Polynomial.aeval ζ (minpoly ℚ pb.gen) = 0 := by
      rw [hgen, hmin, Polynomial.cyclotomic_eq_minpoly_rat hζ hM]
      exact minpoly.aeval _ _
    exact ⟨pb.lift ζ hroot, by rw [← hgen]; exact pb.lift_gen ζ hroot⟩
  have hσ : ∀ σ : K →ₐ[ℚ] ℂ, σ x = Polynomial.aeval (σ μ) p := fun σ => by
    simp only [x]
    rw [show σ (Polynomial.aeval μ p) = (σ.restrictScalars ℤ) (Polynomial.aeval μ p) from rfl]
    rw [← Polynomial.aeval_algHom_apply]; rfl
  have hbound : ∀ σ : K →ₐ[ℚ] ℂ, ‖σ x‖ ≤ A := fun σ => by
    rw [hσ σ]
    refine hp _ ?_
    have : (σ μ) ^ M = 1 := by rw [← map_pow, hμ.pow_eq_one, map_one]
    exact Complex.norm_eq_one_of_pow_eq_one this hM.ne'
  have hx0 : x ≠ 0 := by
    intro hx
    apply hz
    rw [← hσ₀, ← hσ σ₀, hx, map_zero]
  have hint : IsIntegral ℤ x := by
    have : IsIntegral ℤ μ := hμ.isIntegral hM
    exact IsIntegral.of_mem_of_fg _ this.fg_adjoin_singleton _
      (Polynomial.aeval_mem_adjoin_singleton ℤ μ)
  have hnint : IsIntegral ℤ (Algebra.norm ℚ x) := Algebra.isIntegral_norm ℚ hint
  obtain ⟨n, hn⟩ := IsIntegrallyClosed.isIntegral_iff.mp hnint
  have hn0 : n ≠ 0 := by
    rintro rfl
    exact (Algebra.norm_ne_zero_iff.mpr hx0) (by rw [← hn]; simp)
  have hprod : ((n : ℂ)) = ∏ σ : K →ₐ[ℚ] ℂ, σ x := by
    rw [← Algebra.norm_eq_prod_embeddings ℚ ℂ x, ← hn]; simp
  have h1 : (1 : ℝ) ≤ ∏ σ : K →ₐ[ℚ] ℂ, ‖σ x‖ := by
    rw [← norm_prod, ← hprod]
    have : (1 : ℝ) ≤ |(n : ℝ)| := by exact_mod_cast Int.one_le_abs hn0
    simpa using this
  classical
  rw [← Finset.mul_prod_erase Finset.univ _ (Finset.mem_univ σ₀), hσ σ₀, hσ₀] at h1
  refine h1.trans (mul_le_mul_of_nonneg_left ?_ (norm_nonneg _))
  refine (Finset.prod_le_prod (fun _ _ => norm_nonneg _) (fun σ _ => hbound σ)).trans ?_
  rw [Finset.prod_const]
  refine pow_le_pow_right₀ hA ?_
  refine (Finset.card_le_card (Finset.erase_subset _ _)).trans ?_
  rw [Finset.card_univ, AlgHom.card, IsCyclotomicExtension.finrank K hirr]
  exact Nat.totient_le M

/-- A non-zero such `z` at a primitive `M`-th root of unity is at least `1 / A ^ M` in absolute value. -/
theorem CycInt.sep {M : ℕ} (hM : 0 < M) {ζ z : ℂ} {A : ℝ} (hζ : IsPrimitiveRoot ζ M)
    (hA : 1 ≤ A) (h : CycInt ζ A z) (hz : z ≠ 0) : 1 ≤ ‖z‖ * A ^ M := by
  have h0 : @IsCyclotomicExtension {M} ℚ (CyclotomicField M ℚ) _ _
      (CyclotomicField.algebra M ℚ) := inferInstanceAs _
  have : IsCyclotomicExtension {M} ℚ (CyclotomicField M ℚ) := by
    convert h0
    exact Subsingleton.elim _ _
  exact CycInt.sep_of_field (CyclotomicField M ℚ) hM hζ hA h hz

/-! ### Cosine sums -/

/-- The real number a cosine sum stands for. -/
noncomputable def cosSum (l : List (ℚ × ℚ)) : ℝ :=
  (l.map fun t => (t.1 : ℝ) * Real.cos (2 * π * t.2)).sum

/-- A cosine sum to `k` binary digits a term. -/
def cosSumApprox (k : ℕ) (l : List (ℚ × ℚ)) : ℚ := (l.map fun t => t.1 * cosTurns k t.2).sum

/-- The sum of the absolute values of the coefficients. -/
def absSum (l : List (ℚ × ℚ)) : ℚ := (l.map fun t => |t.1|).sum

theorem absSum_nonneg (l : List (ℚ × ℚ)) : 0 ≤ absSum l := by
  induction l with
  | nil => simp [absSum]
  | cons a l ih => simp only [absSum, List.map_cons, List.sum_cons] at *; positivity

theorem cosSum_abs_le (l : List (ℚ × ℚ)) : |cosSum l| ≤ absSum l := by
  induction l with
  | nil => simp [absSum, cosSum]
  | cons a l ih =>
    simp only [absSum, cosSum, List.map_cons, List.sum_cons] at *
    rw [Rat.cast_add, Rat.cast_abs]
    refine (abs_add_le _ _).trans (add_le_add ?_ ih)
    rw [abs_mul]
    exact mul_le_of_le_one_right (abs_nonneg _) (Real.abs_cos_le_one _)

theorem cosSumApprox_err (k : ℕ) (l : List (ℚ × ℚ)) :
    |cosSum l - cosSumApprox k l| ≤ absSum l * (1 / 2 ^ k) := by
  induction l with
  | nil => simp [absSum, cosSum, cosSumApprox]
  | cons a l ih =>
    simp only [absSum, cosSum, cosSumApprox, List.map_cons, List.sum_cons] at *
    rw [Rat.cast_add, Rat.cast_add, Rat.cast_abs, Rat.cast_mul, add_sub_add_comm, add_mul, ← mul_sub]
    refine (abs_add_le _ _).trans (add_le_add ?_ ih)
    rw [abs_mul]
    exact mul_le_mul_of_nonneg_left (cosTurns_err k a.2) (abs_nonneg _)

/-- A common denominator. -/
def commonDen (l : List ℚ) : ℕ := l.foldr (fun q acc => Nat.lcm q.den acc) 1

theorem commonDen_pos (l : List ℚ) : 0 < commonDen l := by
  induction l with
  | nil => simp [commonDen]
  | cons a l ih => exact Nat.lcm_pos a.den_pos ih

theorem exists_int_of_den_dvd {q : ℚ} {Q : ℕ} (h : q.den ∣ Q) : ∃ n : ℤ, (Q : ℚ) * q = n := by
  obtain ⟨c, rfl⟩ := h
  refine ⟨c * q.num, ?_⟩
  have := Rat.den_mul_eq_num q
  push_cast
  rw [mul_comm (q.den : ℚ), mul_assoc, this]

theorem commonDen_dvd {l : List ℚ} {q : ℚ} (h : q ∈ l) : q.den ∣ commonDen l := by
  induction l with
  | nil => simp at h
  | cons a l ih =>
    rcases List.mem_cons.mp h with rfl | h
    · exact Nat.dvd_lcm_left _ _
    · exact (ih h).trans (Nat.dvd_lcm_right _ _)

theorem CycInt.intCast (ζ : ℂ) (n : ℤ) : CycInt ζ |(n : ℝ)| (n : ℂ) :=
  ⟨Polynomial.C n, by simp, fun w _ => by simp⟩

theorem CycInt.pow (ζ : ℂ) (a : ℕ) : CycInt ζ 1 (ζ ^ a) :=
  ⟨Polynomial.X ^ a, by simp, fun w hw => by simp [hw]⟩

theorem CycInt.zero (ζ : ℂ) : CycInt ζ 0 0 := ⟨0, by simp, fun w _ => by simp⟩

theorem CycInt.mono {ζ z : ℂ} {A B : ℝ} (h : CycInt ζ A z) (hAB : A ≤ B) : CycInt ζ B z := by
  obtain ⟨p, hp, hb⟩ := h
  exact ⟨p, hp, fun w hw => (hb w hw).trans hAB⟩

/-- The primitive `M`-th root of unity `e^(2πi/M)`. -/
noncomputable def unitRoot (M : ℕ) : ℂ := Complex.exp (2 * π * Complex.I / M)

theorem CycInt.two_cos {M : ℕ} (hM : 0 < M) {t : ℚ} {a : ℤ} (h : (M : ℚ) * t = a) :
    CycInt (unitRoot M) 2 ((2 * Real.cos (2 * π * t) : ℝ) : ℂ) := by
  set ζ := unitRoot M
  have hp : IsPrimitiveRoot ζ M := Complex.isPrimitiveRoot_exp M hM.ne'
  have hMz : (M : ℤ) ≠ 0 := by exact_mod_cast hM.ne'
  have hMc : (M : ℂ) ≠ 0 := by exact_mod_cast hM.ne'
  have key : ∀ b : ℤ, CycInt ζ 1 (ζ ^ b) := fun b => by
    obtain ⟨n, hn⟩ := Int.eq_ofNat_of_zero_le (Int.emod_nonneg b hMz)
    have hb : ζ ^ b = ζ ^ n := by
      conv_lhs => rw [← Int.emod_add_mul_ediv b M]
      rw [zpow_add₀ (hp.ne_zero hM.ne'), zpow_mul, zpow_natCast, hp.pow_eq_one, one_zpow, mul_one, hn]
      simp
    rw [hb]; exact CycInt.pow ζ n
  have hexp : ∀ b : ℤ, ζ ^ b = Complex.exp ((2 * π * ((b : ℚ) / M : ℚ) : ℝ) * Complex.I) := fun b => by
    simp only [ζ, unitRoot]
    rw [← Complex.exp_int_mul]
    congr 1; push_cast; field_simp
  have ht : t = (a : ℚ) / M := by
    have : (M : ℚ) ≠ 0 := by exact_mod_cast hM.ne'
    field_simp; linarith
  have e : ((2 * Real.cos (2 * π * t) : ℝ) : ℂ) = ζ ^ a + ζ ^ (-a) := by
    rw [hexp, hexp, ht]
    push_cast
    rw [Complex.two_cos]
    congr 2; ring
  rw [e]
  exact ((key a).add (key (-a))).mono (by norm_num)

theorem cosSum_cycInt {M Q : ℕ} (hM : 0 < M) (l : List (ℚ × ℚ))
    (hQ : ∀ t ∈ l, t.1.den ∣ Q) (hT : ∀ t ∈ l, t.2.den ∣ M) :
    CycInt (unitRoot M) (2 * Q * absSum l) ((2 * Q * cosSum l : ℝ) : ℂ) := by
  induction l with
  | nil => simpa [absSum, cosSum] using CycInt.zero _
  | cons t l ih =>
    have hl := ih (fun x hx => hQ x (List.mem_cons_of_mem _ hx)) (fun x hx => hT x (List.mem_cons_of_mem _ hx))
    obtain ⟨n, hn⟩ := exists_int_of_den_dvd (hQ t List.mem_cons_self)
    obtain ⟨a, ha⟩ := exists_int_of_den_dvd (hT t List.mem_cons_self)
    have h1 := (CycInt.intCast (unitRoot M) n).mul (CycInt.two_cos hM ha)
    have hnR : (Q : ℝ) * (t.1 : ℝ) = n := by exact_mod_cast hn
    have hab : |(n : ℝ)| = Q * |(t.1 : ℝ)| := by rw [← hnR, abs_mul, Nat.abs_cast]
    have := h1.add hl
    simp only [absSum, cosSum, List.map_cons, List.sum_cons] at this ⊢
    convert this using 1
    · rw [hab]; push_cast; ring
    · have : (n : ℂ) = ((Q * t.1 : ℝ) : ℂ) := by rw [hnR]; simp
      rw [this]; push_cast; ring

theorem sq_err {x y e a : ℝ} (h : |x - y| ≤ a * e) (hx : |x| ≤ a) (he0 : 0 ≤ e) (he : e ≤ 1) :
    |x ^ 2 - y ^ 2| ≤ 3 * a ^ 2 * e := by
  have ha : 0 ≤ a := (abs_nonneg _).trans hx
  have e1 : x ^ 2 - y ^ 2 = (x - y) * (2 * x - (x - y)) := by ring
  rw [e1, abs_mul]
  have h2 : |2 * x - (x - y)| ≤ 3 * a := by
    refine (abs_sub _ _).trans ?_
    rw [abs_mul, abs_two]
    nlinarith
  calc _ ≤ (a * e) * (3 * a) := mul_le_mul h h2 (abs_nonneg _) (by positivity)
    _ = _ := by ring


/-- The difference `a² + b² − c² − d²` of two squared magnitudes. -/
noncomputable def sqDiff (c d a b : List (ℚ × ℚ)) : ℝ :=
  cosSum a ^ 2 + cosSum b ^ 2 - cosSum c ^ 2 - cosSum d ^ 2

/-- `sqDiff` to `k` binary digits a term. -/
def sqDiffApprox (k : ℕ) (c d a b : List (ℚ × ℚ)) : ℚ :=
  cosSumApprox k a ^ 2 + cosSumApprox k b ^ 2 - cosSumApprox k c ^ 2 - cosSumApprox k d ^ 2

/-- The sum of all coefficients' absolute values. -/
def absSum4 (c d a b : List (ℚ × ℚ)) : ℚ := absSum a + absSum b + absSum c + absSum d

/-- The error bound of `sqDiffApprox`. -/
def sqErr (k : ℕ) (c d a b : List (ℚ × ℚ)) : ℚ := 3 * absSum4 c d a b ^ 2 / 2 ^ k

theorem sq_add_le_four {w x y z : ℝ} (hw : 0 ≤ w) (hx : 0 ≤ x) (hy : 0 ≤ y) (hz : 0 ≤ z) :
    w ^ 2 + x ^ 2 + y ^ 2 + z ^ 2 ≤ (w + x + y + z) ^ 2 := by
  nlinarith [mul_nonneg hw hx, mul_nonneg hw hy, mul_nonneg hw hz, mul_nonneg hx hy,
    mul_nonneg hx hz, mul_nonneg hy hz]

theorem absSum_nonneg_real (l : List (ℚ × ℚ)) : (0 : ℝ) ≤ absSum l := by
  exact_mod_cast absSum_nonneg l

theorem absSum4_real (c d a b : List (ℚ × ℚ)) :
    (absSum4 c d a b : ℝ) = absSum a + absSum b + absSum c + absSum d := by
  unfold absSum4; push_cast; ring

theorem sqDiffApprox_err (k : ℕ) (c d a b : List (ℚ × ℚ)) :
    |sqDiff c d a b - sqDiffApprox k c d a b| ≤ sqErr k c d a b := by
  have he0 : (0 : ℝ) ≤ 1 / 2 ^ k := by positivity
  have he1 : (1 : ℝ) / 2 ^ k ≤ 1 := by
    rw [div_le_one (by positivity)]; exact one_le_pow₀ (by norm_num)
  have ea := sq_err (cosSumApprox_err k a) (cosSum_abs_le a) he0 he1
  have eb := sq_err (cosSumApprox_err k b) (cosSum_abs_le b) he0 he1
  have ec := sq_err (cosSumApprox_err k c) (cosSum_abs_le c) he0 he1
  have ed := sq_err (cosSumApprox_err k d) (cosSum_abs_le d) he0 he1
  have hsum := sq_add_le_four (absSum_nonneg_real a) (absSum_nonneg_real b)
    (absSum_nonneg_real c) (absSum_nonneg_real d)
  have hfin := mul_le_mul_of_nonneg_right hsum he0
  rw [sqErr, Rat.cast_div, Rat.cast_mul, Rat.cast_pow, absSum4_real, sqDiff, sqDiffApprox]
  push_cast
  rw [div_eq_mul_one_div]
  rw [abs_le] at ea eb ec ed ⊢
  constructor <;> linarith [ea.1, ea.2, eb.1, eb.2, ec.1, ec.2, ed.1, ed.2]

/-- A bound on every conjugate of `4·Q²·sqDiff`. -/
def sqBound (Q : ℕ) (c d a b : List (ℚ × ℚ)) : ℕ := ⌈(2 * Q * absSum4 c d a b) ^ 2⌉.toNat + 1

theorem le_sqBound (Q : ℕ) (c d a b : List (ℚ × ℚ)) :
    (2 * Q * (absSum4 c d a b : ℝ)) ^ 2 ≤ sqBound Q c d a b := by
  have h1 : (2 * Q * absSum4 c d a b) ^ 2 ≤ ((⌈(2 * Q * absSum4 c d a b) ^ 2⌉.toNat : ℕ) : ℚ) := by
    refine (Int.le_ceil _).trans ?_
    exact_mod_cast Int.self_le_toNat _
  have h2 : ((2 * Q * absSum4 c d a b) ^ 2 : ℚ) ≤ (sqBound Q c d a b : ℚ) := by
    rw [sqBound]; push_cast at h1 ⊢; linarith
  exact_mod_cast h2

/-- A non-zero difference of squared magnitudes is at least `1 / (4 Q² Hᴹ)`. -/
theorem sqDiff_gap {M Q : ℕ} (hM : 0 < M) (hQ : 0 < Q) (c d a b : List (ℚ × ℚ))
    (hq : ∀ t ∈ a ++ b ++ c ++ d, t.1.den ∣ Q) (hm : ∀ t ∈ a ++ b ++ c ++ d, t.2.den ∣ M)
    (h0 : sqDiff c d a b ≠ 0) :
    1 ≤ 4 * (Q : ℝ) ^ 2 * |sqDiff c d a b| * (sqBound Q c d a b : ℝ) ^ M := by
  have hmem : ∀ l : List (ℚ × ℚ), (∀ t ∈ l, t ∈ a ++ b ++ c ++ d) →
      CycInt (unitRoot M) (2 * Q * absSum l) ((2 * Q * cosSum l : ℝ) : ℂ) := fun l hl =>
    cosSum_cycInt hM l (fun t ht => hq t (hl t ht)) (fun t ht => hm t (hl t ht))
  have ca := hmem a (fun t ht => by simp [ht])
  have cb := hmem b (fun t ht => by simp [ht])
  have cc := hmem c (fun t ht => by simp [ht])
  have cd := hmem d (fun t ht => by simp [ht])
  have cz := ((((ca.mul ca).add (cb.mul cb)).add (cc.mul cc).neg).add (cd.mul cd).neg)
  have hQR : (0 : ℝ) < Q := by exact_mod_cast hQ
  have hzD : (((2 * Q * cosSum a : ℝ) : ℂ) * ((2 * Q * cosSum a : ℝ) : ℂ)
      + ((2 * Q * cosSum b : ℝ) : ℂ) * ((2 * Q * cosSum b : ℝ) : ℂ)
      + -(((2 * Q * cosSum c : ℝ) : ℂ) * ((2 * Q * cosSum c : ℝ) : ℂ))
      + -(((2 * Q * cosSum d : ℝ) : ℂ) * ((2 * Q * cosSum d : ℝ) : ℂ)))
      = ((4 * Q ^ 2 * sqDiff c d a b : ℝ) : ℂ) := by rw [sqDiff]; push_cast; ring
  rw [hzD] at cz
  have cz' : CycInt (unitRoot M) (sqBound Q c d a b) ((4 * Q ^ 2 * sqDiff c d a b : ℝ) : ℂ) := by
    refine cz.mono (le_trans ?_ (le_sqBound Q c d a b))
    rw [absSum4_real, mul_pow]
    have := sq_add_le_four (absSum_nonneg_real a) (absSum_nonneg_real b)
      (absSum_nonneg_real c) (absSum_nonneg_real d)
    have := mul_le_mul_of_nonneg_left this (sq_nonneg (2 * (Q : ℝ)))
    linarith
  have h1h : (1 : ℝ) ≤ sqBound Q c d a b := by
    rw [sqBound]; push_cast; linarith [(Nat.cast_nonneg (⌈(2 * Q * absSum4 c d a b) ^ 2⌉.toNat) : (0:ℝ) ≤ _)]
  have hz : ((4 * Q ^ 2 * sqDiff c d a b : ℝ) : ℂ) ≠ 0 := by
    rw [Ne, Complex.ofReal_eq_zero]
    exact mul_ne_zero (by positivity) h0
  have hsep := CycInt.sep hM (Complex.isPrimitiveRoot_exp M hM.ne') h1h cz' hz
  rwa [Complex.norm_real, Real.norm_eq_abs, abs_mul,
    abs_of_pos (by positivity : (0:ℝ) < 4 * Q ^ 2)] at hsep

/-- `c² + d² ≤ a² + b²` for four cosine sums, decided on rationals alone: first at 32 binary
digits, and where these do not settle it at a precision below the gap of `sqDiff_gap`. -/
def sqSumLe (c d a b : List (ℚ × ℚ)) : Bool :=
  if sqErr 32 c d a b < sqDiffApprox 32 c d a b then true
  else if sqDiffApprox 32 c d a b < -(sqErr 32 c d a b) then false
  else
    let m := commonDen ((a ++ b ++ c ++ d).map Prod.snd)
    let h := sqBound (commonDen ((a ++ b ++ c ++ d).map Prod.fst)) c d a b
    let k := 3 + (m + 1) * (Nat.log2 h + 1)
    decide (-(sqErr k c d a b) ≤ sqDiffApprox k c d a b)

theorem pow_lt_precision (h m : ℕ) : (h : ℝ) ^ (m + 1) * 8 ≤ 2 ^ (3 + (m + 1) * (Nat.log2 h + 1)) := by
  have h1 : h ≤ 2 ^ (Nat.log2 h + 1) := (Nat.lt_log2_self).le
  have h3 : h ^ (m + 1) ≤ 2 ^ ((m + 1) * (Nat.log2 h + 1)) := by
    rw [mul_comm (m + 1), pow_mul]; exact Nat.pow_le_pow_left h1 _
  have h4 : h ^ (m + 1) * 8 ≤ 2 ^ (3 + (m + 1) * (Nat.log2 h + 1)) := by
    rw [Nat.pow_add 2 3]; omega
  exact_mod_cast h4

theorem nonneg_of_precise {M Q k : ℕ} (hM : 0 < M) (hQ : 0 < Q) (c d a b : List (ℚ × ℚ))
    (hq : ∀ t ∈ a ++ b ++ c ++ d, t.1.den ∣ Q) (hm : ∀ t ∈ a ++ b ++ c ++ d, t.2.den ∣ M)
    (hk : (sqBound Q c d a b : ℝ) ^ (M + 1) * 8 ≤ 2 ^ k)
    (hle : (-(sqErr k c d a b) : ℝ) ≤ sqDiffApprox k c d a b) : 0 ≤ sqDiff c d a b := by
  by_contra hneg
  push Not at hneg
  have hsep := sqDiff_gap hM hQ c d a b hq hm hneg.ne
  have herr := sqDiffApprox_err k c d a b
  have hH := le_sqBound Q c d a b
  set D := sqDiff c d a b
  set h : ℝ := (sqBound Q c d a b : ℝ) with hh
  set s : ℝ := (absSum4 c d a b : ℝ)
  set e : ℝ := (sqErr k c d a b : ℝ) with he
  have hkp : (0 : ℝ) < 2 ^ k := by positivity
  have hh0 : 0 ≤ h := Nat.cast_nonneg _
  rw [abs_of_neg hneg] at hsep
  rw [abs_le] at herr
  have hDle : -D ≤ 2 * e := by linarith [herr.2]
  have hek : e * 2 ^ k = 3 * s ^ 2 := by
    rw [he, sqErr]; push_cast; field_simp; rfl
  have s1 : 4 * (Q : ℝ) ^ 2 * (2 * e) * h ^ M * 2 ^ k = 6 * ((2 * Q * s) ^ 2 * h ^ M) := by
    linear_combination (8 * (Q : ℝ) ^ 2 * h ^ M) * hek
  have s2 : 6 * ((2 * Q * s) ^ 2 * h ^ M) ≤ 6 * h ^ (M + 1) := by
    rw [pow_succ h, mul_comm (h ^ M)]
    exact mul_le_mul_of_nonneg_left (mul_le_mul_of_nonneg_right hH (by positivity)) (by norm_num)
  have s3 : 1 ≤ 4 * (Q : ℝ) ^ 2 * (2 * e) * h ^ M := by
    refine hsep.trans ?_
    gcongr
  have s4 : (2 : ℝ) ^ k ≤ 6 * h ^ (M + 1) := by
    have := mul_le_mul_of_nonneg_right s3 hkp.le
    linarith
  linarith

theorem sqSumLe_iff (c d a b : List (ℚ × ℚ)) :
    sqSumLe c d a b = true ↔ cosSum c ^ 2 + cosSum d ^ 2 ≤ cosSum a ^ 2 + cosSum b ^ 2 := by
  have hgoal : (cosSum c ^ 2 + cosSum d ^ 2 ≤ cosSum a ^ 2 + cosSum b ^ 2) ↔ 0 ≤ sqDiff c d a b := by
    rw [sqDiff]; constructor <;> intro h <;> linarith
  rw [hgoal, sqSumLe]
  have h32 := sqDiffApprox_err 32 c d a b
  rw [abs_le] at h32
  split
  · rename_i h
    have h2 := (Rat.cast_lt (K := ℝ)).mpr h
    simp only [true_iff]
    linarith [h32.1]
  split
  · rename_i h
    have h2 := (Rat.cast_lt (K := ℝ)).mpr h
    rw [Rat.cast_neg] at h2
    simp only [Bool.false_eq_true, false_iff, not_le]
    linarith [h32.2]
  simp only [decide_eq_true_eq]
  rw [← Rat.cast_le (K := ℝ), Rat.cast_neg]
  constructor
  · exact nonneg_of_precise (commonDen_pos _) (commonDen_pos _) c d a b
      (fun t ht => commonDen_dvd (List.mem_map_of_mem ht))
      (fun t ht => commonDen_dvd (List.mem_map_of_mem ht)) (pow_lt_precision _ _)
  · intro hpos
    have := sqDiffApprox_err (3 + (commonDen ((a ++ b ++ c ++ d).map Prod.snd) + 1) * (Nat.log2 (sqBound (commonDen ((a ++ b ++ c ++ d).map Prod.fst)) c d a b) + 1)) c d a b
    rw [abs_le] at this
    linarith [this.2]

end Sys2Proof.Machine
end

