-- ==== Sys2Proof/Machine/Numerics.lean ====
section
/-!
DEFINITION. The numerics `NUM` (R14): the samples of a tone (`SIN`, R131, R136) and the comparison of two bin magnitudes
(`MAG`, R160, R165, R175).
-/

namespace Sys2Proof

/-- The terms of a sample that is written as a sum. -/
def Sample.terms : Sample → List (ℚ × ℚ)
  | .sum terms => terms
  | .named _ => []

/-- Whether a sample is written as a sum. -/
def Sample.isSum : Sample → Bool
  | .sum _ => true
  | .named _ => false

/-- The real number a sample stands for where the names stand for `names`: `Σ amp · sin(2π · turns)`, or `names n`. -/
noncomputable def Sample.valIn (names : ℕ → ℝ) : Sample → ℝ
  | .sum terms => (terms.map fun t => (t.1 : ℝ) * Real.sin (2 * Real.pi * t.2)).sum
  | .named n => names n

end Sys2Proof

namespace Sys2Proof.Machine

/-! ### The tone sample -/

/-- `sin(2π · t)` as a sample, with the angle brought to the first quarter turn, so that equal sines of this kind are equal
data (0 has no term). -/
def sineTurns (t : ℚ) : Sample :=
  let u := Int.fract t
  let sgn : ℚ := if u < 1 / 2 then 1 else -1
  let v := if u < 1 / 2 then u else u - 1 / 2
  let w := if v ≤ 1 / 4 then v else 1 / 2 - v
  .sum (if w = 0 then [] else [(sgn, w)])

/-- `NUM.SIN(f, r, i)`, which realises `sin(2π · f · i / r)` (R14, R131): under `NUM_REF` the exact real sine, under another
numerics some function of `f`, `r` and `i` alone (R136). -/
def sinSample (num : Numerics) (f r : Param) (i : Nat) : Sample :=
  match num with
  | .reference => sineTurns (f.val * i / r.val)
  | .realised id => Config.realisedSin id f r i

/-! ### The spectrum (R160) -/

/-- `Re(X[j])` for a block `x` of `N` real samples. -/
noncomputable def dftRe (x : List ℝ) (j : ℤ) : ℝ :=
  ∑ n ∈ Finset.range x.length, x.getD n 0 * Real.cos (2 * Real.pi * j * n / x.length)

/-- `Im(X[j])` for a block `x` of `N` real samples. -/
noncomputable def dftIm (x : List ℝ) (j : ℤ) : ℝ :=
  ∑ n ∈ Finset.range x.length, -(x.getD n 0 * Real.sin (2 * Real.pi * j * n / x.length))

/-- `|X[j]| = sqrt(Re(X[j])² + Im(X[j])²)` (R160). -/
noncomputable def dftMag (x : List ℝ) (j : ℤ) : ℝ := Real.sqrt (dftRe x j ^ 2 + dftIm x j ^ 2)

/-- The magnitude of bin `j` of a block where the names stand for `names`. -/
noncomputable def refMagIn (names : ℕ → ℝ) (x : List Sample) (j : ℤ) : ℝ := dftMag (x.map (Sample.valIn names)) j

/-- The cosine sum of `Re(X[j])`: a term `c · sin(2πt) · cos(2πφ)` is `c/2 · (sin 2π(t+φ) + sin 2π(t−φ))`, and a sine is a
cosine a quarter turn later. -/
def reTerms (x : List Sample) (j : ℤ) : List (ℚ × ℚ) :=
  x.zipIdx.flatMap fun p => p.1.terms.flatMap fun t =>
    [(t.1 / 2, t.2 + j * p.2 / x.length - 1 / 4), (t.1 / 2, t.2 - j * p.2 / x.length - 1 / 4)]

/-- The cosine sum of `Im(X[j])`: a term `−c · sin(2πt) · sin(2πφ)` is `c/2 · (cos 2π(t+φ) − cos 2π(t−φ))`. -/
def imTerms (x : List Sample) (j : ℤ) : List (ℚ × ℚ) :=
  x.zipIdx.flatMap fun p => p.1.terms.flatMap fun t =>
    [(t.1 / 2, t.2 + j * p.2 / x.length), (-(t.1 / 2), t.2 - j * p.2 / x.length)]

theorem cosSum_append (l m : List (ℚ × ℚ)) : cosSum (l ++ m) = cosSum l + cosSum m := by
  simp [cosSum]

theorem cosSum_flatMap {α : Type} (l : List α) (f : α → List (ℚ × ℚ)) :
    cosSum (l.flatMap f) = (l.map fun a => cosSum (f a)).sum := by
  induction l with
  | nil => simp [cosSum]
  | cons a l ih => rw [List.flatMap_cons, cosSum_append, ih, List.map_cons, List.sum_cons]

/-- A sum over the indices of a list, as a sum over its elements with their indices. -/
theorem sum_range_getD {α : Type} (x : List α) (d : α) (f : α → ℕ → ℝ) :
    ∑ n ∈ Finset.range x.length, f (x.getD n d) n = (x.zipIdx.map fun p => f p.1 p.2).sum := by
  induction x using List.reverseRecOn with
  | nil => simp
  | append_singleton x a ih =>
    rw [List.length_append, List.length_singleton, Finset.sum_range_succ, List.zipIdx_append, List.map_append,
      List.sum_append, ← ih]
    refine congrArg₂ _ (Finset.sum_congr rfl fun n hn => ?_) ?_
    · rw [List.getD_append _ _ _ _ (Finset.mem_range.mp hn)]
    · simp

/-- Where every name stands for 0, a sample is the sum of its terms. -/
theorem valIn_zero (s : Sample) :
    s.valIn (fun _ => 0) = (s.terms.map fun t => (t.1 : ℝ) * Real.sin (2 * Real.pi * t.2)).sum := by
  cases s <;> simp [Sample.valIn, Sample.terms]

theorem getD_valIn_zero (x : List Sample) (n : ℕ) :
    (x.map (Sample.valIn fun _ => 0)).getD n 0 = (x.getD n (.sum [])).valIn fun _ => 0 := by
  rw [← List.getD_map (f := Sample.valIn fun _ => 0)]; simp [Sample.valIn]

theorem cosSum_reTerms (x : List Sample) (j : ℤ) :
    cosSum (reTerms x j) = dftRe (x.map (Sample.valIn fun _ => 0)) j := by
  rw [dftRe, List.length_map, reTerms, cosSum_flatMap]
  have h := sum_range_getD x (.sum []) fun s n => s.valIn (fun _ => 0) * Real.cos (2 * Real.pi * j * n / x.length)
  simp only [getD_valIn_zero, h]
  congr 1
  refine List.map_congr_left fun p _ => ?_
  rw [cosSum_flatMap, valIn_zero, ← List.sum_map_mul_right]
  congr 1
  refine List.map_congr_left fun t _ => ?_
  simp only [cosSum, List.map_cons, List.map_nil, List.sum_cons, List.sum_nil]
  push_cast
  have s1 : ∀ a : ℝ, Real.cos (2 * Real.pi * (a - 1 / 4)) = Real.sin (2 * Real.pi * a) := fun a => by
    rw [← Real.cos_sub_pi_div_two]; congr 1; ring
  rw [s1, s1, mul_add, mul_sub, Real.sin_add, Real.sin_sub]
  rw [show 2 * Real.pi * ((j : ℝ) * p.2 / x.length) = 2 * Real.pi * j * p.2 / x.length by ring]
  ring

theorem cosSum_imTerms (x : List Sample) (j : ℤ) :
    cosSum (imTerms x j) = dftIm (x.map (Sample.valIn fun _ => 0)) j := by
  rw [dftIm, List.length_map, imTerms, cosSum_flatMap]
  have h := sum_range_getD x (.sum []) fun s n => -(s.valIn (fun _ => 0) * Real.sin (2 * Real.pi * j * n / x.length))
  simp only [getD_valIn_zero, h]
  congr 1
  refine List.map_congr_left fun p _ => ?_
  rw [cosSum_flatMap, valIn_zero, neg_mul_eq_mul_neg, ← List.sum_map_mul_right]
  congr 1
  refine List.map_congr_left fun t _ => ?_
  simp only [cosSum, List.map_cons, List.map_nil, List.sum_cons, List.sum_nil]
  push_cast
  rw [mul_add, mul_sub, Real.cos_add, Real.cos_sub]
  rw [show 2 * Real.pi * ((j : ℝ) * p.2 / x.length) = 2 * Real.pi * j * p.2 / x.length by ring]
  ring

/-- The order of two magnitudes of a block by evaluation, every name standing for 0. -/
def sumMagLe (x : List Sample) (j j' : ℤ) : Bool := sqSumLe (reTerms x j) (imTerms x j) (reTerms x j') (imTerms x j')

theorem sumMagLe_iff (x : List Sample) (j j' : ℤ) :
    sumMagLe x j j' = true ↔ refMagIn (fun _ => 0) x j ≤ refMagIn (fun _ => 0) x j' := by
  rw [sumMagLe, sqSumLe_iff, cosSum_reTerms, cosSum_imTerms, cosSum_reTerms, cosSum_imTerms, refMagIn, refMagIn, dftMag, dftMag]
  exact (Real.sqrt_le_sqrt_iff (add_nonneg (sq_nonneg _) (sq_nonneg _))).symm

/-! ### Any real number as a sample (R14, R63; log entry 3) -/

/-- What the names of samples stand for, with the order of the magnitudes of blocks that hold named samples. -/
structure RealNames where
  val : ℕ → ℝ
  le : List Sample → ℤ → ℤ → Bool
  le_iff : ∀ x j j', le x j j' = true ↔ refMagIn val x j ≤ refMagIn val x j'

/-- Names that all stand for 0: it shows that the type has a value, which `Config.realNames` needs; it is not its value. -/
def RealNames.zero : RealNames := ⟨fun _ => 0, sumMagLe, sumMagLe_iff⟩

/-- Every sequence of real numbers is what the names of some `RealNames` stand for. -/
theorem RealNames.exists_of (names : ℕ → ℝ) : ∃ n : RealNames, n.val = names := by
  classical
  exact ⟨⟨names, fun x j j' => decide (refMagIn names x j ≤ refMagIn names x j'), fun _ _ _ => decide_eq_true_iff⟩, rfl⟩

end Sys2Proof.Machine

namespace Sys2Proof

open Sys2Proof.Machine

/-- A value of `RealNames` of which nothing is known. -/
opaque Config.realNamesOf [Inhabited RealNames] : RealNames

/-- What the names of samples stand for: opaque, so that whatever is proved of the model holds whatever real numbers the
samples of a run are (`RealNames.exists_of`). -/
def Config.realNames : RealNames := @Config.realNamesOf ⟨.zero⟩

/-- The real number a sample stands for under `NUM_REF`. -/
noncomputable def Sample.val (x : Sample) : ℝ := x.valIn Config.realNames.val

end Sys2Proof

namespace Sys2Proof.Machine

/-! ### The comparison of magnitudes -/

/-- `MAG(block, j)` of `NUM_REF` (R14): the exact magnitude of bin `j` of the block. -/
noncomputable def refMag (x : List Sample) (j : ℤ) : ℝ := dftMag (x.map Sample.val) j

/-- What the names stand for does not show in a block without named samples. -/
theorem refMag_of_sums {x : List Sample} (h : x.all Sample.isSum = true) (j : ℤ) :
    refMag x j = refMagIn (fun _ => 0) x j := by
  rw [refMag, refMagIn]
  congr 1
  refine List.map_congr_left fun s hs => ?_
  have := List.all_eq_true.1 h s hs
  cases s with
  | sum => rfl
  | named => cases this

/-- The order of two exact magnitudes of a block: by evaluation where every sample is written as a sum, else by the order
that comes with the names. -/
def refMagLe (x : List Sample) (j j' : ℤ) : Bool :=
  if x.all Sample.isSum then sumMagLe x j j' else Config.realNames.le x j j'

theorem refMagLe_iff (x : List Sample) (j j' : ℤ) : refMagLe x j j' = true ↔ refMag x j ≤ refMag x j' := by
  unfold refMagLe
  split
  · rename_i h; rw [sumMagLe_iff, refMag_of_sums h, refMag_of_sums h]
  · exact Config.realNames.le_iff x j j'

/-- The order of two exact magnitudes is decided by `refMagLe`. -/
def decRefMagLe (x : List Sample) (j j' : ℤ) : Decidable (refMag x j ≤ refMag x j') :=
  decidable_of_iff (refMagLe x j j' = true) (refMagLe_iff x j j')

/-- Whether the magnitude of bin `j` is at most that of bin `j'` (R165, R166): under `NUM_REF` the exact real magnitudes are
compared, under another numerics the values of its `MAG`, in the order of its `Mag` (R175). -/
def magLe (num : Numerics) (x : List Sample) (j j' : ℤ) : Bool :=
  match num with
  | .reference => @decide (refMag x j ≤ refMag x j') (decRefMagLe x j j')
  | .realised id => decide (Config.realisedMag id x j ≤ Config.realisedMag id x j')

end Sys2Proof.Machine
end

