-- ==== Sys2Proof/Machine/ToneGenerator.lean ====
section
/-!
DEFINITION. The Tone Generator and `GENTONE` (`41_tone_generator.md`).
-/

namespace Sys2Proof.Machine

/-- `tone(f, N, r)` (R131, R136): sample `i` is `NUM.SIN(f, r, i)`, counted from the start of the block (R132). -/
def tone (num : Numerics) (f r : Param) (n : Nat) : List Sample := (List.range n).map (sinSample num f r)

/-- `DurationTooShort` iff `N < MIN_SLOT_LEN` (R133, R214). -/
def State.tooShort (s : State) : Bool := decide (s.slotLen < s.block.minSlotLen)

/-- Raises `DurationTooShort(min(N, 2^32 − 1), 0)` (R214). -/
def raiseTooShort (s : State) : Result := raise s .durationTooShort (sat32 s.slotLen) 0

/-- `GENTONE` (R134). It does not read `MODE`. -/
def execGentone (s : State) : Result :=
  if s.tooShort then raiseTooShort s
  else finishSamples s (tone s.block.numerics s.farg s.srate s.slotLen)

end Sys2Proof.Machine
end

