-- ==== Sys2Proof/Machine/SpectralDecoder.lean ====
section
/-!
DEFINITION. The Spectral Symbol Decoder and `DECSLOT` (`43_spectral_decoder.md`).
-/

namespace Sys2Proof.Machine

/-- The centred bin indices of a block of `N` samples, upward: `−floor(N/2)` to `ceil(N/2) − 1` (R161). -/
def binRange (n : Nat) : List Int := (List.range n).map fun i : Nat => (i : Int) - ((n / 2 : Nat) : Int)

/-- Bin `j` qualifies for the candidate frequency `fc`: `|j·r/N − fc| ≤ TOL_HZ`, exact, the ends included (R162). -/
def qualifies (fc r : Param) (n : Nat) (j : Int) : Bool :=
  decide (|(j : ℚ) * r.val / (n : ℚ) - fc.val| ≤ Config.tolHz)

/-- `bin(fc, N, r)` (R163): the smallest qualifying bin, the first one the upward scan meets; none if no bin qualifies. -/
def binOf (fc r : Param) (n : Nat) : Option Int := (binRange n).find? (qualifies fc r n)

/-- The bin of a candidate symbol. -/
def candidateBin (m : Mode) (f0 f1 r : Param) (n : Nat) (v : Symbol) : Option Int := binOf (freqOf v m f0 f1) r n

/-- The rest of the scan of R166 from the running best symbol and its bin: the best is replaced when a later candidate's
magnitude is greater or equal; the first candidate without a bin ends it. -/
def scanCandidates (num : Numerics) (m : Mode) (f0 f1 r : Param) (x : List Sample) :
    List Symbol → Symbol → Int → SlotResult
  | [], best, _ => .symbol best
  | v :: rest, best, jBest =>
    match candidateBin m f0 f1 r x.length v with
    | none => .noBin v
    | some j =>
      if magLe num x jBest j then scanCandidates num m f0 f1 r x rest v j
      else scanCandidates num m f0 f1 r x rest best jBest

/-- `decodeBlock(x, mode, f0, f1, r)` (R166): candidates in increasing symbol value, the first of them 0 (R124). -/
def decodeBlock (num : Numerics) (m : Mode) (f0 f1 r : Param) (x : List Sample) : SlotResult :=
  match candidateBin m f0 f1 r x.length 0 with
  | none => .noBin 0
  | some j => scanCandidates num m f0 f1 r x (alphabet m).tail 0 j

/-- Decodes slot `k` of `IS` with the parameter registers (R169, R182). -/
def State.decodeSlot (s : State) (m : Mode) (k : Nat) : SlotResult :=
  decodeBlock s.block.numerics m s.freq0 s.freq1 s.srate (s.slotBlock k)

/-- `DECSLOT` (R170). It writes no buffer and does not read `SINK_FAIL`. -/
def execDecslot (s : State) : Result :=
  if s.srcFail then raise s .sourceUnavailable 0 0
  else match modeOf s.mode with
    | none => raise s .invalidMode s.mode 0
    | some m =>
      if s.tooShort then raiseTooShort s
      else if s.mem.is.length < (s.arg.toNat + 1) * s.slotLen then
        raise s .incompleteSlot (sat32 (s.avail s.arg.toNat)) s.arg
      else match s.decodeSlot m s.arg.toNat with
        | .noBin v => raise s .noQualifyingBin (v.setWidth 32) s.arg
        | .symbol v => succeed (s.setRes (v.setWidth 32))

end Sys2Proof.Machine
end

