-- ==== Sys2Proof/Machine/Demodulator.lean ====
section
/-!
DEFINITION. The Demodulator and `DEMODULATE` (`44_demodulator.md`). Its element steps, taken one at a time by workers (R189),
are in `Sys2Proof/Machine/Workers.lean`.
-/

namespace Sys2Proof.Machine

/-- The least failing slot from `k` on, with the symbol it failed at (R188, R222). -/
def firstNoBin : List SlotResult → Nat → Option (Nat × Symbol)
  | [], _ => none
  | .symbol _ :: rest, k => firstNoBin rest (k + 1)
  | .noBin v :: _, k => some (k, v)

/-- The decoded symbols, in slot order. -/
def slotSymbols : List SlotResult → List Symbol
  | [] => []
  | .symbol v :: rest => v :: slotSymbols rest
  | .noBin _ :: rest => slotSymbols rest

/-- The results of all slots, in slot order (R182). -/
def State.decodeSlots (s : State) (m : Mode) : List SlotResult := (List.range s.slotCount).map (s.decodeSlot m)

/-- The finish of `DEMODULATE` once every slot is decoded (R188, R189): the error of the lowest failing slot, or pack and
commit. -/
def finishDemodulate (s : State) (m : Mode) (results : List SlotResult) : Result :=
  match firstNoBin results 0 with
  | some (k, v) => raise s .noQualifyingBin (v.setWidth 32) (sat32 k)
  | none => finishBytes s (pack (slotSymbols results) m)

/-- The error an up-front check of `DEMODULATE` ends it with, in the order of R188 and R222, or the mode it runs in. -/
def demodulateChecks (s : State) : Except (ErrCode × Word) Mode :=
  if s.srcFail then .error (.sourceUnavailable, 0)
  else match modeOf s.mode with
    | none => .error (.invalidMode, s.mode)
    | some m => if s.tooShort then .error (.durationTooShort, sat32 s.slotLen) else .ok m

/-- `DEMODULATE` (R188). It does not read `WORKERS` or `ISRATE`. -/
def execDemodulate (s : State) : Result :=
  match demodulateChecks s with
  | .error (e, info) => raise s e info 0
  | .ok m => finishDemodulate s m (s.decodeSlots m)

end Sys2Proof.Machine
end

