-- ==== Sys2Proof/Machine/Modulator.lean ====
section
/-!
DEFINITION. The Modulator and `MODULATE` (`42_modulator.md`). Its element steps, taken one at a time by workers (R149), are
in `Sys2Proof/Machine/Workers.lean`.
-/

namespace Sys2Proof.Machine

/-- The chunk table of `L` symbols for `W` workers (R143): with `q = L div W`, chunk `c` starts at `c·q` and has `q` symbols,
the last one `L − (W − 1)·q`. No chunk has made progress yet. -/
def chunkTable (l w : Nat) : List Chunk :=
  (List.range w).map fun c => ⟨c * (l / w), if c + 1 < w then l / w else l - (w - 1) * (l / w), 0⟩

/-- The tone of one symbol (R144): the frequency map, then the tone generator. -/
def symbolTone (num : Numerics) (m : Mode) (f0 f1 r : Param) (n : Nat) (v : Symbol) : List Sample :=
  tone num (freqOf v m f0 f1) r n

/-- The waveform of one chunk (R144): the tones of its symbols in order. -/
def chunkWave (num : Numerics) (m : Mode) (f0 f1 r : Param) (n : Nat) (symbols : List Symbol) (c : Chunk) :
    List Sample :=
  ((symbols.drop c.start).take c.len).flatMap (symbolTone num m f0 f1 r n)

/-- The waveform of a symbol sequence in `W` chunks, concatenated in chunk order (R145). -/
def chunkedWave (num : Numerics) (m : Mode) (f0 f1 r : Param) (n w : Nat) (symbols : List Symbol) : List Sample :=
  (chunkTable symbols.length w).flatMap (chunkWave num m f0 f1 r n symbols)

/-- `modulate` as a function of its inputs (R140): one tone per symbol, in order; the worker count is no argument of it. -/
def modulateWave (num : Numerics) (m : Mode) (f0 f1 r : Param) (n : Nat) (b : List Byte) : List Sample :=
  (expand b m).flatMap (symbolTone num m f0 f1 r n)

/-- The error an up-front check of `MODULATE` ends it with, in the order of R150 and R222, or the mode it runs in. -/
def modulateChecks (s : State) : Except (ErrCode × Word) Mode :=
  if s.srcFail then .error (.sourceUnavailable, 0)
  else match modeOf s.mode with
    | none => .error (.invalidMode, s.mode)
    | some m =>
      if s.workers = 0 then .error (.badWorkerCount, 0)
      else if s.tooShort then .error (.durationTooShort, sat32 s.slotLen)
      else .ok m

/-- `MODULATE` (R150). -/
def execModulate (s : State) : Result :=
  match modulateChecks s with
  | .error (e, info) => raise s e info 0
  | .ok m =>
    finishSamples s
      (chunkedWave s.block.numerics m s.freq0 s.freq1 s.srate s.slotLen s.workerCount (expand s.mem.ib m))

end Sys2Proof.Machine
end

