-- ==== Sys2Proof/Machine/Dispatch.lean ====
section
/-!
DEFINITION. One arm per command: what an accepted command does, from its checks to its finish step (R94, R95).
-/

namespace Sys2Proof.Machine

def exec (i : Instr) (s : State) : Host.Outcome State Fault Refusal :=
  match i with
  | .freqof => Sys2Proof.Machine.execFreqof s
  | .gentone => Sys2Proof.Machine.execGentone s
  | .modulate => Sys2Proof.Machine.execModulate s
  | .decslot => Sys2Proof.Machine.execDecslot s
  | .demodulate => Sys2Proof.Machine.execDemodulate s
  | .expand => Sys2Proof.Machine.execExpand s
  | .pack => Sys2Proof.Machine.execPack s

end Sys2Proof.Machine
end

