-- ==== Sys2Proof/Machine/Workers.lean ====
section
/-!
DEFINITION. A command in flight, step by step: acceptance (R94), the worker steps of `MODULATE` (R149) and `DEMODULATE`
(R189), the join (R73) and the finish step (R231, R232).

`exec` is the same command in one step, as R94, R140 and R180 allow; that the two agree on every schedule is stated in
`Sys2Proof/Certificates/Slice0/Obligations.lean`.
-/

namespace Sys2Proof.Machine

/-- The work a command has before its finish step, fixed at acceptance (R36, R149, R189). A command that an up-front check
ends has none: its finish step raises the error. -/
def startWork (i : Instr) (s : State) : Work :=
  match i with
  | .freqof => .unit
  | .gentone => .unit
  | .decslot => .unit
  | .expand => .unit
  | .pack => .unit
  | .modulate =>
    match modulateChecks s with
    | .error _ => .unit
    | .ok m =>
      let symbols := expand s.mem.ib m
      .encode symbols s.workerCount (chunkTable symbols.length s.workerCount) (List.replicate symbols.length none)
  | .demodulate =>
    match demodulateChecks s with
    | .error _ => .unit
    | .ok _ => .decode s.slotCount (List.replicate s.slotCount none)

/-- Acceptance of a legal command word on an idle block (R94): `DONE` and `ERR` cleared, `BUSY` set by the new record. -/
def State.begin (s : State) (i : Instr) : State :=
  { s.clearFlags with inFlight := some ⟨i, startWork i s⟩ }

/-- The mode of a command in flight. Only a command whose checks have passed asks for it, so `MODE` is 0 or 1. -/
def State.flightMode (s : State) : Mode := (modeOf s.mode).getD .bit

/-- The tone a worker makes of symbol `k` of a `MODULATE` in flight (R149). -/
def State.stageTone (s : State) (symbols : List Symbol) (k : Nat) : List Sample :=
  symbolTone s.block.numerics s.flightMode s.freq0 s.freq1 s.srate s.slotLen (symbols.getD k 0)

/-- One worker step (R149, R189): of chunk `n`, its next symbol; of a decode, slot `n`. None where it is not enabled: the
chunk is complete, the slot is decoded already, or there is no such chunk or slot. It writes its own staging entry and
its own progress, nothing else (R67). -/
def Work.workerStep (s : State) (w : Work) (n : Nat) : Option Work :=
  match w with
  | .unit => none
  | .encode symbols workers chunks stage =>
    match chunks[n]? with
    | none => none
    | some c =>
      if c.progress < c.len then
        some (.encode symbols workers (chunks.set n { c with progress := c.progress + 1 })
          (stage.set (c.start + c.progress) (some (s.stageTone symbols (c.start + c.progress)))))
      else none
  | .decode slots stage =>
    match stage[n]? with
    | some none => some (.decode slots (stage.set n (some (s.decodeSlot s.flightMode n))))
    | _ => none

/-- The join (R73): every chunk complete, every slot decoded. -/
def Work.complete : Work → Bool
  | .unit => true
  | .encode _ _ chunks _ => chunks.all fun c => decide (c.len ≤ c.progress)
  | .decode _ stage => stage.all Option.isSome

/-- The worker steps still to be taken before the join. -/
def Work.remaining : Work → Nat
  | .unit => 0
  | .encode _ _ chunks _ => (chunks.map fun c => c.len - c.progress).sum
  | .decode _ stage => stage.countP Option.isNone

/-- The least chunk or slot that a worker step is enabled for. -/
def Work.nextWorker : Work → Option Nat
  | .unit => none
  | .encode _ _ chunks _ => chunks.findIdx? fun c => decide (c.progress < c.len)
  | .decode _ stage => stage.findIdx? Option.isNone

/-- The finish step of a command in flight, enabled at the join: a unit-level command (or a failed check) computes its
outcome; `MODULATE` and `DEMODULATE` end with what the workers have staged. -/
def State.finishFlight (s : State) (f : InFlight) : Result :=
  match f.work with
  | .unit => exec f.cmd s
  | .encode _ _ _ stage => finishSamples s (stage.flatMap fun o => o.getD [])
  | .decode _ stage => finishDemodulate s s.flightMode (stage.filterMap id)

/-- The turn of worker number `n` (an agent with no enabled step takes none). -/
def State.workerTurn (s : State) (n : Nat) : State :=
  match s.inFlight with
  | none => s
  | some f =>
    match f.work.workerStep s n with
    | none => s
    | some w => { s with inFlight := some ⟨f.cmd, w⟩ }

/-- The controller's turn: the finish step if it is enabled. -/
def State.finishTurn (s : State) : Result :=
  match s.inFlight with
  | none => .next s
  | some f => if f.work.complete then s.finishFlight f else .next s

/-- A busy block that nothing else is scheduled on goes on by itself (R255): the lowest enabled worker step, or the finish
step at the join. Which worker goes first shows in no output (R146, R190). -/
def State.advance (s : State) (f : InFlight) : Result :=
  match f.work.nextWorker with
  | some n => .next (s.workerTurn n)
  | none => s.finishTurn

end Sys2Proof.Machine
end

