-- ==== Sys2Proof/Machine/HostPort.lean ====
section
/-!
DEFINITION. The host's transactions (R92) and the agents' turns (R21), as the block takes them.
-/

namespace Sys2Proof.Machine

/-- `WR CMD, w` on an idle block, from acceptance to finish in one step (R94): the command's meaning, or `IllegalCommand`
with the word as `ERRINFO` (R99, R217). Acceptance clears `DONE` and `ERR`, which the finish step of the same transaction
writes anew, so the clearing shows only where the command stays in flight (`acceptCommand`). -/
def runCommand (s : State) (w : Word) : Result :=
  match decode w with
  | .ok i => exec i s
  | .error _ => raise s .illegalCommand w 0

/-- `WR CMD, w` on an idle block, acceptance alone (R94): a legal command stays in flight, an illegal word finishes at once. -/
def acceptCommand (s : State) (w : Word) : Result :=
  match decode w with
  | .ok i => .next (s.begin i)
  | .error _ => raise s .illegalCommand w 0

/-- A host transaction that a busy block ignores: every write, every load and every `CMD` write (R39). -/
def Txn.ignoredWhenBusy : Txn → Bool
  | .wrWord _ _ => true
  | .wrParam _ _ => true
  | .wrReserved _ _ => true
  | .loadB _ => true
  | .loadS _ _ => true
  | .rd _ => false
  | .readB => false
  | .readS => false
  | .readByteAt _ => false
  | .readSampleAt _ => false
  | .reset => false

/-- A host transaction the block does not ignore (R92). Reads see the registers and output buffers as they stand, which
while busy are those of acceptance (R39, R64); reset is taken at any time (R38). -/
def takeTxn (s : State) : Txn → Result
  | .wrWord r v => if r = .cmd then runCommand s v else .next (s.writeWord r v)
  | .wrParam r v => .next (s.writeParam r v)
  | .wrReserved _ _ => .next s
  | .rd r => .next (s.reply (.reg (s.readReg r)))
  | .loadB b => .next (s.loadB b)
  | .loadS rate x => .next (s.loadS rate x)
  | .readB => .next (s.reply (.bytes s.mem.ob))
  | .readS => .next (s.reply (.samples s.osrate s.mem.os))
  | .readByteAt i => .next (s.readByteAt i)
  | .readSampleAt i => .next (s.readSampleAt i)
  | .reset => .next s.resetBlock

/-- A host transaction (R39, R92). -/
def hostTxn (s : State) (t : Txn) : Result :=
  if s.busy && t.ignoredWhenBusy then .next s else takeTxn s t

/-- One scheduled event. A `CMD` write on a busy block is ignored (R39); a turn of an agent that has no enabled step changes
nothing. -/
def runEvent (s : State) : Event → Result
  | .host t => hostTxn s t
  | .accept w => if s.busy then .next s else acceptCommand s w
  | .worker n => .next (s.workerTurn n)
  | .finish => s.finishTurn

/-- Puts `rest` in the place of the script. -/
def State.withScript (s : State) (rest : List Line) : State := { s with script := rest }

/-- What the block does when nothing is scheduled: a busy block goes on with its command (R255), an idle one waits and keeps
all its state (R228). -/
def idleTurn (s : State) : Result :=
  match s.inFlight with
  | none => .next s
  | some f => s.advance f

/-- The host reads `STATUS` (R101). -/
def State.pollStatus (s : State) : State := s.reply (.reg (.word s.statusWord))

/-- `WAIT` (R101), with `s.script` what follows it: one read of `STATUS`. If it reads `DONE = 1` the wait is over; otherwise
the block goes on by itself and the host reads again. (On an idle block with `DONE = 0` the wait never ends.) -/
def waitTurn (s : State) : Result :=
  if s.done then .next s.pollStatus else idleTurn (s.pollStatus.withScript (.wait :: s.script))

/-- The caller's look at `STATUS.ERR` after `WAIT` (R102), with `s.script` what follows it: the next transaction is the
read-out `t`, or the read of `ERRCODE` in its place. -/
def resultTurn (s : State) (t : Txn) : State :=
  s.pollStatus.withScript (.event (.host (if s.err then .rd (.word .errcode) else t)) :: s.script)

/-- One line of the script, `s.script` being what follows it. -/
def runLine (s : State) : Line → Result
  | .event e => runEvent s e
  | .wait => waitTurn s
  | .result t => .next (resultTurn s t)

end Sys2Proof.Machine
end

