-- ==== Sys2Proof/Machine/Step.lean ====
section
/-!
DEFINITION. One step of the machine: the next line of the script, or, when nothing is scheduled, what the block does by
itself. FSKC has no program counter and fetches nothing (R27): a command arrives as a `WR CMD` transaction of the host.
-/

namespace Sys2Proof.Machine

/-- One step. -/
def step (s : State) : Host.Outcome State Fault Refusal :=
  match s.script with
  | [] => idleTurn s
  | l :: rest => runLine (s.withScript rest) l

/-- `s` with the command word `w` arriving next: the host's next transaction is `WR CMD, w`, and no command is in flight, for
a busy block would ignore it (R39). -/
def State.withFetchWord (s : State) (nbits w : Nat) : State :=
  { s with inFlight := none
           script := .event (.host (.wrWord .cmd (BitVec.ofNat 32 (w % 2 ^ nbits)))) :: s.script }

end Sys2Proof.Machine
end

