-- ==== Sys2Proof/Machine/HostScript.lean ====
section
/-!
DEFINITION. Host scripts (R101) and the pseudo-instructions, one per contract of the document (R102).
-/

namespace Sys2Proof.Machine

/-- The encoding of a `WR` or `RD` line: `(W, regno, value)` or `(R, regno)` (R101). The other transactions have none. -/
inductive LineCode where
  | write (regno : Nat) (v : RegVal)
  | read (regno : Nat)
deriving DecidableEq, Repr

/-- The encoding of a transaction (R92, R101). -/
def Txn.code : Txn → Option LineCode
  | .wrWord r v => some (.write r.number (.word v))
  | .wrParam r v => some (.write r.number (.param v))
  | .wrReserved n v => some (.write (23 + n) (.word v))
  | .rd r => some (.read r.number)
  | .loadB _ => none
  | .loadS _ _ => none
  | .readB => none
  | .readS => none
  | .readByteAt _ => none
  | .readSampleAt _ => none
  | .reset => none

/-- The encoding of a line of a host script (R101). `WAIT` and the look at `STATUS.ERR` are reads of `STATUS`; the turns of
workers and controller are no lines of the host. -/
def Line.code : Line → Option LineCode
  | .event (.host t) => t.code
  | .event (.accept w) => (Txn.wrWord .cmd w).code
  | .event (.worker _) => none
  | .event .finish => none
  | .wait => (Txn.rd (.word .status)).code
  | .result _ => (Txn.rd (.word .status)).code

/-- How the block takes a command (R94; log entry 5): from acceptance to finish in one step, or in small steps. -/
inductive Pace where
  | whole
  | stepwise
deriving DecidableEq, Repr

/-- `WR CMD, w`. -/
def Pace.write : Pace → Word → Event
  | .whole, w => .host (.wrWord .cmd w)
  | .stepwise, w => .accept w

/-- `CMD <mnemonic>` (R101). -/
def cmdLine (p : Pace) (i : Instr) : Line := .event (p.write (encode i))

/-- The write of `HOSTIF` that a collaborator's failure calls for before `CMD` (R102, R30); none without a failure. -/
def failures : Option Word → List Txn
  | none => []
  | some v => [.wrWord .hostif v]

/-- The value of `MODE` for a mode (R91). -/
def modeCode : Mode → Word
  | .bit => 0
  | .byte => 1

/-- The shape of the pseudo-instructions (R102): the transactions that set the call up, the failures to report, `CMD`,
`WAIT`, and the read-out, which an error skips. -/
def contractCall (p : Pace) (hostif : Option Word) (setup : List Txn) (i : Instr) (out : Txn) : List Line :=
  (setup ++ failures hostif).map (fun t => .event (.host t)) ++ [cmdLine p i, .wait, .result out]

/-! The calls take `mode` as a value of `MODE`, since a caller may name an unsupported one (R212). -/

/-- `modulate(B, mode, f0, f1, d, r, W)` (R102). -/
def callModulate (p : Pace) (hostif : Option Word) (b : List Byte) (mode : Word) (f0 f1 d r : Param) (w : Word) :
    List Line :=
  contractCall p hostif [.wrWord .mode mode, .wrParam .freq0 f0, .wrParam .freq1 f1, .wrParam .symdur d, .wrParam .srate r,
    .wrWord .workers w, .loadB b] .modulate .readS

/-- `demodulate(X, mode, f0, f1, d, r)` (R102). -/
def callDemodulate (p : Pace) (hostif : Option Word) (x : List Sample) (mode : Word) (f0 f1 d r : Param) : List Line :=
  contractCall p hostif [.wrWord .mode mode, .wrParam .freq0 f0, .wrParam .freq1 f1, .wrParam .symdur d, .wrParam .srate r,
    .loadS r x] .demodulate .readB

/-- `frequencyOf(s, mode, f0, f1)` (R102). -/
def callFrequencyOf (p : Pace) (hostif : Option Word) (v mode : Word) (f0 f1 : Param) : List Line :=
  contractCall p hostif [.wrWord .mode mode, .wrParam .freq0 f0, .wrParam .freq1 f1, .wrWord .arg v] .freqof
    (.rd (.param .fres))

/-- `generateTone(f, d, r)` (R102). -/
def callGenerateTone (p : Pace) (hostif : Option Word) (f d r : Param) : List Line :=
  contractCall p hostif [.wrParam .symdur d, .wrParam .srate r, .wrParam .farg f] .gentone .readS

/-- `decodeSlot(X, mode, f0, f1, r)` (R102), with `d` a value for which `round(r · d) = len(X)`. -/
def callDecodeSlot (p : Pace) (hostif : Option Word) (x : List Sample) (mode : Word) (f0 f1 r d : Param) : List Line :=
  contractCall p hostif [.wrWord .mode mode, .wrParam .freq0 f0, .wrParam .freq1 f1, .wrParam .srate r, .wrParam .symdur d,
    .loadS r x, .wrWord .arg 0] .decslot (.rd (.word .res))

end Sys2Proof.Machine
end

