-- ==== Sys2Proof/Safety.lean ====
section
/-!
DEFINITION. What a well-behaved state and a safe run are, in the terms the statements use: the invariant `State.Inv`, the
agreement of a command in flight with its one-step meaning, and `Discriminates`, the premise of the round trip (R173).
-/

namespace Sys2Proof.Machine

/-- The flag invariants of R28: `BUSY = 1` implies `DONE = 0` and `ERR = 0`; `ERR = 1` implies `DONE = 1`; `ERR = 1` iff
`ERRCODE ≠ 0` whenever `DONE = 1`. -/
def State.FlagsOk (s : State) : Prop :=
  (s.busy = true → s.done = false ∧ s.err = false) ∧ (s.err = true → s.done = true) ∧
    (s.done = true → (s.err = true ↔ s.errcode ≠ .none))

/-- The work of a command in flight agrees with the registers and buffers, which nothing changes while it is in flight
(R36, R39, R72): it began as `startWork`, and every staged entry is the one its symbol or slot determines, whatever worker
made it and when. In a `MODULATE` every symbol below a chunk's progress counter is staged. -/
def Work.Coherent (s : State) (i : Instr) (w : Work) : Prop :=
  match startWork i s with
  | .unit => w = .unit
  | .encode symbols workers chunks₀ _ =>
    ∃ chunks stage, w = .encode symbols workers chunks stage ∧
      chunks.map (fun c => (c.start, c.len)) = chunks₀.map (fun c => (c.start, c.len)) ∧
      (∀ c ∈ chunks, c.progress ≤ c.len) ∧ stage.length = symbols.length ∧
      (∀ c ∈ chunks, ∀ j < c.progress,
        stage[c.start + j]? = some (some (s.stageTone symbols (c.start + j))))
  | .decode slots _ =>
    ∃ stage, w = .decode slots stage ∧ stage.length = slots ∧
      ∀ k r, stage[k]? = some (some r) → r = s.decodeSlot s.flightMode k

/-- The invariant: buffers within their capacities (R32), the flags as R28 says, `RES` a symbol (R26: 0 to 255), and a
command in flight coherent. -/
structure State.Inv (s : State) : Prop where
  memory : s.mem.wf s.block = true
  flags : s.FlagsOk
  res : s.res.toNat ≤ 255
  flight : ∀ f, s.inFlight = some f → f.work.Coherent s f.cmd

/-- What a state comes to once a command in flight has finished: its one-step meaning. -/
def State.settled (s : State) : Result :=
  match s.inFlight with
  | none => .next s
  | some f => exec f.cmd s

/-- The events of a list taken in order, stopping where one does not answer a next state. -/
def runEvents : List Event → State → Result
  | [], s => .next s
  | e :: rest, s =>
    match runEvent s e with
    | .next t => runEvents rest t
    | .fault r => .fault r
    | .refused r => .refused r

/-- `n` steps, stopping where one does not answer a next state. -/
def runSteps : Nat → State → Result
  | 0, s => .next s
  | n + 1, s =>
    match step s with
    | .next t => runSteps n t
    | .fault r => .fault r
    | .refused r => .refused r

/-- A safe run of `n` steps answers a next state, and that state meets the invariant. -/
def SafeFor (n : Nat) (s : State) : Prop := ∃ t, runSteps n s = .next t ∧ t.Inv

/-- The events that move a command in flight on: a worker's turn and the controller's (R149, R189). -/
def Event.inner (e : Event) : Prop := e = .finish ∨ ∃ n, e = .worker n

/-- `Discriminates(P, NUM)` (R173): every symbol of the alphabet has a qualifying bin, and the tone of each symbol has at
the bin of that symbol a magnitude strictly greater than at the bin of every other symbol. -/
def Discriminates (num : Numerics) (m : Mode) (f0 f1 r : Param) (n : Nat) : Prop :=
  (∀ v ∈ alphabet m, (candidateBin m f0 f1 r n v).isSome = true) ∧
    ∀ v ∈ alphabet m, ∀ v' ∈ alphabet m, v ≠ v' → ∀ j j',
      candidateBin m f0 f1 r n v = some j → candidateBin m f0 f1 r n v' = some j' →
        magLe num (symbolTone num m f0 f1 r n v) j j' = false

end Sys2Proof.Machine
end

