-- ==== Sys2Proof/Certificates/Slice0/Obligations.lean ====
section
/-!
DEFINITION. The statements for the provers, one `Prop` each. A docstring names the rules a statement formalises; a clause that
rests on a choice of the model says so and names its log entry.

An expected outcome is written `.next` of the state before with the finish step applied: `finishOk` (what it does is stated
in `Obligations.SuccessfulCommandsFinishClean`) or `finishError` (`Obligations.FailedCommandsChangeOnlyTheStatus`).
-/

section

open Sys2Proof Sys2Proof.Machine

/-! ### Command words -/

/-- Every command is read back from its own word, and its word is a legal one (R93, R95). -/
def Obligations.EncodedCommandsDecodeBack : Prop :=
  ∀ i : Instr, i.wf = true → decode (encode i) = .ok i ∧ CommandWord.wf (encode i) = true

/-- R95: of all 32-bit words the decoder reads a command from exactly its `match` value, under the mask 0xFFFFFFFF. -/
def Obligations.DecoderAcceptsExactlyTheTable : Prop :=
  ∀ w : Word,
    (decode w = .ok .freqof ↔ w &&& 0xFFFFFFFF#32 = 0x00000001#32) ∧
    (decode w = .ok .gentone ↔ w &&& 0xFFFFFFFF#32 = 0x00000002#32) ∧
    (decode w = .ok .modulate ↔ w &&& 0xFFFFFFFF#32 = 0x00000003#32) ∧
    (decode w = .ok .decslot ↔ w &&& 0xFFFFFFFF#32 = 0x00000004#32) ∧
    (decode w = .ok .demodulate ↔ w &&& 0xFFFFFFFF#32 = 0x00000005#32) ∧
    (decode w = .ok .expand ↔ w &&& 0xFFFFFFFF#32 = 0x00000006#32) ∧
    (decode w = .ok .pack ↔ w &&& 0xFFFFFFFF#32 = 0x00000007#32)

/-- Words written out bit by bit from the format of R93 and the codes of R95. -/
def Obligations.WrittenOutWordsDecode : Prop :=
  decode 0b00000000000000000000000000000001#32 = .ok .freqof ∧
  decode 0b00000000000000000000000000000010#32 = .ok .gentone ∧
  decode 0b00000000000000000000000000000011#32 = .ok .modulate ∧
  decode 0b00000000000000000000000000000100#32 = .ok .decslot ∧
  decode 0b00000000000000000000000000000101#32 = .ok .demodulate ∧
  decode 0b00000000000000000000000000000110#32 = .ok .expand ∧
  decode 0b00000000000000000000000000000111#32 = .ok .pack ∧
  decodeTableWord 32 5 = some .demodulate

/-! ### Steps and the host -/

/-- A step runs the decoded command: when the next transaction of an idle block writes the word of a command to `CMD`, the
step is `exec` of that command on the state with that transaction taken off the script; and `withFetchWord` places a word so
that the very next step runs it. (That one step takes the command from acceptance to finish is allowed by R94; the script and
`withFetchWord` are the model's own, log entry 2.) -/
def Obligations.StepRunsTheDecodedCommand : Prop :=
  (∀ (s : State) (w : Word) (i : Instr) (rest : List Line), s.inFlight = none →
    s.script = .event (.host (.wrWord .cmd w)) :: rest → decode w = .ok i → step s = exec i { s with script := rest }) ∧
  (∀ (s : State) (w : Nat) (i : Instr), decode (BitVec.ofNat 32 (w % 2 ^ 32)) = .ok i →
    step (s.withFetchWord 32 w) = exec i { s with inFlight := none })

/-- R99, R217: a write of any word to `CMD`. On an idle block a legal word clears `DONE` and `ERR`, sets `BUSY` and makes the
`InFlight` record; any other word (`OPC` 0x00 or 0x08 to 0xFF, or a bit of 31:8 set) finishes at once with `IllegalCommand`,
and so it does where the command is taken in one step. On a busy block the write changes nothing. -/
def Obligations.CommandAcceptance : Prop :=
  ∀ (s : State) (w : Word),
    (s.busy = true → runEvent s (.accept w) = .next s ∧ runEvent s (.host (.wrWord .cmd w)) = .next s) ∧
    (s.busy = false → w.extractLsb' 8 24 = 0#24 → 1 ≤ (w.extractLsb' 0 8).toNat → (w.extractLsb' 0 8).toNat ≤ 7 →
      ∃ i, opcOf i = w.extractLsb' 0 8 ∧
        ∃ t, runEvent s (.accept w) = .next t ∧ t.busy = true ∧
          t = { s with done := false, err := false, inFlight := some ⟨i, startWork i s⟩ }) ∧
    (s.busy = false →
      (w.extractLsb' 8 24 ≠ 0#24 ∨ (w.extractLsb' 0 8).toNat = 0 ∨ 8 ≤ (w.extractLsb' 0 8).toNat) →
      runEvent s (.accept w) = .next (s.finishError .illegalCommand w 0) ∧
      runEvent s (.host (.wrWord .cmd w)) = .next (s.finishError .illegalCommand w 0))

/-- Every step of every state answers a next state: the block is never stuck, and no command stops the machine (R255; the
statement covers states no run reaches as well). -/
def Obligations.EveryStepAnswersANextState : Prop :=
  (∀ s : State, ∃ t, step s = .next t) ∧ ∀ (i : Instr) (s : State), ∃ t, exec i s = .next t

/-- R39: on a busy block every register write, `CMD` write and load changes nothing, and every register but `STATUS`, and
`OB` and `OS`, reads as it did when the command was accepted, whatever turns its workers have taken. -/
def Obligations.BusyBlockIgnoresWritesAndShowsOldValues : Prop :=
  (∀ (s : State) (t : Txn), s.busy = true → t.ignoredWhenBusy = true → runEvent s (.host t) = .next s) ∧
  (∀ (s : State) (r : WordReg) (v : Word), s.busy = true → runEvent s (.host (.wrWord r v)) = .next s) ∧
  (∀ (s : State) (r : ParamReg) (v : Param), s.busy = true → runEvent s (.host (.wrParam r v)) = .next s) ∧
  (∀ (s : State) (b : List Byte), s.busy = true → runEvent s (.host (.loadB b)) = .next s) ∧
  (∀ (s : State) (p : Param) (x : List Sample), s.busy = true → runEvent s (.host (.loadS p x)) = .next s) ∧
  (∀ (s : State) (r : Reg), s.busy = true →
    runEvent s (.host (.rd r)) = .next { s with replies := s.replies ++ [.reg (s.readReg r)] }) ∧
  (∀ (s t : State) (i : Instr) (turns : List Nat) (r : Reg), s.busy = false →
    runEvents (.accept (encode i) :: turns.map .worker) s = .next t →
      (r ≠ .word .status → t.readReg r = s.readReg r) ∧ t.mem = s.mem ∧ t.busy = true)

/-- R38: reset is taken on any state, busy or idle; after it every register reads its reset value, the buffers are empty and
no command is in flight, and so it is in the machine's own reset state. Of the block only its fixed parameters stay. -/
def Obligations.ResetGivesTheResetValues : Prop :=
  (∀ s : State, ∃ t, runEvent s (.host .reset) = .next t ∧ t.block = s.block) ∧
  ∀ t : State, (t = State.reset ∨ ∃ s, runEvent s (.host .reset) = .next t) →
    t.mem = ⟨[], [], [], []⟩ ∧ t.inFlight = none ∧
    (∀ r : WordReg, t.readWord r = if r = .workers then 1 else 0) ∧
    (∀ r : ParamReg, (t.readParam r).val = 0)

/-- The numbers of the 23 registers (R20) and of the reserved ones (R34): each number names one register, and back. -/
def Obligations.RegisterNumbersAreOneToOne : Prop :=
  (∀ n, (Reg.ofNumber n).number = n) ∧ (∀ r : Reg, Reg.ofNumber r.number = r) ∧
  ([(.word .mode), (.param .freq0), (.param .freq1), (.param .symdur), (.param .srate), (.word .workers),
    (.word .slotlen), (.word .hostif), (.word .cmd), (.word .arg), (.param .farg), (.word .status)].map
      Reg.number = List.range 12) ∧
  ([(.word .errcode), (.word .errinfo), (.word .erridx), (.word .res), (.param .fres), (.word .iblen), (.word .islen),
    (.word .oblen), (.word .oslen), (.param .israte), (.param .osrate), (.reserved 0)].map
      Reg.number = List.range' 12 12)

/-- The host's register writes on an idle block (R20, R22, R23, R25, R26, R30, R92): a writable register takes the value and
nothing else changes; `HOSTIF` keeps bits 0 and 1; a read-only register ignores the write. -/
def Obligations.IdleBlockTakesRegisterWrites : Prop :=
  ∀ (s : State) (v : Word) (p : Param), s.busy = false →
    runEvent s (.host (.wrWord .mode v)) = .next { s with mode := v } ∧
    runEvent s (.host (.wrWord .workers v)) = .next { s with workers := v } ∧
    runEvent s (.host (.wrWord .arg v)) = .next { s with arg := v } ∧
    runEvent s (.host (.wrWord .hostif v)) = .next { s with srcFail := v.getLsbD 0, sinkFail := v.getLsbD 1 } ∧
    (∀ r : WordReg, r ≠ .mode → r ≠ .workers → r ≠ .arg → r ≠ .hostif → r ≠ .cmd →
      runEvent s (.host (.wrWord r v)) = .next s) ∧
    runEvent s (.host (.wrParam .freq0 p)) = .next { s with freq0 := p } ∧
    runEvent s (.host (.wrParam .freq1 p)) = .next { s with freq1 := p } ∧
    runEvent s (.host (.wrParam .symdur p)) = .next { s with symdur := p } ∧
    runEvent s (.host (.wrParam .srate p)) = .next { s with srate := p } ∧
    runEvent s (.host (.wrParam .farg p)) = .next { s with farg := p } ∧
    (∀ r : ParamReg, r = .fres ∨ r = .israte ∨ r = .osrate → runEvent s (.host (.wrParam r p)) = .next s)

/-- R34: numbers 23 and above. A read returns 0, a write changes nothing. -/
def Obligations.ReservedRegistersReadZero : Prop :=
  ∀ (s : State) (n : Nat) (v : Word),
    Reg.ofNumber (23 + n) = .reserved n ∧
    runEvent s (.host (.rd (.reserved n))) = .next { s with replies := s.replies ++ [.reg (.word 0)] } ∧
    runEvent s (.host (.wrReserved n v)) = .next s

/-- The registers that hold no word of their own, as a host reads them (R28, R29, R30, R32): the bits of `STATUS` and
`HOSTIF`, reserved bits 0; `CMD` 0; and, in a state that meets the invariant, the lengths of the four buffers, each within
its capacity. -/
def Obligations.DerivedRegistersReadAsTheSpecSays : Prop :=
  ∀ s : State,
    (s.readWord .status).getLsbD 0 = s.inFlight.isSome ∧ (s.readWord .status).getLsbD 1 = s.done ∧
    (s.readWord .status).getLsbD 2 = s.err ∧ (∀ i, 3 ≤ i → (s.readWord .status).getLsbD i = false) ∧
    (s.readWord .hostif).getLsbD 0 = s.srcFail ∧ (s.readWord .hostif).getLsbD 1 = s.sinkFail ∧
    (∀ i, 2 ≤ i → (s.readWord .hostif).getLsbD i = false) ∧ s.readWord .cmd = 0 ∧
    (s.Inv →
      (s.readWord .iblen).toNat = s.mem.ib.length ∧ s.mem.ib.length ≤ s.block.capIB.val ∧
      (s.readWord .islen).toNat = s.mem.is.length ∧ s.mem.is.length ≤ s.block.capIS.val ∧
      (s.readWord .oblen).toNat = s.mem.ob.length ∧ s.mem.ob.length ≤ s.block.capOB.val ∧
      (s.readWord .oslen).toNat = s.mem.os.length ∧ s.mem.os.length ≤ s.block.capOS.val)

/-- R24 with the `round` of R19: the slot length is the natural number nearest to the exact product `SRATE · SYMDUR`, a tie
going as `ROUND_TIE` says; and a read of `SLOTLEN` saturates at `2^32 − 1`. -/
def Obligations.SlotLengthIsTheRoundedProduct : Prop :=
  ∀ (s : State) (n : Nat) (t : ℚ), s.srate.val * s.symdur.val = n + t → 0 ≤ t → t < 1 →
    (t < 1 / 2 → s.slotLen = n) ∧
    (1 / 2 < t → s.slotLen = n + 1) ∧
    (t = 1 / 2 → s.block.roundTie = .halfAwayFromZero → s.slotLen = n + 1) ∧
    (t = 1 / 2 → s.block.roundTie = .halfEven → s.slotLen % 2 = 0 ∧ (s.slotLen = n ∨ s.slotLen = n + 1)) ∧
    (s.readWord .slotlen).toNat = min s.slotLen (2 ^ 32 - 1)

/-- R63: a load within the capacity replaces the whole buffer (and the rate tag of `IS`), a longer one changes nothing, and a
load made while the block is busy is ignored. -/
def Obligations.LoadsReplaceTheWholeBuffer : Prop :=
  ∀ (s : State) (b : List Byte) (rate : Param) (x : List Sample),
    (s.busy = false → b.length ≤ s.block.capIB.val →
      runEvent s (.host (.loadB b)) = .next { s with mem := ⟨b, s.mem.is, s.mem.ob, s.mem.os⟩ }) ∧
    (s.busy = false → x.length ≤ s.block.capIS.val →
      runEvent s (.host (.loadS rate x)) =
        .next { s with mem := ⟨s.mem.ib, x, s.mem.ob, s.mem.os⟩, israte := rate }) ∧
    (s.block.capIB.val < b.length ∨ s.busy = true → runEvent s (.host (.loadB b)) = .next s) ∧
    (s.block.capIS.val < x.length ∨ s.busy = true → runEvent s (.host (.loadS rate x)) = .next s)

/-- The host's read-outs at any time (R64): the whole of `OB`, the pair of `OSRATE` and `OS`, one element. A read changes
nothing of the block. An element at or beyond the length register reads as some value, any value: the statement says no more
of it (the counter `fresh` and the list of replies are the model's own, log entries 2 and 4). -/
def Obligations.ReadOutsReturnTheOutputBuffers : Prop :=
  ∀ (s : State) (i : Nat),
    runEvent s (.host .readB) = .next { s with replies := s.replies ++ [.bytes s.mem.ob] } ∧
    runEvent s (.host .readS) = .next { s with replies := s.replies ++ [.samples s.osrate s.mem.os] } ∧
    (∃ v n, runEvent s (.host (.readByteAt i)) = .next { s with replies := s.replies ++ [.byte v], fresh := n } ∧
      ∀ h : i < s.mem.ob.length, v = s.mem.ob[i]) ∧
    (∃ x n, runEvent s (.host (.readSampleAt i)) = .next { s with replies := s.replies ++ [.sample x], fresh := n } ∧
      ∀ h : i < s.mem.os.length, x = s.mem.os[i])

/-- The host can read neither `IB` nor `IS` (R64): two states that differ only in the contents of the input buffers, of equal
lengths, give it the same reply to every read. -/
def Obligations.HostCannotSeeInputBuffers : Prop :=
  ∀ (s t t' : State) (b : List Byte) (x : List Sample) (q : Txn),
    b.length = s.mem.ib.length → x.length = s.mem.is.length → q.ignoredWhenBusy = false →
    runEvent s (.host q) = .next t →
    runEvent { s with mem := ⟨b, x, s.mem.ob, s.mem.os⟩ } (.host q) = .next t' → t'.replies = t.replies

/-! ### Frequency map and tone generator -/

/-- R123: all of `FREQOF`, the errors in their order, and its code. For every symbol of the mode it completes with the
symbol's frequency, and only `FRES` and the status registers change. -/
def Obligations.FreqofFollowsItsRule : Prop :=
  decode 0x00000001#32 = .ok .freqof ∧ ∀ s : State,
    (s.mode ≠ 0 → s.mode ≠ 1 → exec .freqof s = .next (s.finishError .invalidMode s.mode 0)) ∧
    (s.mode = 0 → 1 < s.arg.toNat → exec .freqof s = .next (s.finishError .invalidSymbol s.arg 0)) ∧
    (s.mode = 1 → 255 < s.arg.toNat → exec .freqof s = .next (s.finishError .invalidSymbol s.arg 0)) ∧
    (s.mode = 0 → s.arg = 0 → exec .freqof s = .next { s with fres := s.freq0 }.finishOk) ∧
    (s.mode = 0 → s.arg = 1 → exec .freqof s = .next { s with fres := s.freq1 }.finishOk) ∧
    (s.mode = 1 → s.arg.toNat ≤ 255 → ∃ p : Param,
      p.val = s.freq0.val + s.arg.toNat * (s.freq1.val - s.freq0.val) / 255 ∧
      exec .freqof s = .next { s with fres := p }.finishOk)

/-- R121: the Byte-mode map is linear from `f0` at symbol 0 to `f1` at symbol 255, adjacent symbols differ by `(f1 − f0) /
255`, and every frequency lies between `f0` and `f1`. -/
def Obligations.ByteMapIsLinearBetweenItsBounds : Prop :=
  ∀ (f0 f1 : Param) (v : Symbol),
    (freqOf v .byte f0 f1).val = f0.val + v.toNat * (f1.val - f0.val) / 255 ∧
    freqOf 0 .byte f0 f1 = f0 ∧ freqOf 255 .byte f0 f1 = f1 ∧
    (∀ u : Symbol, u.toNat = v.toNat + 1 →
      (freqOf u .byte f0 f1).val - (freqOf v .byte f0 f1).val = (f1.val - f0.val) / 255) ∧
    min f0.val f1.val ≤ (freqOf v .byte f0 f1).val ∧ (freqOf v .byte f0 f1).val ≤ max f0.val f1.val

/-- R125: two symbols of the alphabet share a frequency iff the two bounds are equal, and then all of them do. -/
def Obligations.SymbolsShareAFrequencyIffBoundsEqual : Prop :=
  ∀ (m : Mode) (f0 f1 : Param),
    ((∃ u ∈ alphabet m, ∃ v ∈ alphabet m, u ≠ v ∧ freqOf u m f0 f1 = freqOf v m f0 f1) ↔ f0 = f1) ∧
    (f0 = f1 → ∀ v ∈ alphabet m, freqOf v m f0 f1 = f0)

/-- R134: all of `GENTONE`, the errors in their order, and its code. On success `OS` is the tone, `N` samples long, and
`OSRATE` the sample rate; nothing else changes but the status registers. -/
def Obligations.GentoneFollowsItsRule : Prop :=
  decode 0x00000002#32 = .ok .gentone ∧ ∀ s : State,
    (s.slotLen < s.block.minSlotLen →
      exec .gentone s = .next (s.finishError .durationTooShort (sat32 s.slotLen) 0)) ∧
    (s.block.minSlotLen ≤ s.slotLen → (s.sinkFail = true ∨ s.block.capOS.val < s.slotLen) →
      exec .gentone s = .next (s.finishError .sinkUnavailable (sat32 s.slotLen) 0)) ∧
    (s.block.minSlotLen ≤ s.slotLen → s.sinkFail = false → s.slotLen ≤ s.block.capOS.val →
      exec .gentone s = .next { s with
        mem := ⟨s.mem.ib, s.mem.is, s.mem.ob, tone s.block.numerics s.farg s.srate s.slotLen⟩
        osrate := s.srate }.finishOk)

/-- R131 and the length of R130: under `NUM_REF` a tone of `N` samples has at index `i` the exact real sine `sin(2π · f · i /
r)`. -/
def Obligations.ReferenceToneIsTheRealSine : Prop :=
  ∀ (f r : Param) (n : Nat), (tone .reference f r n).length = n ∧
    ∀ (i : Nat) (h : i < (tone .reference f r n).length), 0 < r.val →
      (tone .reference f r n)[i].val = Real.sin (2 * Real.pi * f.val * i / r.val)

/-- R135 (a) to (f), for `NUM_REF`, with `r > 0`. -/
def Obligations.ReferenceToneConsequences : Prop :=
  ∀ (f r : Param) (n i : Nat), 0 < r.val → i < n →
    ((tone .reference f r n).getD 0 default).val = 0 ∧
    |((tone .reference f r n).getD i default).val| ≤ 1 ∧
    (f.val = 0 → ((tone .reference f r n).getD i default).val = 0) ∧
    (∀ m : ℤ, 2 * f.val / r.val = m → ((tone .reference f r n).getD i default).val = 0) ∧
    (∀ f' : Param, f'.val = f.val + r.val → tone .reference f' r n = tone .reference f r n) ∧
    (∀ f' : Param, f'.val = r.val - f.val →
      ((tone .reference f' r n).getD i default).val = -((tone .reference f r n).getD i default).val) ∧
    (∀ m : ℤ, f.val = m * r.val / n →
      ((tone .reference f r n).getD i default).val = Real.sin (2 * Real.pi * m * (i / n)))

/-! ### Packing -/

/-- R201: all of `EXPAND`, the errors in their order, and its code. On success `OB` holds the symbols and nothing else
changes but the status registers. -/
def Obligations.ExpandFollowsItsRule : Prop :=
  decode 0x00000006#32 = .ok .expand ∧ ∀ s : State,
    (s.srcFail = true → exec .expand s = .next (s.finishError .sourceUnavailable 0 0)) ∧
    (s.srcFail = false → s.mode ≠ 0 → s.mode ≠ 1 → exec .expand s = .next (s.finishError .invalidMode s.mode 0)) ∧
    (s.srcFail = false → ∀ m, modeOf s.mode = some m → (s.sinkFail = true ∨
        s.block.capOB.val < (expand s.mem.ib m).length) →
      exec .expand s = .next (s.finishError .sinkUnavailable (sat32 (expand s.mem.ib m).length) 0)) ∧
    (s.srcFail = false → s.sinkFail = false → s.mode = 0 → 8 * s.mem.ib.length ≤ s.block.capOB.val →
      ∃ out : List Byte, out.length = 8 * s.mem.ib.length ∧
        (∀ n j (h : n < s.mem.ib.length), j < 8 →
          (out.getD (8 * n + j) 0).toNat = s.mem.ib[n].toNat / 2 ^ (7 - j) % 2) ∧
        exec .expand s = .next { s with mem := ⟨s.mem.ib, s.mem.is, out, s.mem.os⟩ }.finishOk) ∧
    (s.srcFail = false → s.sinkFail = false → s.mode = 1 → s.mem.ib.length ≤ s.block.capOB.val →
      exec .expand s = .next { s with mem := ⟨s.mem.ib, s.mem.is, s.mem.ib, s.mem.os⟩ }.finishOk)

/-- R202: all of `PACK`, the errors in their order, and its code. On success `OB` holds the bytes and nothing else changes
but the status registers. The dropped tail is checked too. -/
def Obligations.PackFollowsItsRule : Prop :=
  decode 0x00000007#32 = .ok .pack ∧ ∀ s : State,
    (s.srcFail = true → exec .pack s = .next (s.finishError .sourceUnavailable 0 0)) ∧
    (s.srcFail = false → s.mode ≠ 0 → s.mode ≠ 1 → exec .pack s = .next (s.finishError .invalidMode s.mode 0)) ∧
    (s.srcFail = false → s.mode = 0 → ∀ (i : Nat) (h : i < s.mem.ib.length), 1 < s.mem.ib[i].toNat →
      (∀ k (hk : k < i), s.mem.ib[k].toNat ≤ 1) →
      exec .pack s = .next (s.finishError .invalidSymbol (s.mem.ib[i].setWidth 32) (sat32 i))) ∧
    (s.srcFail = false → s.mode = 0 → (∀ v ∈ s.mem.ib, v.toNat ≤ 1) →
      (s.sinkFail = true ∨ s.block.capOB.val < s.mem.ib.length / 8) →
      exec .pack s = .next (s.finishError .sinkUnavailable (sat32 (s.mem.ib.length / 8)) 0)) ∧
    (s.srcFail = false → s.mode = 1 → (s.sinkFail = true ∨ s.block.capOB.val < s.mem.ib.length) →
      exec .pack s = .next (s.finishError .sinkUnavailable (sat32 s.mem.ib.length) 0)) ∧
    (s.srcFail = false → s.sinkFail = false → s.mode = 0 → (∀ v ∈ s.mem.ib, v.toNat ≤ 1) →
      s.mem.ib.length / 8 ≤ s.block.capOB.val →
      ∃ out : List Byte, out.length = s.mem.ib.length / 8 ∧
        (∀ n, n < out.length → (out.getD n 0).toNat =
          ∑ j ∈ Finset.range 8, (s.mem.ib.getD (8 * n + j) 0).toNat * 2 ^ (7 - j)) ∧
        exec .pack s = .next { s with mem := ⟨s.mem.ib, s.mem.is, out, s.mem.os⟩ }.finishOk) ∧
    (s.srcFail = false → s.sinkFail = false → s.mode = 1 → s.mem.ib.length ≤ s.block.capOB.val →
      exec .pack s = .next { s with mem := ⟨s.mem.ib, s.mem.is, s.mem.ib, s.mem.os⟩ }.finishOk)

/-- R200: packing undoes expansion on every byte sequence, and expansion undoes packing up to the incomplete last group. -/
def Obligations.PackingLaws : Prop :=
  (∀ (b : List Byte) (m : Mode), pack (expand b m) m = b) ∧
  (∀ y : List Symbol, (∀ v ∈ y, v = 0 ∨ v = 1) →
    expand (pack y .bit) .bit = y.take (8 * (y.length / 8)) ∧
    (expand (pack y .bit) .bit = y ↔ y.length % 8 = 0)) ∧
  (∀ b : List Byte, (expand b .bit).length = 8 * b.length) ∧
  (∀ m : Mode, expand [] m = [] ∧ pack [] m = [])

/-! ### Modulator -/

/-- R150: all of `MODULATE`, the errors in their order, and its code. On success `OS` is one tone per symbol of the expanded
input, in order, whatever the worker count, and `OSRATE` the sample rate; nothing else changes but the status registers. -/
def Obligations.ModulateFollowsItsRule : Prop :=
  decode 0x00000003#32 = .ok .modulate ∧ ∀ s : State,
    (s.srcFail = true → exec .modulate s = .next (s.finishError .sourceUnavailable 0 0)) ∧
    (s.srcFail = false → s.mode ≠ 0 → s.mode ≠ 1 → exec .modulate s = .next (s.finishError .invalidMode s.mode 0)) ∧
    (s.srcFail = false → ∀ m, modeOf s.mode = some m → s.workers = 0 →
      exec .modulate s = .next (s.finishError .badWorkerCount 0 0)) ∧
    (s.srcFail = false → ∀ m, modeOf s.mode = some m → s.workers ≠ 0 → s.slotLen < s.block.minSlotLen →
      exec .modulate s = .next (s.finishError .durationTooShort (sat32 s.slotLen) 0)) ∧
    (s.srcFail = false → ∀ m, modeOf s.mode = some m → s.workers ≠ 0 → s.block.minSlotLen ≤ s.slotLen →
      (s.sinkFail = true ∨ s.block.capOS.val < (expand s.mem.ib m).length * s.slotLen) →
      exec .modulate s =
        .next (s.finishError .sinkUnavailable (sat32 ((expand s.mem.ib m).length * s.slotLen)) 0)) ∧
    (s.srcFail = false → ∀ m, modeOf s.mode = some m → s.workers ≠ 0 → s.block.minSlotLen ≤ s.slotLen →
      s.sinkFail = false → (expand s.mem.ib m).length * s.slotLen ≤ s.block.capOS.val →
      exec .modulate s = .next { s with
        mem := ⟨s.mem.ib, s.mem.is, s.mem.ob, (expand s.mem.ib m).flatMap fun v =>
          tone s.block.numerics (freqOf v m s.freq0 s.freq1) s.srate s.slotLen⟩
        osrate := s.srate }.finishOk)

/-- R143: the chunk table for `W ≥ 1` workers. Chunk `c` starts at `c · (L div W)`, every chunk but the last has `L div W`
symbols, the last one the rest, and the chunks in order cover the symbols `0` to `L − 1`, each once. -/
def Obligations.ChunksCoverTheSymbolsInOrder : Prop :=
  ∀ l w : Nat, 1 ≤ w →
    (chunkTable l w).length = w ∧
    (∀ (c : Nat) (h : c < (chunkTable l w).length), (chunkTable l w)[c].start = c * (l / w) ∧
      (c + 1 < w → (chunkTable l w)[c].len = l / w) ∧
      (c + 1 = w → (chunkTable l w)[c].len = l / w + l % w)) ∧
    ((chunkTable l w).flatMap fun c => List.range' c.start c.len) = List.range l

/-- R145: the waveform of a successful `MODULATE` has `L · N` samples, and its slot `k` is the tone of symbol `k`. -/
def Obligations.EverySlotOfTheWaveformIsItsTone : Prop :=
  ∀ (s t : State) (m : Mode), modeOf s.mode = some m → exec .modulate s = .next t → t.err = false →
    t.mem.os.length = (expand s.mem.ib m).length * s.slotLen ∧
    ∀ (k : Nat) (h : k < (expand s.mem.ib m).length),
      (t.mem.os.drop (k * s.slotLen)).take s.slotLen =
        tone s.block.numerics (freqOf (expand s.mem.ib m)[k] m s.freq0 s.freq1) s.srate s.slotLen

/-- R146: the outcome of a `MODULATE` is the same for every non-zero `WORKERS`, every number of worker units and every
schedule of worker turns: two runs of it, from states that differ in these alone, end with the same output and status. -/
def Obligations.WorkerCountAndScheduleShowInNoOutput : Prop :=
  ∀ (s t t' : State) (w : Word) (n : Nat) (es es' : List Event),
    s.busy = false → s.workers ≠ 0 → w ≠ 0 → (∀ e ∈ es, e.inner) → (∀ e ∈ es', e.inner) →
    runEvents (.accept (encode .modulate) :: es) s = .next t → t.busy = false →
    runEvents (.accept (encode .modulate) :: es')
      { s with workers := w, block := { s.block with nWorkersPred := n } } = .next t' → t'.busy = false →
    t' = { t with workers := w, block := { s.block with nWorkersPred := n } }

/-! ### Spectral decoder -/

/-- The magnitudes (R160): under `NUM_REF` the magnitude of bin `j` of a block is `sqrt(Re² + Im²)` of its discrete Fourier
transform, a non-negative real, periodic in `j` with the block's length; and it is by these magnitudes that bins are
compared. -/
def Obligations.ReferenceMagnitudeIsThatOfTheTransform : Prop :=
  ∀ (x : List Sample) (j j' : ℤ),
    refMag x j ^ 2 =
      (∑ n ∈ Finset.range x.length, (x.getD n default).val * Real.cos (2 * Real.pi * j * n / x.length)) ^ 2 +
      (∑ n ∈ Finset.range x.length, (x.getD n default).val * -Real.sin (2 * Real.pi * j * n / x.length)) ^ 2 ∧
    0 ≤ refMag x j ∧ refMag x (j + x.length) = refMag x j ∧
    (magLe .reference x j j' = true ↔ refMag x j ≤ refMag x j')

/-- R162, R163 on the axis of R161: the bin of a candidate is the smallest of the centred bins whose frequency is within 10
Hz, ends included; there is none iff no bin is; at most `floor(20 · N / r) + 1` bins qualify. -/
def Obligations.CandidateBinIsTheLowestQualifying : Prop :=
  ∀ (fc r : Param) (n : Nat), 1 ≤ n →
    (∀ j : ℤ, binOf fc r n = some j ↔
      (-(n / 2 : ℕ) ≤ j ∧ j ≤ ((n + 1) / 2 : ℕ) - 1 ∧ |j * r.val / n - fc.val| ≤ 10 ∧
        ∀ k : ℤ, -(n / 2 : ℕ) ≤ k → k < j → 10 < |k * r.val / n - fc.val|)) ∧
    (binOf fc r n = none ↔
      ∀ j : ℤ, -(n / 2 : ℕ) ≤ j → j ≤ ((n + 1) / 2 : ℕ) - 1 → 10 < |j * r.val / n - fc.val|) ∧
    (0 < r.val → ((binRange n).countP (qualifies fc r n) : ℤ) ≤ ⌊20 * (n : ℚ) / r.val⌋ + 1) ∧
    (20 < r.val / n → (binRange n).countP (qualifies fc r n) ≤ 1)

/-- The failure of a decode (R164): it fails at the smallest symbol of the alphabet without a qualifying bin, and only so:
whether it does depends on the parameters and the block's length, not on the samples. A candidate more than 10 Hz above half
the rate has none. -/
def Obligations.DecodeFailsOnlyForWantOfABin : Prop :=
  ∀ (num : Numerics) (m : Mode) (f0 f1 r : Param) (x : List Sample) (v : Symbol),
    (decodeBlock num m f0 f1 r x = .noBin v ↔
      v ∈ alphabet m ∧ candidateBin m f0 f1 r x.length v = none ∧
        ∀ u ∈ alphabet m, u.toNat < v.toNat → (candidateBin m f0 f1 r x.length u).isSome) ∧
    (r.val / 2 + 10 < (freqOf v m f0 f1).val → candidateBin m f0 f1 r x.length v = none)

/-- R165, with the tie rule of R166: where every candidate has a bin, the decoded symbol is the largest symbol value among
those whose bin has the greatest magnitude, in the order of the block's numerics. -/
def Obligations.DecodedSymbolIsTheLastOfGreatestMagnitude : Prop :=
  ∀ (num : Numerics) (m : Mode) (f0 f1 r : Param) (x : List Sample),
    (∀ v ∈ alphabet m, (candidateBin m f0 f1 r x.length v).isSome) →
    ∃ v ∈ alphabet m, ∃ j, decodeBlock num m f0 f1 r x = .symbol v ∧ candidateBin m f0 f1 r x.length v = some j ∧
      ∀ u ∈ alphabet m, ∀ k, candidateBin m f0 f1 r x.length u = some k →
        magLe num x k j = true ∧ (v.toNat < u.toNat → magLe num x j k = false)

/-- R167 (a), (b), (c), (d), for `NUM_REF`, where every candidate has a bin. -/
def Obligations.DecoderConsequences : Prop :=
  ∀ (m : Mode) (f0 f1 r : Param) (x : List Sample),
    (∀ v ∈ alphabet m, (candidateBin m f0 f1 r x.length v).isSome) →
    ((∀ e ∈ x, e.val = 0) →
      decodeBlock .reference m f0 f1 r x = .symbol (match m with | .bit => 1 | .byte => 255)) ∧
    (f0 = f1 → decodeBlock .reference m f0 f1 r x = .symbol (match m with | .bit => 1 | .byte => 255)) ∧
    (∀ (c : ℝ) (y : List Sample), c ≠ 0 → y.map Sample.val = x.map (fun e => c * e.val) →
      decodeBlock .reference m f0 f1 r y = decodeBlock .reference m f0 f1 r x) ∧
    (∃ v, decodeBlock .reference m f0 f1 r x = .symbol v) ∧
    (∀ u ∈ alphabet m, ∀ v ∈ alphabet m, u.toNat < v.toNat →
      candidateBin m f0 f1 r x.length u = candidateBin m f0 f1 r x.length v →
      decodeBlock .reference m f0 f1 r x ≠ .symbol u)

/-- R170: all of `DECSLOT`, the errors in their order, and its code. On success only `RES` and the status registers change.
-/
def Obligations.DecslotFollowsItsRule : Prop :=
  decode 0x00000004#32 = .ok .decslot ∧ ∀ s : State,
    (s.srcFail = true → exec .decslot s = .next (s.finishError .sourceUnavailable 0 0)) ∧
    (s.srcFail = false → s.mode ≠ 0 → s.mode ≠ 1 → exec .decslot s = .next (s.finishError .invalidMode s.mode 0)) ∧
    (s.srcFail = false → ∀ m, modeOf s.mode = some m → s.slotLen < s.block.minSlotLen →
      exec .decslot s = .next (s.finishError .durationTooShort (sat32 s.slotLen) 0)) ∧
    (s.srcFail = false → ∀ m, modeOf s.mode = some m → s.block.minSlotLen ≤ s.slotLen →
      s.mem.is.length < (s.arg.toNat + 1) * s.slotLen →
      exec .decslot s = .next (s.finishError .incompleteSlot
        (sat32 (min s.slotLen (s.mem.is.length - s.arg.toNat * s.slotLen))) s.arg)) ∧
    (s.srcFail = false → ∀ m v, modeOf s.mode = some m → s.block.minSlotLen ≤ s.slotLen →
      (s.arg.toNat + 1) * s.slotLen ≤ s.mem.is.length →
      decodeBlock s.block.numerics m s.freq0 s.freq1 s.srate
        ((s.mem.is.drop (s.arg.toNat * s.slotLen)).take s.slotLen) = .noBin v →
      exec .decslot s = .next (s.finishError .noQualifyingBin (v.setWidth 32) s.arg)) ∧
    (s.srcFail = false → ∀ m v, modeOf s.mode = some m → s.block.minSlotLen ≤ s.slotLen →
      (s.arg.toNat + 1) * s.slotLen ≤ s.mem.is.length →
      decodeBlock s.block.numerics m s.freq0 s.freq1 s.srate
        ((s.mem.is.drop (s.arg.toNat * s.slotLen)).take s.slotLen) = .symbol v →
      exec .decslot s = .next { s with res := v.setWidth 32 }.finishOk)

/-- `DECSLOT` completes with a symbol on every complete slot for which every candidate has a bin (R167: it always returns a
symbol), and that symbol is one of the mode's alphabet. -/
def Obligations.DecslotCompletesOnEveryCompleteSlot : Prop :=
  ∀ (s : State) (m : Mode), s.srcFail = false → modeOf s.mode = some m → s.block.minSlotLen ≤ s.slotLen →
    (s.arg.toNat + 1) * s.slotLen ≤ s.mem.is.length →
    (∀ v ∈ alphabet m, (candidateBin m s.freq0 s.freq1 s.srate s.slotLen v).isSome) →
    ∃ v ∈ alphabet m, exec .decslot s = .next { s with res := v.setWidth 32 }.finishOk

/-- R172: an on-bin tone under `NUM_REF` has magnitude `N / 2` at its own bin and at the mirrored one, and 0 at every other.
-/
def Obligations.OnBinToneHasOneMagnitude : Prop :=
  ∀ (f r : Param) (n m : Nat) (j : ℤ), 3 ≤ n → 0 < m → 2 * m < n → 0 < r.val → f.val = m * r.val / n →
    -(n / 2 : ℕ) ≤ j → j ≤ ((n + 1) / 2 : ℕ) - 1 →
    refMag (tone .reference f r n) j = if j = m ∨ j = -m then (n : ℝ) / 2 else 0

/-- R173. For every numerics: where `Discriminates` holds, the tone of each symbol decodes to that symbol. Under `NUM_REF`
distinct on-bin frequencies below half the rate and a bin spacing above 10 Hz are enough for `Discriminates`, and then each
candidate's bin is its own. -/
def Obligations.DiscriminatedTonesDecodeToTheirSymbol : Prop :=
  (∀ (num : Numerics) (m : Mode) (f0 f1 r : Param) (n : Nat), Discriminates num m f0 f1 r n →
    ∀ v ∈ alphabet m, decodeBlock num m f0 f1 r (tone num (freqOf v m f0 f1) r n) = .symbol v) ∧
  (∀ (m : Mode) (f0 f1 r : Param) (n : Nat) (bin : Symbol → Nat),
    (∀ v ∈ alphabet m, 0 < bin v ∧ 2 * bin v < n ∧ (freqOf v m f0 f1).val = bin v * r.val / n) →
    (∀ u ∈ alphabet m, ∀ v ∈ alphabet m, u ≠ v → bin u ≠ bin v) → 10 < r.val / n →
    Discriminates .reference m f0 f1 r n ∧
      ∀ v ∈ alphabet m, candidateBin m f0 f1 r n v = some (bin v : ℤ))

/-- First match and long slots (R174): where the bin spacing is at most 10 Hz the bin below an on-bin candidate's own
qualifies too, so a lower bin is used; where no candidate's bin is then the tone's own or its mirror, every on-bin tone
decodes to the last candidate. In the spec's example (1000 Hz, 2000 Hz, `N` = 4410 at 44100 Hz) the bins are 99 and 199 and
both tones decode to 1. -/
def Obligations.FirstMatchDefeatsLongSlots : Prop :=
  (∀ (fc r : Param) (n b : Nat), 1 ≤ n → 0 < b → 2 * b < n → fc.val = b * r.val / n → r.val / n ≤ 10 →
    ∃ j : ℤ, binOf fc r n = some j ∧ j < b) ∧
  (∀ (m : Mode) (f0 f1 f r : Param) (n b : Nat), 3 ≤ n → 0 < b → 2 * b < n → 0 < r.val →
    f.val = b * r.val / n →
    (∀ v ∈ alphabet m, ∃ j : ℤ, candidateBin m f0 f1 r n v = some j ∧ j ≠ b ∧ j ≠ -b) →
    decodeBlock .reference m f0 f1 r (tone .reference f r n) = .symbol (match m with | .bit => 1 | .byte => 255)) ∧
  (∀ f0 f1 r : Param, f0.val = 1000 → f1.val = 2000 → r.val = 44100 →
    binOf f0 r 4410 = some 99 ∧ binOf f1 r 4410 = some 199 ∧
    decodeBlock .reference .bit f0 f1 r (tone .reference f0 r 4410) = .symbol 1 ∧
    decodeBlock .reference .bit f0 f1 r (tone .reference f1 r 4410) = .symbol 1)

/-! ### Demodulator -/

/-- R188: all of `DEMODULATE`, the errors in their order, and its code. On success `OB` is the packed sequence of the symbols
of the complete slots, in slot order; nothing else changes but the status registers. -/
def Obligations.DemodulateFollowsItsRule : Prop :=
  decode 0x00000005#32 = .ok .demodulate ∧ ∀ s : State,
    (s.srcFail = true → exec .demodulate s = .next (s.finishError .sourceUnavailable 0 0)) ∧
    (s.srcFail = false → s.mode ≠ 0 → s.mode ≠ 1 →
      exec .demodulate s = .next (s.finishError .invalidMode s.mode 0)) ∧
    (s.srcFail = false → ∀ m, modeOf s.mode = some m → s.slotLen < s.block.minSlotLen →
      exec .demodulate s = .next (s.finishError .durationTooShort (sat32 s.slotLen) 0)) ∧
    (s.srcFail = false → ∀ m, modeOf s.mode = some m → s.block.minSlotLen ≤ s.slotLen →
      ∀ (k : Nat) (v : Symbol), k < s.mem.is.length / s.slotLen →
      decodeBlock s.block.numerics m s.freq0 s.freq1 s.srate
        ((s.mem.is.drop (k * s.slotLen)).take s.slotLen) = .noBin v →
      exec .demodulate s = .next (s.finishError .noQualifyingBin (v.setWidth 32) 0)) ∧
    (s.srcFail = false → ∀ m, modeOf s.mode = some m → s.block.minSlotLen ≤ s.slotLen →
      ∀ symbols : List Symbol, symbols.length = s.mem.is.length / s.slotLen →
      (∀ (k : Nat) (h : k < symbols.length), decodeBlock s.block.numerics m s.freq0 s.freq1 s.srate
        ((s.mem.is.drop (k * s.slotLen)).take s.slotLen) = .symbol symbols[k]) →
      (s.sinkFail = true ∨ s.block.capOB.val < (pack symbols m).length →
        exec .demodulate s = .next (s.finishError .sinkUnavailable (sat32 (pack symbols m).length) 0)) ∧
      (s.sinkFail = false → (pack symbols m).length ≤ s.block.capOB.val →
        exec .demodulate s =
          .next { s with mem := ⟨s.mem.ib, s.mem.is, pack symbols m, s.mem.os⟩ }.finishOk))

/-- `DEMODULATE` completes on every waveform for which every candidate has a bin (or which has no complete slot) and whose
output fits: it writes `K` bytes in Byte mode, `K div 8` in Bit mode (R183, R184). -/
def Obligations.DemodulateCompletesWhereCandidatesHaveBins : Prop :=
  ∀ (s : State) (m : Mode), s.srcFail = false → s.sinkFail = false → modeOf s.mode = some m →
    s.block.minSlotLen ≤ s.slotLen →
    (match m with | .bit => s.mem.is.length / s.slotLen / 8 | .byte => s.mem.is.length / s.slotLen) ≤ s.block.capOB.val →
    (s.slotLen ≤ s.mem.is.length →
      ∀ v ∈ alphabet m, (candidateBin m s.freq0 s.freq1 s.srate s.slotLen v).isSome) →
    ∃ out : List Byte,
      out.length = (match m with | .bit => s.mem.is.length / s.slotLen / 8 | .byte => s.mem.is.length / s.slotLen) ∧
      exec .demodulate s = .next { s with mem := ⟨s.mem.ib, s.mem.is, out, s.mem.os⟩ }.finishOk

/-- R187: a waveform with a trailing partial slot decodes as the one truncated to whole slots. -/
def Obligations.TrailingPartialSlotIsNeverRead : Prop :=
  ∀ (s t : State) (k : Nat), k * s.slotLen < s.mem.is.length → s.mem.is.length < (k + 1) * s.slotLen →
    exec .demodulate s = .next t →
    exec .demodulate { s with mem := { s.mem with is := s.mem.is.take (k * s.slotLen) } } =
      .next { t with mem := { t.mem with is := s.mem.is.take (k * s.slotLen) } }

/-- R147 and R186: empty input. `MODULATE` of an empty `IB` commits an empty waveform; `DEMODULATE` of a waveform shorter
than one slot commits an empty buffer, whatever the frequencies; with an unsupported mode, a zero worker count (`MODULATE`)
or too short a slot the error is raised all the same. -/
def Obligations.EmptyInputGivesEmptyOutput : Prop :=
  ∀ s : State, s.srcFail = false → s.sinkFail = false →
    (s.mem.ib = [] → (s.mode = 0 ∨ s.mode = 1) → s.workers ≠ 0 → s.block.minSlotLen ≤ s.slotLen →
      exec .modulate s =
        .next { s with mem := ⟨[], s.mem.is, s.mem.ob, []⟩, osrate := s.srate }.finishOk) ∧
    (s.mem.is.length < s.slotLen → (s.mode = 0 ∨ s.mode = 1) → s.block.minSlotLen ≤ s.slotLen →
      exec .demodulate s = .next { s with mem := ⟨s.mem.ib, s.mem.is, [], s.mem.os⟩ }.finishOk) ∧
    (s.mode = 0 → s.mem.is.length < 8 * s.slotLen → ∀ t, exec .demodulate s = .next t → t.err = false →
      t.mem.ob = []) ∧
    (s.mode ≠ 0 → s.mode ≠ 1 → exec .modulate s = .next (s.finishError .invalidMode s.mode 0) ∧
      exec .demodulate s = .next (s.finishError .invalidMode s.mode 0)) ∧
    ((s.mode = 0 ∨ s.mode = 1) → s.workers = 0 → exec .modulate s = .next (s.finishError .badWorkerCount 0 0)) ∧
    ((s.mode = 0 ∨ s.mode = 1) → s.slotLen < s.block.minSlotLen →
      (s.workers ≠ 0 → exec .modulate s = .next (s.finishError .durationTooShort (sat32 s.slotLen) 0)) ∧
      exec .demodulate s = .next (s.finishError .durationTooShort (sat32 s.slotLen) 0))

/-- R191: the round trip. From a state whose parameters meet `Discriminates` and whose buffers are large enough, `MODULATE`
succeeds, its output pair read out and loaded into `IS` is decoded by `DEMODULATE`, and `OB` is then the input. -/
def Obligations.DemodulateUndoesModulate : Prop :=
  ∀ (s : State) (m : Mode), s.busy = false → modeOf s.mode = some m → s.srcFail = false → s.sinkFail = false →
    s.workers ≠ 0 → s.block.minSlotLen ≤ s.slotLen →
    Discriminates s.block.numerics m s.freq0 s.freq1 s.srate s.slotLen →
    (expand s.mem.ib m).length * s.slotLen ≤ s.block.capOS.val →
    (expand s.mem.ib m).length * s.slotLen ≤ s.block.capIS.val → s.mem.ib.length ≤ s.block.capOB.val →
    ∃ t u v, exec .modulate s = .next t ∧ t.err = false ∧
      runEvent t (.host (.loadS t.osrate t.mem.os)) = .next u ∧ u.mem.is = t.mem.os ∧
      exec .demodulate u = .next v ∧ v.err = false ∧ v.mem.ob = s.mem.ib

/-! ### Finish steps, errors and frames -/

/-- The success finish (R231), for every command: a command that ends without error leaves `BUSY` 0, `DONE` 1, `ERR` 0, the
three error registers 0, and no `InFlight` record. -/
def Obligations.SuccessfulCommandsFinishClean : Prop :=
  (∀ (i : Instr) (s t : State), exec i s = .next t → t.err = false →
    t.busy = false ∧ t.done = true ∧ t.readWord .errcode = 0 ∧ t.readWord .errinfo = 0 ∧ t.readWord .erridx = 0 ∧
      t.inFlight = none ∧ t.readWord .status = 2) ∧
  ∀ s : State, s.finishOk =
    { s with inFlight := none, done := true, err := false, errcode := .none, errinfo := 0, erridx := 0 }

/-- R232, for every command: a command that ends with an error changes nothing but the status and error registers and the
`InFlight` record, and the code it writes is not 0. -/
def Obligations.FailedCommandsChangeOnlyTheStatus : Prop :=
  (∀ (i : Instr) (s t : State), exec i s = .next t → t.err = true →
    t = { s with inFlight := none, done := true, err := true, errcode := t.errcode, errinfo := t.errinfo,
                 erridx := t.erridx } ∧ t.readWord .errcode ≠ 0 ∧ t.readWord .status = 6) ∧
  ∀ (s : State) (e : ErrCode) (info idx : Word), s.finishError e info idx =
    { s with inFlight := none, done := true, err := true, errcode := e, errinfo := info, erridx := idx }

/-- The frame of every command (R20, R30, R33, R60, R68, R207): whatever the outcome, the parameter and operand registers,
`HOSTIF`, `ISRATE`, the input buffers and the block's parameters are as before; `RES` changes only by `DECSLOT`, `FRES` only
by `FREQOF`, `OS` and `OSRATE` only by `GENTONE` and `MODULATE`, `OB` only by `DEMODULATE`, `EXPAND` and `PACK`. So every
element of every buffer a command does not write reads as before. (`script`, `replies` and `fresh` are the model's own.) -/
def Obligations.CommandsChangeOnlyTheirOutputs : Prop :=
  ∀ (i : Instr) (s t : State), exec i s = .next t →
    (t.mode = s.mode ∧ t.freq0 = s.freq0 ∧ t.freq1 = s.freq1 ∧ t.symdur = s.symdur ∧ t.srate = s.srate ∧
      t.workers = s.workers ∧ t.srcFail = s.srcFail ∧ t.sinkFail = s.sinkFail ∧ t.arg = s.arg ∧ t.farg = s.farg ∧
      t.israte = s.israte ∧ t.mem.ib = s.mem.ib ∧ t.mem.is = s.mem.is ∧ t.block = s.block ∧ t.script = s.script ∧
      t.replies = s.replies ∧ t.fresh = s.fresh) ∧
    (i ≠ .decslot → t.res = s.res) ∧ (i ≠ .freqof → t.fres = s.fres) ∧
    (i ≠ .gentone → i ≠ .modulate → t.mem.os = s.mem.os ∧ t.osrate = s.osrate) ∧
    (i ≠ .demodulate → i ≠ .expand → i ≠ .pack → t.mem.ob = s.mem.ob)

/-- R211, R212, R214, R219, in the order of R222: the errors of the up-front checks, each raised iff its cause holds and no
earlier one does, with the values it records. -/
def Obligations.UpFrontErrorsHaveTheirCauses : Prop :=
  ∀ (i : Instr) (s t : State), exec i s = .next t →
    let readsBuffer := i ≠ .freqof ∧ i ≠ .gentone
    let usesSlot := i = .gentone ∨ i = .modulate ∨ i = .decslot ∨ i = .demodulate
    let source := readsBuffer ∧ s.srcFail = true
    let mode := i ≠ .gentone ∧ s.mode ≠ 0 ∧ s.mode ≠ 1
    let count := i = .modulate ∧ s.workers = 0
    let short := usesSlot ∧ s.slotLen < s.block.minSlotLen
    (t.errcode = .sourceUnavailable ↔ source) ∧
    (t.errcode = .invalidMode ↔ ¬ source ∧ mode) ∧
    (t.errcode = .badWorkerCount ↔ ¬ source ∧ ¬ mode ∧ count) ∧
    (t.errcode = .durationTooShort ↔ ¬ source ∧ ¬ mode ∧ ¬ count ∧ short) ∧
    (t.errcode = .sourceUnavailable ∨ t.errcode = .badWorkerCount → t.errinfo = 0 ∧ t.erridx = 0) ∧
    (t.errcode = .invalidMode → t.errinfo = s.mode ∧ t.erridx = 0) ∧
    (t.errcode = .durationTooShort → t.errinfo.toNat = min s.slotLen (2 ^ 32 - 1) ∧ t.erridx = 0)

/-- R220: which command can raise which error: only those of the table, and each of those for some state. No command raises
`IllegalCommand`. -/
def Obligations.CommandsRaiseTheErrorsOfTheTable : Prop :=
  ∀ (i : Instr) (e : ErrCode), e ≠ .none →
    ((∃ s t, exec i s = .next t ∧ t.errcode = e) ↔
      match e with
      | .none => False
      | .sourceUnavailable => i ≠ .freqof ∧ i ≠ .gentone
      | .invalidMode => i ≠ .gentone
      | .badWorkerCount => i = .modulate
      | .durationTooShort => i = .gentone ∨ i = .modulate ∨ i = .decslot ∨ i = .demodulate
      | .invalidSymbol => i = .freqof ∨ i = .pack
      | .incompleteSlot => i = .decslot
      | .noQualifyingBin => i = .decslot ∨ i = .demodulate
      | .sinkUnavailable => i ≠ .freqof ∧ i ≠ .decslot
      | .illegalCommand => False)

/-- Issuing a command a second time leaves everything as the first time left it: the same outputs and the same status (R65: a
command is a function of inputs it does not change). -/
def Obligations.RepeatingACommandChangesNothing : Prop :=
  ∀ (i : Instr) (s t : State), exec i s = .next t → exec i t = .next t

/-- The rate tags (R33): no command reads `ISRATE`; it is the rate of the pair last loaded into `IS`; `OSRATE` is `SRATE`
after a successful `GENTONE` or `MODULATE`. -/
def Obligations.RateTagsFollowTheirRule : Prop :=
  (∀ (i : Instr) (s t : State) (rate : Param), exec i s = .next t →
    exec i { s with israte := rate } = .next { t with israte := rate }) ∧
  (∀ (s : State) (rate : Param) (x : List Sample), s.busy = false → x.length ≤ s.block.capIS.val →
    ∃ t, runEvent s (.host (.loadS rate x)) = .next t ∧ t.israte = rate ∧ t.mem.is = x) ∧
  (∀ (i : Instr) (s t : State), i = .gentone ∨ i = .modulate → exec i s = .next t → t.err = false →
    t.osrate = s.srate)

/-- Results never depend on old results: a command run from a state with any other output buffers, result registers and
status gives the same outcome (R65: a function of the registers and buffers its rule names, R207). -/
def Obligations.OldOutputsAreNeverRead : Prop :=
  ∀ (i : Instr) (s t : State) (ob : List Byte) (os : List Sample) (res : Word) (fres rate : Param) (d e : Bool)
    (c : ErrCode) (info idx : Word), exec i s = .next t →
    ∃ t', exec i { s with mem := ⟨s.mem.ib, s.mem.is, ob, os⟩, res := res, fres := fres, osrate := rate, done := d,
                          err := e, errcode := c, errinfo := info, erridx := idx } = .next t' ∧
      t'.done = t.done ∧ t'.err = t.err ∧ t'.errcode = t.errcode ∧ t'.errinfo = t.errinfo ∧ t'.erridx = t.erridx ∧
      (t.err = false →
        (i = .decslot → t'.res = t.res) ∧ (i = .freqof → t'.fres = t.fres) ∧
        (i = .gentone ∨ i = .modulate → t'.mem.os = t.mem.os ∧ t'.osrate = t.osrate) ∧
        (i = .demodulate ∨ i = .expand ∨ i = .pack → t'.mem.ob = t.mem.ob))

/-! ### Invariants, schedules and the end of a command -/

/-- The reset state meets the invariant, whatever the block's parameters. -/
def Obligations.ResetStateMeetsTheInvariant : Prop :=
  State.reset.Inv ∧ ∀ s : State, s.resetBlock.Inv

/-- The invariant `State.Inv` (the buffers within their capacities, the flags as R28 says, `RES` a symbol, a command in
flight coherent with the registers and buffers it was accepted with) is kept by every step of every state that meets it. -/
def Obligations.EveryStepKeepsTheInvariant : Prop :=
  ∀ s t : State, s.Inv → step s = .next t → t.Inv

/-- From any state that meets the invariant a run of any length answers a next state that meets it. -/
def Obligations.EveryRunIsSafe : Prop := ∀ (n : Nat) (s : State), s.Inv → SafeFor n s

/-- The parameters of the block are fixed: no step changes them (R37). -/
def Obligations.BlockParametersNeverChange : Prop :=
  ∀ s t : State, step s = .next t → t.block = s.block

/-- The one-step meaning of a command and its small steps agree on every schedule (R94, R149, R189, R190): whatever turns the
workers and the controller take after acceptance, in whatever order, the command is either still in flight, with every
register and buffer as at acceptance, or has ended in exactly the state `exec` gives. -/
def Obligations.EveryScheduleEndsAsTheOneStepMeaning : Prop :=
  ∀ (s t : State) (i : Instr) (es : List Event), s.busy = false → (∀ e ∈ es, e.inner) →
    runEvents (.accept (encode i) :: es) s = .next t →
    (t.busy = true ∧ t = { s with done := false, err := false, inFlight := t.inFlight }) ∨ exec i s = .next t

/-- Every command finishes (R255). In any state a busy block has an enabled step (a worker step before the join, the finish
step at it); a worker step brings the join one step nearer; and from acceptance, with nothing else scheduled, the command
ends in exactly `L` worker steps (`MODULATE`), `K` worker steps (`DEMODULATE`) or none, and one finish step, in the state
`exec` gives. -/
def Obligations.EveryCommandFinishes : Prop :=
  (∀ (s : State) (f : InFlight), s.inFlight = some f →
    f.work.complete = true ∨ ∃ n w, f.work.workerStep s n = some w) ∧
  (∀ (s : State) (w w' : Work) (n : Nat), w.workerStep s n = some w' → w'.remaining + 1 = w.remaining) ∧
  (∀ (s : State) (i : Instr), s.busy = false → s.script = [] →
    runSteps ((startWork i s).remaining + 1) (s.begin i) = exec i s ∧
    ∀ k ≤ (startWork i s).remaining, ∃ t, runSteps k (s.begin i) = .next t ∧ t.busy = true) ∧
  (∀ (s : State) (m : Mode), modulateChecks s = .ok m →
    (startWork .modulate s).remaining = (expand s.mem.ib m).length) ∧
  (∀ (s : State) (m : Mode), demodulateChecks s = .ok m →
    (startWork .demodulate s).remaining = s.mem.is.length / s.slotLen) ∧
  (∀ (s : State) (i : Instr), i ≠ .modulate → i ≠ .demodulate → (startWork i s).remaining = 0)

/-- A script is taken in its order (R71): a run of as many steps as it has leading events is the run of those events. `WAIT`
reads `STATUS` until it reads `DONE = 1` (R101): a step at a `WAIT` reads it once, and goes past the `WAIT` iff `DONE` is 1.
(The script and the list of replies are the model's own, log entry 2.) -/
def Obligations.ScriptsAreTakenInOrder : Prop :=
  (∀ (s t : State) (es : List Event) (rest : List Line), s.script = es.map .event ++ rest →
    runEvents es { s with script := rest } = .next t → runSteps es.length s = .next t) ∧
  (∀ (s : State) (rest : List Line), s.script = .wait :: rest → s.done = true →
    step s = .next { s with script := rest, replies := s.replies ++ [.reg (.word (s.readWord .status))] }) ∧
  (∀ (s t : State) (rest : List Line), s.script = .wait :: rest → s.done = false → step s = .next t →
    t.script = .wait :: rest ∧ t.replies = s.replies ++ [.reg (.word (s.readWord .status))])

/-- The host transactions of each contract of the document (R102). From an idle block the lines of a call run to their end.
The replies are the reads of `STATUS` by `WAIT`, one per step of a command taken in small steps with `DONE = 0` (1), then one
with `DONE = 1`, then the caller's read of `STATUS`, and last, if it reads `ERR = 0` (2), the read-out; if it reads `ERR = 1`
(6), the read-out is skipped and `ERRCODE` is read. With no failure flag set and within the block's limits the last reply is
what the contract promises; an unsupported mode and a failure reported in `HOSTIF` give their errors. (That a command may be
taken in one step or in small steps is log entry 5, script and replies are log entry 2.) -/
def Obligations.ContractCallsReturnTheirResults : Prop :=
  let status := fun w : Word => Reply.reg (.word w)
  let runsTo := fun (s : State) (lines : List Line) (last : List Reply) =>
    ∀ rest, s.script = lines ++ rest → ∃ n k t, runSteps n s = .next t ∧ t.script = rest ∧ t.busy = false ∧
      t.replies = s.replies ++ List.replicate k (status 1) ++ last
  (∀ (p : Pace) (hostif : Option Word) (setup : List Txn) (i : Instr) (out : Txn) (rest : List Line) (s u v : State),
    s.script = contractCall p hostif setup i out ++ rest →
    runEvents ((setup ++ failures hostif).map .host) { s with script := rest } = .next u → u.busy = false →
    exec i u = .next v →
    let polls := match p with | .whole => 0 | .stepwise => (startWork i u).remaining + 1
    ∃ n, runSteps n s = takeTxn
      { v with replies := (v.replies ++ List.replicate polls (status 1) ++
                            [status (v.readWord .status), status (v.readWord .status)]) }
      (if v.err then .rd (.word .errcode) else out)) ∧
  ∀ (p : Pace) (s : State) (m : Mode) (f0 f1 : Param), s.busy = false → s.srcFail = false → s.sinkFail = false →
    (∀ v ∈ alphabet m, runsTo s (callFrequencyOf p none (v.setWidth 32) (modeCode m) f0 f1)
      [status 2, status 2, .reg (.param (freqOf v m f0 f1))]) ∧
    (∀ (d r : Param) (b : List Byte) (x : List Sample) (w mode : Word),
      (mode ≠ 0 → mode ≠ 1 →
        runsTo s (callModulate p none b mode f0 f1 d r w) [status 6, status 6, status 2] ∧
        runsTo s (callDemodulate p none x mode f0 f1 d r) [status 6, status 6, status 2]) ∧
      runsTo s (callModulate p (some 1) b mode f0 f1 d r w) [status 6, status 6, status 1] ∧
      runsTo s (callDemodulate p (some 1) x mode f0 f1 d r) [status 6, status 6, status 1]) ∧
    ∀ (d r : Param) (n : Nat),
      n = roundQuot s.block.roundTie (r.val.num.toNat * d.val.num.toNat) (r.val.den * d.val.den) →
      s.block.minSlotLen ≤ n →
      (∀ (b : List Byte) (w : Word), w ≠ 0 → b.length ≤ s.block.capIB.val →
        (expand b m).length * n ≤ s.block.capOS.val →
        runsTo s (callModulate p none b (modeCode m) f0 f1 d r w)
          [status 2, status 2, .samples r (modulateWave s.block.numerics m f0 f1 r n b)]) ∧
      (n ≤ s.block.capOS.val →
        runsTo s (callGenerateTone p none f0 d r) [status 2, status 2, .samples r (tone s.block.numerics f0 r n)]) ∧
      (∀ (x : List Sample) (v : Symbol), x.length = n → n ≤ s.block.capIS.val →
        decodeBlock s.block.numerics m f0 f1 r x = .symbol v →
        runsTo s (callDecodeSlot p none x (modeCode m) f0 f1 r d)
          [status 2, status 2, .reg (.word (v.setWidth 32))]) ∧
      (∀ (x : List Sample) (symbols : List Symbol), x.length ≤ s.block.capIS.val → symbols.length = x.length / n →
        (∀ (k : Nat) (h : k < symbols.length),
          decodeBlock s.block.numerics m f0 f1 r ((x.drop (k * n)).take n) = .symbol symbols[k]) →
        (pack symbols m).length ≤ s.block.capOB.val →
        runsTo s (callDemodulate p none x (modeCode m) f0 f1 d r) [status 2, status 2, .bytes (pack symbols m)])

end
end

