-- ==== Sys2Proof/Laws/State.lean ====
section
/-!
SUPPORT. One lemma per field per named update of `State`, true by `rfl`, so that no proof unfolds a record update.
-/

namespace Sys2Proof.Machine.State

variable (s : State)

/-! ### `finishOk` -/

@[simp] theorem finishOk_mode : (s.finishOk).mode = s.mode := rfl
@[simp] theorem finishOk_freq0 : (s.finishOk).freq0 = s.freq0 := rfl
@[simp] theorem finishOk_freq1 : (s.finishOk).freq1 = s.freq1 := rfl
@[simp] theorem finishOk_symdur : (s.finishOk).symdur = s.symdur := rfl
@[simp] theorem finishOk_srate : (s.finishOk).srate = s.srate := rfl
@[simp] theorem finishOk_workers : (s.finishOk).workers = s.workers := rfl
@[simp] theorem finishOk_srcFail : (s.finishOk).srcFail = s.srcFail := rfl
@[simp] theorem finishOk_sinkFail : (s.finishOk).sinkFail = s.sinkFail := rfl
@[simp] theorem finishOk_arg : (s.finishOk).arg = s.arg := rfl
@[simp] theorem finishOk_farg : (s.finishOk).farg = s.farg := rfl
@[simp] theorem finishOk_done : (s.finishOk).done = true := rfl
@[simp] theorem finishOk_err : (s.finishOk).err = false := rfl
@[simp] theorem finishOk_errcode : (s.finishOk).errcode = .none := rfl
@[simp] theorem finishOk_errinfo : (s.finishOk).errinfo = 0 := rfl
@[simp] theorem finishOk_erridx : (s.finishOk).erridx = 0 := rfl
@[simp] theorem finishOk_res : (s.finishOk).res = s.res := rfl
@[simp] theorem finishOk_fres : (s.finishOk).fres = s.fres := rfl
@[simp] theorem finishOk_israte : (s.finishOk).israte = s.israte := rfl
@[simp] theorem finishOk_osrate : (s.finishOk).osrate = s.osrate := rfl
@[simp] theorem finishOk_mem : (s.finishOk).mem = s.mem := rfl
@[simp] theorem finishOk_inFlight : (s.finishOk).inFlight = none := rfl
@[simp] theorem finishOk_block : (s.finishOk).block = s.block := rfl
@[simp] theorem finishOk_script : (s.finishOk).script = s.script := rfl
@[simp] theorem finishOk_replies : (s.finishOk).replies = s.replies := rfl
@[simp] theorem finishOk_fresh : (s.finishOk).fresh = s.fresh := rfl

/-! ### `finishError` -/

@[simp] theorem finishError_mode (e : ErrCode) (info idx : Word) : (s.finishError e info idx).mode = s.mode := rfl
@[simp] theorem finishError_freq0 (e : ErrCode) (info idx : Word) : (s.finishError e info idx).freq0 = s.freq0 := rfl
@[simp] theorem finishError_freq1 (e : ErrCode) (info idx : Word) : (s.finishError e info idx).freq1 = s.freq1 := rfl
@[simp] theorem finishError_symdur (e : ErrCode) (info idx : Word) : (s.finishError e info idx).symdur = s.symdur := rfl
@[simp] theorem finishError_srate (e : ErrCode) (info idx : Word) : (s.finishError e info idx).srate = s.srate := rfl
@[simp] theorem finishError_workers (e : ErrCode) (info idx : Word) : (s.finishError e info idx).workers = s.workers := rfl
@[simp] theorem finishError_srcFail (e : ErrCode) (info idx : Word) : (s.finishError e info idx).srcFail = s.srcFail := rfl
@[simp] theorem finishError_sinkFail (e : ErrCode) (info idx : Word) : (s.finishError e info idx).sinkFail = s.sinkFail := rfl
@[simp] theorem finishError_arg (e : ErrCode) (info idx : Word) : (s.finishError e info idx).arg = s.arg := rfl
@[simp] theorem finishError_farg (e : ErrCode) (info idx : Word) : (s.finishError e info idx).farg = s.farg := rfl
@[simp] theorem finishError_done (e : ErrCode) (info idx : Word) : (s.finishError e info idx).done = true := rfl
@[simp] theorem finishError_err (e : ErrCode) (info idx : Word) : (s.finishError e info idx).err = true := rfl
@[simp] theorem finishError_errcode (e : ErrCode) (info idx : Word) : (s.finishError e info idx).errcode = e := rfl
@[simp] theorem finishError_errinfo (e : ErrCode) (info idx : Word) : (s.finishError e info idx).errinfo = info := rfl
@[simp] theorem finishError_erridx (e : ErrCode) (info idx : Word) : (s.finishError e info idx).erridx = idx := rfl
@[simp] theorem finishError_res (e : ErrCode) (info idx : Word) : (s.finishError e info idx).res = s.res := rfl
@[simp] theorem finishError_fres (e : ErrCode) (info idx : Word) : (s.finishError e info idx).fres = s.fres := rfl
@[simp] theorem finishError_israte (e : ErrCode) (info idx : Word) : (s.finishError e info idx).israte = s.israte := rfl
@[simp] theorem finishError_osrate (e : ErrCode) (info idx : Word) : (s.finishError e info idx).osrate = s.osrate := rfl
@[simp] theorem finishError_mem (e : ErrCode) (info idx : Word) : (s.finishError e info idx).mem = s.mem := rfl
@[simp] theorem finishError_inFlight (e : ErrCode) (info idx : Word) : (s.finishError e info idx).inFlight = none := rfl
@[simp] theorem finishError_block (e : ErrCode) (info idx : Word) : (s.finishError e info idx).block = s.block := rfl
@[simp] theorem finishError_script (e : ErrCode) (info idx : Word) : (s.finishError e info idx).script = s.script := rfl
@[simp] theorem finishError_replies (e : ErrCode) (info idx : Word) : (s.finishError e info idx).replies = s.replies := rfl
@[simp] theorem finishError_fresh (e : ErrCode) (info idx : Word) : (s.finishError e info idx).fresh = s.fresh := rfl

/-! ### `setOB` -/

@[simp] theorem setOB_mode (out : List Byte) : (s.setOB out).mode = s.mode := rfl
@[simp] theorem setOB_freq0 (out : List Byte) : (s.setOB out).freq0 = s.freq0 := rfl
@[simp] theorem setOB_freq1 (out : List Byte) : (s.setOB out).freq1 = s.freq1 := rfl
@[simp] theorem setOB_symdur (out : List Byte) : (s.setOB out).symdur = s.symdur := rfl
@[simp] theorem setOB_srate (out : List Byte) : (s.setOB out).srate = s.srate := rfl
@[simp] theorem setOB_workers (out : List Byte) : (s.setOB out).workers = s.workers := rfl
@[simp] theorem setOB_srcFail (out : List Byte) : (s.setOB out).srcFail = s.srcFail := rfl
@[simp] theorem setOB_sinkFail (out : List Byte) : (s.setOB out).sinkFail = s.sinkFail := rfl
@[simp] theorem setOB_arg (out : List Byte) : (s.setOB out).arg = s.arg := rfl
@[simp] theorem setOB_farg (out : List Byte) : (s.setOB out).farg = s.farg := rfl
@[simp] theorem setOB_done (out : List Byte) : (s.setOB out).done = s.done := rfl
@[simp] theorem setOB_err (out : List Byte) : (s.setOB out).err = s.err := rfl
@[simp] theorem setOB_errcode (out : List Byte) : (s.setOB out).errcode = s.errcode := rfl
@[simp] theorem setOB_errinfo (out : List Byte) : (s.setOB out).errinfo = s.errinfo := rfl
@[simp] theorem setOB_erridx (out : List Byte) : (s.setOB out).erridx = s.erridx := rfl
@[simp] theorem setOB_res (out : List Byte) : (s.setOB out).res = s.res := rfl
@[simp] theorem setOB_fres (out : List Byte) : (s.setOB out).fres = s.fres := rfl
@[simp] theorem setOB_israte (out : List Byte) : (s.setOB out).israte = s.israte := rfl
@[simp] theorem setOB_osrate (out : List Byte) : (s.setOB out).osrate = s.osrate := rfl
@[simp] theorem setOB_mem (out : List Byte) : (s.setOB out).mem = { s.mem with ob := out } := rfl
@[simp] theorem setOB_inFlight (out : List Byte) : (s.setOB out).inFlight = s.inFlight := rfl
@[simp] theorem setOB_block (out : List Byte) : (s.setOB out).block = s.block := rfl
@[simp] theorem setOB_script (out : List Byte) : (s.setOB out).script = s.script := rfl
@[simp] theorem setOB_replies (out : List Byte) : (s.setOB out).replies = s.replies := rfl
@[simp] theorem setOB_fresh (out : List Byte) : (s.setOB out).fresh = s.fresh := rfl

/-! ### `setOS` -/

@[simp] theorem setOS_mode (out : List Sample) : (s.setOS out).mode = s.mode := rfl
@[simp] theorem setOS_freq0 (out : List Sample) : (s.setOS out).freq0 = s.freq0 := rfl
@[simp] theorem setOS_freq1 (out : List Sample) : (s.setOS out).freq1 = s.freq1 := rfl
@[simp] theorem setOS_symdur (out : List Sample) : (s.setOS out).symdur = s.symdur := rfl
@[simp] theorem setOS_srate (out : List Sample) : (s.setOS out).srate = s.srate := rfl
@[simp] theorem setOS_workers (out : List Sample) : (s.setOS out).workers = s.workers := rfl
@[simp] theorem setOS_srcFail (out : List Sample) : (s.setOS out).srcFail = s.srcFail := rfl
@[simp] theorem setOS_sinkFail (out : List Sample) : (s.setOS out).sinkFail = s.sinkFail := rfl
@[simp] theorem setOS_arg (out : List Sample) : (s.setOS out).arg = s.arg := rfl
@[simp] theorem setOS_farg (out : List Sample) : (s.setOS out).farg = s.farg := rfl
@[simp] theorem setOS_done (out : List Sample) : (s.setOS out).done = s.done := rfl
@[simp] theorem setOS_err (out : List Sample) : (s.setOS out).err = s.err := rfl
@[simp] theorem setOS_errcode (out : List Sample) : (s.setOS out).errcode = s.errcode := rfl
@[simp] theorem setOS_errinfo (out : List Sample) : (s.setOS out).errinfo = s.errinfo := rfl
@[simp] theorem setOS_erridx (out : List Sample) : (s.setOS out).erridx = s.erridx := rfl
@[simp] theorem setOS_res (out : List Sample) : (s.setOS out).res = s.res := rfl
@[simp] theorem setOS_fres (out : List Sample) : (s.setOS out).fres = s.fres := rfl
@[simp] theorem setOS_israte (out : List Sample) : (s.setOS out).israte = s.israte := rfl
@[simp] theorem setOS_osrate (out : List Sample) : (s.setOS out).osrate = s.srate := rfl
@[simp] theorem setOS_mem (out : List Sample) : (s.setOS out).mem = { s.mem with os := out } := rfl
@[simp] theorem setOS_inFlight (out : List Sample) : (s.setOS out).inFlight = s.inFlight := rfl
@[simp] theorem setOS_block (out : List Sample) : (s.setOS out).block = s.block := rfl
@[simp] theorem setOS_script (out : List Sample) : (s.setOS out).script = s.script := rfl
@[simp] theorem setOS_replies (out : List Sample) : (s.setOS out).replies = s.replies := rfl
@[simp] theorem setOS_fresh (out : List Sample) : (s.setOS out).fresh = s.fresh := rfl

/-! ### `setRes` -/

@[simp] theorem setRes_mode (v : Word) : (s.setRes v).mode = s.mode := rfl
@[simp] theorem setRes_freq0 (v : Word) : (s.setRes v).freq0 = s.freq0 := rfl
@[simp] theorem setRes_freq1 (v : Word) : (s.setRes v).freq1 = s.freq1 := rfl
@[simp] theorem setRes_symdur (v : Word) : (s.setRes v).symdur = s.symdur := rfl
@[simp] theorem setRes_srate (v : Word) : (s.setRes v).srate = s.srate := rfl
@[simp] theorem setRes_workers (v : Word) : (s.setRes v).workers = s.workers := rfl
@[simp] theorem setRes_srcFail (v : Word) : (s.setRes v).srcFail = s.srcFail := rfl
@[simp] theorem setRes_sinkFail (v : Word) : (s.setRes v).sinkFail = s.sinkFail := rfl
@[simp] theorem setRes_arg (v : Word) : (s.setRes v).arg = s.arg := rfl
@[simp] theorem setRes_farg (v : Word) : (s.setRes v).farg = s.farg := rfl
@[simp] theorem setRes_done (v : Word) : (s.setRes v).done = s.done := rfl
@[simp] theorem setRes_err (v : Word) : (s.setRes v).err = s.err := rfl
@[simp] theorem setRes_errcode (v : Word) : (s.setRes v).errcode = s.errcode := rfl
@[simp] theorem setRes_errinfo (v : Word) : (s.setRes v).errinfo = s.errinfo := rfl
@[simp] theorem setRes_erridx (v : Word) : (s.setRes v).erridx = s.erridx := rfl
@[simp] theorem setRes_res (v : Word) : (s.setRes v).res = v := rfl
@[simp] theorem setRes_fres (v : Word) : (s.setRes v).fres = s.fres := rfl
@[simp] theorem setRes_israte (v : Word) : (s.setRes v).israte = s.israte := rfl
@[simp] theorem setRes_osrate (v : Word) : (s.setRes v).osrate = s.osrate := rfl
@[simp] theorem setRes_mem (v : Word) : (s.setRes v).mem = s.mem := rfl
@[simp] theorem setRes_inFlight (v : Word) : (s.setRes v).inFlight = s.inFlight := rfl
@[simp] theorem setRes_block (v : Word) : (s.setRes v).block = s.block := rfl
@[simp] theorem setRes_script (v : Word) : (s.setRes v).script = s.script := rfl
@[simp] theorem setRes_replies (v : Word) : (s.setRes v).replies = s.replies := rfl
@[simp] theorem setRes_fresh (v : Word) : (s.setRes v).fresh = s.fresh := rfl

/-! ### `setFres` -/

@[simp] theorem setFres_mode (v : Param) : (s.setFres v).mode = s.mode := rfl
@[simp] theorem setFres_freq0 (v : Param) : (s.setFres v).freq0 = s.freq0 := rfl
@[simp] theorem setFres_freq1 (v : Param) : (s.setFres v).freq1 = s.freq1 := rfl
@[simp] theorem setFres_symdur (v : Param) : (s.setFres v).symdur = s.symdur := rfl
@[simp] theorem setFres_srate (v : Param) : (s.setFres v).srate = s.srate := rfl
@[simp] theorem setFres_workers (v : Param) : (s.setFres v).workers = s.workers := rfl
@[simp] theorem setFres_srcFail (v : Param) : (s.setFres v).srcFail = s.srcFail := rfl
@[simp] theorem setFres_sinkFail (v : Param) : (s.setFres v).sinkFail = s.sinkFail := rfl
@[simp] theorem setFres_arg (v : Param) : (s.setFres v).arg = s.arg := rfl
@[simp] theorem setFres_farg (v : Param) : (s.setFres v).farg = s.farg := rfl
@[simp] theorem setFres_done (v : Param) : (s.setFres v).done = s.done := rfl
@[simp] theorem setFres_err (v : Param) : (s.setFres v).err = s.err := rfl
@[simp] theorem setFres_errcode (v : Param) : (s.setFres v).errcode = s.errcode := rfl
@[simp] theorem setFres_errinfo (v : Param) : (s.setFres v).errinfo = s.errinfo := rfl
@[simp] theorem setFres_erridx (v : Param) : (s.setFres v).erridx = s.erridx := rfl
@[simp] theorem setFres_res (v : Param) : (s.setFres v).res = s.res := rfl
@[simp] theorem setFres_fres (v : Param) : (s.setFres v).fres = v := rfl
@[simp] theorem setFres_israte (v : Param) : (s.setFres v).israte = s.israte := rfl
@[simp] theorem setFres_osrate (v : Param) : (s.setFres v).osrate = s.osrate := rfl
@[simp] theorem setFres_mem (v : Param) : (s.setFres v).mem = s.mem := rfl
@[simp] theorem setFres_inFlight (v : Param) : (s.setFres v).inFlight = s.inFlight := rfl
@[simp] theorem setFres_block (v : Param) : (s.setFres v).block = s.block := rfl
@[simp] theorem setFres_script (v : Param) : (s.setFres v).script = s.script := rfl
@[simp] theorem setFres_replies (v : Param) : (s.setFres v).replies = s.replies := rfl
@[simp] theorem setFres_fresh (v : Param) : (s.setFres v).fresh = s.fresh := rfl

/-! ### `clearFlags` -/

@[simp] theorem clearFlags_mode : (s.clearFlags).mode = s.mode := rfl
@[simp] theorem clearFlags_freq0 : (s.clearFlags).freq0 = s.freq0 := rfl
@[simp] theorem clearFlags_freq1 : (s.clearFlags).freq1 = s.freq1 := rfl
@[simp] theorem clearFlags_symdur : (s.clearFlags).symdur = s.symdur := rfl
@[simp] theorem clearFlags_srate : (s.clearFlags).srate = s.srate := rfl
@[simp] theorem clearFlags_workers : (s.clearFlags).workers = s.workers := rfl
@[simp] theorem clearFlags_srcFail : (s.clearFlags).srcFail = s.srcFail := rfl
@[simp] theorem clearFlags_sinkFail : (s.clearFlags).sinkFail = s.sinkFail := rfl
@[simp] theorem clearFlags_arg : (s.clearFlags).arg = s.arg := rfl
@[simp] theorem clearFlags_farg : (s.clearFlags).farg = s.farg := rfl
@[simp] theorem clearFlags_done : (s.clearFlags).done = false := rfl
@[simp] theorem clearFlags_err : (s.clearFlags).err = false := rfl
@[simp] theorem clearFlags_errcode : (s.clearFlags).errcode = s.errcode := rfl
@[simp] theorem clearFlags_errinfo : (s.clearFlags).errinfo = s.errinfo := rfl
@[simp] theorem clearFlags_erridx : (s.clearFlags).erridx = s.erridx := rfl
@[simp] theorem clearFlags_res : (s.clearFlags).res = s.res := rfl
@[simp] theorem clearFlags_fres : (s.clearFlags).fres = s.fres := rfl
@[simp] theorem clearFlags_israte : (s.clearFlags).israte = s.israte := rfl
@[simp] theorem clearFlags_osrate : (s.clearFlags).osrate = s.osrate := rfl
@[simp] theorem clearFlags_mem : (s.clearFlags).mem = s.mem := rfl
@[simp] theorem clearFlags_inFlight : (s.clearFlags).inFlight = s.inFlight := rfl
@[simp] theorem clearFlags_block : (s.clearFlags).block = s.block := rfl
@[simp] theorem clearFlags_script : (s.clearFlags).script = s.script := rfl
@[simp] theorem clearFlags_replies : (s.clearFlags).replies = s.replies := rfl
@[simp] theorem clearFlags_fresh : (s.clearFlags).fresh = s.fresh := rfl

/-! ### `begin` -/

@[simp] theorem begin_mode (i : Instr) : (s.begin i).mode = s.mode := rfl
@[simp] theorem begin_freq0 (i : Instr) : (s.begin i).freq0 = s.freq0 := rfl
@[simp] theorem begin_freq1 (i : Instr) : (s.begin i).freq1 = s.freq1 := rfl
@[simp] theorem begin_symdur (i : Instr) : (s.begin i).symdur = s.symdur := rfl
@[simp] theorem begin_srate (i : Instr) : (s.begin i).srate = s.srate := rfl
@[simp] theorem begin_workers (i : Instr) : (s.begin i).workers = s.workers := rfl
@[simp] theorem begin_srcFail (i : Instr) : (s.begin i).srcFail = s.srcFail := rfl
@[simp] theorem begin_sinkFail (i : Instr) : (s.begin i).sinkFail = s.sinkFail := rfl
@[simp] theorem begin_arg (i : Instr) : (s.begin i).arg = s.arg := rfl
@[simp] theorem begin_farg (i : Instr) : (s.begin i).farg = s.farg := rfl
@[simp] theorem begin_done (i : Instr) : (s.begin i).done = false := rfl
@[simp] theorem begin_err (i : Instr) : (s.begin i).err = false := rfl
@[simp] theorem begin_errcode (i : Instr) : (s.begin i).errcode = s.errcode := rfl
@[simp] theorem begin_errinfo (i : Instr) : (s.begin i).errinfo = s.errinfo := rfl
@[simp] theorem begin_erridx (i : Instr) : (s.begin i).erridx = s.erridx := rfl
@[simp] theorem begin_res (i : Instr) : (s.begin i).res = s.res := rfl
@[simp] theorem begin_fres (i : Instr) : (s.begin i).fres = s.fres := rfl
@[simp] theorem begin_israte (i : Instr) : (s.begin i).israte = s.israte := rfl
@[simp] theorem begin_osrate (i : Instr) : (s.begin i).osrate = s.osrate := rfl
@[simp] theorem begin_mem (i : Instr) : (s.begin i).mem = s.mem := rfl
@[simp] theorem begin_inFlight (i : Instr) : (s.begin i).inFlight = some ⟨i, startWork i s⟩ := rfl
@[simp] theorem begin_block (i : Instr) : (s.begin i).block = s.block := rfl
@[simp] theorem begin_script (i : Instr) : (s.begin i).script = s.script := rfl
@[simp] theorem begin_replies (i : Instr) : (s.begin i).replies = s.replies := rfl
@[simp] theorem begin_fresh (i : Instr) : (s.begin i).fresh = s.fresh := rfl

/-! ### `withScript` -/

@[simp] theorem withScript_mode (rest : List Line) : (s.withScript rest).mode = s.mode := rfl
@[simp] theorem withScript_freq0 (rest : List Line) : (s.withScript rest).freq0 = s.freq0 := rfl
@[simp] theorem withScript_freq1 (rest : List Line) : (s.withScript rest).freq1 = s.freq1 := rfl
@[simp] theorem withScript_symdur (rest : List Line) : (s.withScript rest).symdur = s.symdur := rfl
@[simp] theorem withScript_srate (rest : List Line) : (s.withScript rest).srate = s.srate := rfl
@[simp] theorem withScript_workers (rest : List Line) : (s.withScript rest).workers = s.workers := rfl
@[simp] theorem withScript_srcFail (rest : List Line) : (s.withScript rest).srcFail = s.srcFail := rfl
@[simp] theorem withScript_sinkFail (rest : List Line) : (s.withScript rest).sinkFail = s.sinkFail := rfl
@[simp] theorem withScript_arg (rest : List Line) : (s.withScript rest).arg = s.arg := rfl
@[simp] theorem withScript_farg (rest : List Line) : (s.withScript rest).farg = s.farg := rfl
@[simp] theorem withScript_done (rest : List Line) : (s.withScript rest).done = s.done := rfl
@[simp] theorem withScript_err (rest : List Line) : (s.withScript rest).err = s.err := rfl
@[simp] theorem withScript_errcode (rest : List Line) : (s.withScript rest).errcode = s.errcode := rfl
@[simp] theorem withScript_errinfo (rest : List Line) : (s.withScript rest).errinfo = s.errinfo := rfl
@[simp] theorem withScript_erridx (rest : List Line) : (s.withScript rest).erridx = s.erridx := rfl
@[simp] theorem withScript_res (rest : List Line) : (s.withScript rest).res = s.res := rfl
@[simp] theorem withScript_fres (rest : List Line) : (s.withScript rest).fres = s.fres := rfl
@[simp] theorem withScript_israte (rest : List Line) : (s.withScript rest).israte = s.israte := rfl
@[simp] theorem withScript_osrate (rest : List Line) : (s.withScript rest).osrate = s.osrate := rfl
@[simp] theorem withScript_mem (rest : List Line) : (s.withScript rest).mem = s.mem := rfl
@[simp] theorem withScript_inFlight (rest : List Line) : (s.withScript rest).inFlight = s.inFlight := rfl
@[simp] theorem withScript_block (rest : List Line) : (s.withScript rest).block = s.block := rfl
@[simp] theorem withScript_script (rest : List Line) : (s.withScript rest).script = rest := rfl
@[simp] theorem withScript_replies (rest : List Line) : (s.withScript rest).replies = s.replies := rfl
@[simp] theorem withScript_fresh (rest : List Line) : (s.withScript rest).fresh = s.fresh := rfl

/-! ### `reply` -/

@[simp] theorem reply_mode (r : Reply) : (s.reply r).mode = s.mode := rfl
@[simp] theorem reply_freq0 (r : Reply) : (s.reply r).freq0 = s.freq0 := rfl
@[simp] theorem reply_freq1 (r : Reply) : (s.reply r).freq1 = s.freq1 := rfl
@[simp] theorem reply_symdur (r : Reply) : (s.reply r).symdur = s.symdur := rfl
@[simp] theorem reply_srate (r : Reply) : (s.reply r).srate = s.srate := rfl
@[simp] theorem reply_workers (r : Reply) : (s.reply r).workers = s.workers := rfl
@[simp] theorem reply_srcFail (r : Reply) : (s.reply r).srcFail = s.srcFail := rfl
@[simp] theorem reply_sinkFail (r : Reply) : (s.reply r).sinkFail = s.sinkFail := rfl
@[simp] theorem reply_arg (r : Reply) : (s.reply r).arg = s.arg := rfl
@[simp] theorem reply_farg (r : Reply) : (s.reply r).farg = s.farg := rfl
@[simp] theorem reply_done (r : Reply) : (s.reply r).done = s.done := rfl
@[simp] theorem reply_err (r : Reply) : (s.reply r).err = s.err := rfl
@[simp] theorem reply_errcode (r : Reply) : (s.reply r).errcode = s.errcode := rfl
@[simp] theorem reply_errinfo (r : Reply) : (s.reply r).errinfo = s.errinfo := rfl
@[simp] theorem reply_erridx (r : Reply) : (s.reply r).erridx = s.erridx := rfl
@[simp] theorem reply_res (r : Reply) : (s.reply r).res = s.res := rfl
@[simp] theorem reply_fres (r : Reply) : (s.reply r).fres = s.fres := rfl
@[simp] theorem reply_israte (r : Reply) : (s.reply r).israte = s.israte := rfl
@[simp] theorem reply_osrate (r : Reply) : (s.reply r).osrate = s.osrate := rfl
@[simp] theorem reply_mem (r : Reply) : (s.reply r).mem = s.mem := rfl
@[simp] theorem reply_inFlight (r : Reply) : (s.reply r).inFlight = s.inFlight := rfl
@[simp] theorem reply_block (r : Reply) : (s.reply r).block = s.block := rfl
@[simp] theorem reply_script (r : Reply) : (s.reply r).script = s.script := rfl
@[simp] theorem reply_replies (r : Reply) : (s.reply r).replies = s.replies ++ [r] := rfl
@[simp] theorem reply_fresh (r : Reply) : (s.reply r).fresh = s.fresh := rfl

/-! ### `pollStatus` -/

@[simp] theorem pollStatus_mode : s.pollStatus.mode = s.mode := rfl
@[simp] theorem pollStatus_freq0 : s.pollStatus.freq0 = s.freq0 := rfl
@[simp] theorem pollStatus_freq1 : s.pollStatus.freq1 = s.freq1 := rfl
@[simp] theorem pollStatus_symdur : s.pollStatus.symdur = s.symdur := rfl
@[simp] theorem pollStatus_srate : s.pollStatus.srate = s.srate := rfl
@[simp] theorem pollStatus_workers : s.pollStatus.workers = s.workers := rfl
@[simp] theorem pollStatus_srcFail : s.pollStatus.srcFail = s.srcFail := rfl
@[simp] theorem pollStatus_sinkFail : s.pollStatus.sinkFail = s.sinkFail := rfl
@[simp] theorem pollStatus_arg : s.pollStatus.arg = s.arg := rfl
@[simp] theorem pollStatus_farg : s.pollStatus.farg = s.farg := rfl
@[simp] theorem pollStatus_done : s.pollStatus.done = s.done := rfl
@[simp] theorem pollStatus_err : s.pollStatus.err = s.err := rfl
@[simp] theorem pollStatus_errcode : s.pollStatus.errcode = s.errcode := rfl
@[simp] theorem pollStatus_errinfo : s.pollStatus.errinfo = s.errinfo := rfl
@[simp] theorem pollStatus_erridx : s.pollStatus.erridx = s.erridx := rfl
@[simp] theorem pollStatus_res : s.pollStatus.res = s.res := rfl
@[simp] theorem pollStatus_fres : s.pollStatus.fres = s.fres := rfl
@[simp] theorem pollStatus_israte : s.pollStatus.israte = s.israte := rfl
@[simp] theorem pollStatus_osrate : s.pollStatus.osrate = s.osrate := rfl
@[simp] theorem pollStatus_mem : s.pollStatus.mem = s.mem := rfl
@[simp] theorem pollStatus_inFlight : s.pollStatus.inFlight = s.inFlight := rfl
@[simp] theorem pollStatus_block : s.pollStatus.block = s.block := rfl
@[simp] theorem pollStatus_script : s.pollStatus.script = s.script := rfl
@[simp] theorem pollStatus_replies : s.pollStatus.replies = s.replies ++ [.reg (.word s.statusWord)] := rfl
@[simp] theorem pollStatus_fresh : s.pollStatus.fresh = s.fresh := rfl

/-! ### `nextFresh` -/

@[simp] theorem nextFresh_mode : (s.nextFresh).mode = s.mode := rfl
@[simp] theorem nextFresh_freq0 : (s.nextFresh).freq0 = s.freq0 := rfl
@[simp] theorem nextFresh_freq1 : (s.nextFresh).freq1 = s.freq1 := rfl
@[simp] theorem nextFresh_symdur : (s.nextFresh).symdur = s.symdur := rfl
@[simp] theorem nextFresh_srate : (s.nextFresh).srate = s.srate := rfl
@[simp] theorem nextFresh_workers : (s.nextFresh).workers = s.workers := rfl
@[simp] theorem nextFresh_srcFail : (s.nextFresh).srcFail = s.srcFail := rfl
@[simp] theorem nextFresh_sinkFail : (s.nextFresh).sinkFail = s.sinkFail := rfl
@[simp] theorem nextFresh_arg : (s.nextFresh).arg = s.arg := rfl
@[simp] theorem nextFresh_farg : (s.nextFresh).farg = s.farg := rfl
@[simp] theorem nextFresh_done : (s.nextFresh).done = s.done := rfl
@[simp] theorem nextFresh_err : (s.nextFresh).err = s.err := rfl
@[simp] theorem nextFresh_errcode : (s.nextFresh).errcode = s.errcode := rfl
@[simp] theorem nextFresh_errinfo : (s.nextFresh).errinfo = s.errinfo := rfl
@[simp] theorem nextFresh_erridx : (s.nextFresh).erridx = s.erridx := rfl
@[simp] theorem nextFresh_res : (s.nextFresh).res = s.res := rfl
@[simp] theorem nextFresh_fres : (s.nextFresh).fres = s.fres := rfl
@[simp] theorem nextFresh_israte : (s.nextFresh).israte = s.israte := rfl
@[simp] theorem nextFresh_osrate : (s.nextFresh).osrate = s.osrate := rfl
@[simp] theorem nextFresh_mem : (s.nextFresh).mem = s.mem := rfl
@[simp] theorem nextFresh_inFlight : (s.nextFresh).inFlight = s.inFlight := rfl
@[simp] theorem nextFresh_block : (s.nextFresh).block = s.block := rfl
@[simp] theorem nextFresh_script : (s.nextFresh).script = s.script := rfl
@[simp] theorem nextFresh_replies : (s.nextFresh).replies = s.replies := rfl
@[simp] theorem nextFresh_fresh : (s.nextFresh).fresh = s.fresh + 1 := rfl

/-! ### Derived views that no finish step, commit or reply changes -/

@[simp] theorem slotLen_withScript (rest : List Line) : (s.withScript rest).slotLen = s.slotLen := rfl
@[simp] theorem slotLen_begin (i : Instr) : (s.begin i).slotLen = s.slotLen := rfl
@[simp] theorem slotLen_finishOk : s.finishOk.slotLen = s.slotLen := rfl
@[simp] theorem slotLen_finishError (e : ErrCode) (info idx : Word) :
    (s.finishError e info idx).slotLen = s.slotLen := rfl
@[simp] theorem slotLen_setOB (out : List Byte) : (s.setOB out).slotLen = s.slotLen := rfl
@[simp] theorem slotLen_setOS (out : List Sample) : (s.setOS out).slotLen = s.slotLen := rfl
@[simp] theorem slotLen_setRes (v : Word) : (s.setRes v).slotLen = s.slotLen := rfl
@[simp] theorem slotLen_setFres (v : Param) : (s.setFres v).slotLen = s.slotLen := rfl

end Sys2Proof.Machine.State
end

