-- ==== Sys2Proof/Laws/Ops.lean ====
section
/-!
SUPPORT. What the shared operations can do: operands and rounding, the finish steps, register reads, and that every operation
over the buffers keeps `Memory.wf`.
-/

namespace Sys2Proof.Laws

open Sys2Proof.Machine

/-! ### Operands (`Sys2Proof/Machine/Operands.lean`) -/

/-- All that `roundQuot` answers, in the words of R19: `a / b = n + t` with `0 ≤ t < 1`. -/
theorem roundQuot_spec (tie : RoundTie) (a b : Nat) (hb : 0 < b) (n : Nat) (t : ℚ) (h : (a : ℚ) / b = n + t) (h0 : 0 ≤ t) (h1 : t < 1) :
    (t < 1 / 2 → roundQuot tie a b = n) ∧
    (1 / 2 < t → roundQuot tie a b = n + 1) ∧
    (t = 1 / 2 → tie = .halfAwayFromZero → roundQuot tie a b = n + 1) ∧
    (t = 1 / 2 → tie = .halfEven → roundQuot tie a b % 2 = 0 ∧ (roundQuot tie a b = n ∨ roundQuot tie a b = n + 1)) := by
  have hbq : (0 : ℚ) < b := by exact_mod_cast hb
  have hn : a / b = n := by
    rw [Nat.div_eq_iff hb]
    rw [div_eq_iff hbq.ne'] at h
    have e1 : (n : ℚ) * b ≤ a := by rw [h]; nlinarith
    have e2 : (a : ℚ) < (n + 1) * b := by rw [h]; nlinarith
    have e1' : n * b ≤ a := by exact_mod_cast e1
    have e2' : a < (n + 1) * b := by exact_mod_cast e2
    constructor
    · linarith
    · have : (n + 1) * b = n * b + b := by ring
      omega
  have hm : ((a % b : ℕ) : ℚ) = t * b := by
    have := Nat.div_add_mod a b
    have h' : (a : ℚ) = b * (a / b : ℕ) + (a % b : ℕ) := by exact_mod_cast this.symm
    rw [hn] at h'
    rw [div_eq_iff hbq.ne'] at h
    linarith
  have c1 : t < 1 / 2 ↔ 2 * (a % b) < b := by
    rw [← Nat.cast_lt (α := ℚ)]; push_cast; rw [hm]
    constructor <;> intro h <;> nlinarith
  have c2 : 1 / 2 < t ↔ b < 2 * (a % b) := by
    rw [← Nat.cast_lt (α := ℚ)]; push_cast; rw [hm]
    constructor <;> intro h <;> nlinarith
  unfold roundQuot
  rw [hn]
  refine ⟨?_, ?_, ?_, ?_⟩
  · intro h; simp [c1.1 h]
  · intro h
    have := c2.1 h
    have h' : ¬ 2 * (a % b) < b := by omega
    simp [h', this]
  · intro h ht
    have h1' : ¬ 2 * (a % b) < b := fun hh => by have := c1.2 hh; linarith
    have h2' : ¬ b < 2 * (a % b) := fun hh => by have := c2.2 hh; linarith
    simp [h1', h2', ht]
  · intro h ht
    have h1' : ¬ 2 * (a % b) < b := fun hh => by have := c1.2 hh; linarith
    have h2' : ¬ b < 2 * (a % b) := fun hh => by have := c2.2 hh; linarith
    simp only [h1', h2', ht, if_false]
    by_cases he : n % 2 = 0
    · simp [he]
    · rw [if_neg he]; omega

/-- A zero product rounds to 0 (R204). -/
theorem roundQuot_zero (tie b) (hb : 0 < b) : roundQuot tie 0 b = 0 := by
  simp [roundQuot, hb]

/-- The quotient that `State.slotLen` rounds is the exact product of the two registers. -/
theorem slotLen_quot (s : State) :
    (((s.srate.val.num.toNat * s.symdur.val.num.toNat : ℕ)) : ℚ) / ((s.srate.val.den * s.symdur.val.den : ℕ)) = s.srate.val * s.symdur.val := by
  have h1 : ((s.srate.val.num.toNat : ℕ) : ℚ) = s.srate.val.num := by
    exact_mod_cast congrArg (Int.cast (R := ℚ)) (Int.toNat_of_nonneg (Rat.num_nonneg.2 s.srate.nonneg))
  have h2 : ((s.symdur.val.num.toNat : ℕ) : ℚ) = s.symdur.val.num := by
    exact_mod_cast congrArg (Int.cast (R := ℚ)) (Int.toNat_of_nonneg (Rat.num_nonneg.2 s.symdur.nonneg))
  push_cast
  rw [h1, h2, mul_div_mul_comm, Rat.num_div_den, Rat.num_div_den]

/-- With `SRATE = 0`, as after reset, the slot length is 0. -/
theorem slotLen_of_srate_zero (s : State) (h : s.srate = Param.zero) : s.slotLen = 0 := by
  unfold State.slotLen
  rw [h]
  have : (Param.zero.val.num.toNat * s.symdur.val.num.toNat) = 0 := by simp [Param.zero]
  rw [this]
  exact roundQuot_zero _ _ (Nat.mul_pos Param.zero.val.pos s.symdur.val.pos)

/-- `sat32` saturates at `2^32 − 1`. -/
theorem sat32_toNat (n : Nat) : (sat32 n).toNat = min n (2 ^ 32 - 1) := by
  rw [sat32, BitVec.toNat_ofNat, Nat.mod_eq_of_lt]; omega

/-- An unsupported mode (R22). -/
theorem modeOf_none (m : Word) (h0 : m ≠ 0) (h1 : m ≠ 1) : modeOf m = none := by
  rw [modeOf, if_neg h0, if_neg h1]

/-- Mode 0 is Bit. -/
theorem modeOf_of_zero {w : Word} (h : w = 0) : modeOf w = some .bit := by rw [h]; rfl

/-- Mode 1 is Byte. -/
theorem modeOf_of_one {w : Word} (h : w = 1) : modeOf w = some .byte := by rw [h]; rfl

/-- A supported mode is 0 or 1. -/
theorem modeOf_some {w : Word} {m : Mode} (h : modeOf w = some m) : w = 0 ∧ m = .bit ∨ w = 1 ∧ m = .byte := by
  unfold modeOf at h
  split at h
  · cases h; exact .inl ⟨‹_›, rfl⟩
  · split at h
    · cases h; exact .inr ⟨‹_›, rfl⟩
    · cases h

/-- 0 and 1 are supported. -/
theorem modeOf_of_legal {w : Word} (h : w = 0 ∨ w = 1) : ∃ m, modeOf w = some m := by
  rcases h with h | h
  · exact ⟨_, modeOf_of_zero h⟩
  · exact ⟨_, modeOf_of_one h⟩

/-- The code of a mode names it. -/
theorem modeOf_modeCode (m : Mode) : modeOf (modeCode m) = some m := by cases m <;> rfl

/-- Every byte value is a Byte-mode symbol. -/
theorem mem_alphabet_byte (v : Symbol) : v ∈ alphabet .byte := by
  simp only [alphabet, List.mem_map, List.mem_range]
  exact ⟨v.toNat, v.isLt, by simp⟩

/-- The Bit-mode symbols. -/
theorem mem_alphabet_bit (v : Symbol) : v ∈ alphabet .bit ↔ v = 0 ∨ v = 1 := by simp [alphabet]

/-- The alphabet starts at 0. -/
theorem alphabet_eq (m : Mode) : alphabet m = 0 :: (alphabet m).tail := by
  cases m
  · rfl
  · simp only [alphabet]; rw [List.range_succ_eq_map]; rfl

/-- The alphabet is in increasing symbol value (R124). -/
theorem alphabet_sorted (m : Mode) : (alphabet m).Pairwise (fun u v => u.toNat < v.toNat) := by
  cases m
  · decide
  · simp only [alphabet]
    rw [List.pairwise_map]
    refine List.Pairwise.imp_of_mem ?_ List.pairwise_lt_range
    intro a b ha hb h
    rw [List.mem_range] at ha hb
    simpa [BitVec.toNat_ofNat, Nat.mod_eq_of_lt ha, Nat.mod_eq_of_lt hb] using h

/-- A symbol in a register is at most 255. -/
theorem symbol_le (v : Symbol) : (v.setWidth 32 : BitVec 32).toNat ≤ 255 := by
  have := v.isLt; rw [BitVec.toNat_setWidth]; omega

/-- A symbol operand within a byte keeps its value. -/
theorem setWidth8_toNat (a : Word) (h : a.toNat ≤ 255) : (a.setWidth 8 : BitVec 8).toNat = a.toNat := by
  rw [BitVec.toNat_setWidth]; omega

/-- The block of a complete slot has `N` samples (R169). -/
theorem slotBlock_length {s : State} {k : Nat} (h : (k + 1) * s.slotLen ≤ s.mem.is.length) : (s.slotBlock k).length = s.slotLen := by
  have : (k + 1) * s.slotLen = k * s.slotLen + s.slotLen := by ring
  simp only [State.slotBlock, List.length_take, List.length_drop]; omega

/-- Every slot below the slot count is complete (R181). -/
theorem slotCount_mul_le (s : State) {k : Nat} (h : k < s.slotCount) : (k + 1) * s.slotLen ≤ s.mem.is.length :=
  le_trans (Nat.mul_le_mul_right _ h) (Nat.div_mul_le_self _ _)

/-- A non-zero `WORKERS` gives at least one worker (R142). -/
theorem workerCount_pos {s : State} (h : s.workers ≠ 0) : 1 ≤ s.workerCount := by
  have : s.workers.toNat ≠ 0 := fun h' => h (BitVec.eq_of_toNat_eq h')
  simp [State.workerCount, Params.nWorkers]; omega

/-- The `DurationTooShort` test, met. -/
theorem tooShort_true {s : State} (h : s.slotLen < s.block.minSlotLen) : s.tooShort = true := by simp [State.tooShort, h]

/-- The `DurationTooShort` test, not met. -/
theorem tooShort_false {s : State} (h : s.block.minSlotLen ≤ s.slotLen) : s.tooShort = false := by simp [State.tooShort, h]

/-! ### Finish steps (`Sys2Proof/Machine/Ops.lean`) -/

/-- The command ends with an error: nothing but the status registers changes. -/
def Fails (s : State) (r : Result) : Prop := ∃ e info idx, e ≠ .none ∧ r = .next (s.finishError e info idx)

/-- `raise` ends the command with its error. -/
theorem raise_fails (s : State) (e : ErrCode) (info idx : Word) (h : e ≠ .none) : Fails s (raise s e info idx) :=
  ⟨e, info, idx, h, rfl⟩

/-- All that `finishBytes` can answer. -/
theorem finishBytes_cases (s : State) (out : List Byte) :
    finishBytes s out = .next (s.finishError .sinkUnavailable (sat32 out.length) 0) ∨
    finishBytes s out = .next (s.setOB out).finishOk := by
  unfold finishBytes raise succeed; split <;> simp

/-- All that `finishSamples` can answer. -/
theorem finishSamples_cases (s : State) (out : List Sample) :
    finishSamples s out = .next (s.finishError .sinkUnavailable (sat32 out.length) 0) ∨
    finishSamples s out = .next (s.setOS out).finishOk := by
  unfold finishSamples raise succeed; split <;> simp

/-- `finishBytes` fails, or commits an output within the capacity. -/
theorem finishBytes_inv (s : State) (out : List Byte) :
    Fails s (finishBytes s out) ∨ out.length ≤ s.block.capOB.val ∧ finishBytes s out = .next (s.setOB out).finishOk := by
  unfold finishBytes
  split
  · exact .inl (raise_fails _ _ _ _ (by decide))
  · rename_i h; simp at h; exact .inr ⟨h.2, rfl⟩

/-- `finishSamples` fails, or commits an output within the capacity. -/
theorem finishSamples_inv (s : State) (out : List Sample) :
    Fails s (finishSamples s out) ∨ out.length ≤ s.block.capOS.val ∧ finishSamples s out = .next (s.setOS out).finishOk := by
  unfold finishSamples
  split
  · exact .inl (raise_fails _ _ _ _ (by decide))
  · rename_i h; simp at h; exact .inr ⟨h.2, rfl⟩

/-- When `finishBytes` commits, and the state it leaves. -/
theorem finishBytes_ok (s : State) (out) (h : s.sinkFail = false) (hl : out.length ≤ s.block.capOB.val) :
    finishBytes s out = .next { s with mem := ⟨s.mem.ib, s.mem.is, out, s.mem.os⟩ }.finishOk := by
  rw [finishBytes, if_neg (by simp [h]; omega)]; rfl

/-- When `finishBytes` raises `SinkUnavailable` (R216). -/
theorem finishBytes_fail (s : State) (out) (h : s.sinkFail = true ∨ s.block.capOB.val < out.length) :
    finishBytes s out = .next (s.finishError .sinkUnavailable (sat32 out.length) 0) := by
  rw [finishBytes, if_pos (by simpa using h)]; rfl

/-- When `finishSamples` commits, and the state it leaves. -/
theorem finishSamples_ok (s : State) (out) (h : s.sinkFail = false) (hl : out.length ≤ s.block.capOS.val) :
    finishSamples s out = .next { s with mem := ⟨s.mem.ib, s.mem.is, s.mem.ob, out⟩, osrate := s.srate }.finishOk := by
  rw [finishSamples, if_neg (by simp [h]; omega)]; rfl

/-- When `finishSamples` raises `SinkUnavailable` (R216). -/
theorem finishSamples_fail (s : State) (out) (h : s.sinkFail = true ∨ s.block.capOS.val < out.length) :
    finishSamples s out = .next (s.finishError .sinkUnavailable (sat32 out.length) 0) := by
  rw [finishSamples, if_pos (by simpa using h)]; rfl

/-! ### Registers -/

/-- `BUSY` is the presence of an `InFlight` record. -/
theorem busy_iff (s : State) : s.busy = true ↔ ∃ f, s.inFlight = some f := by
  simp [State.busy, Option.isSome_iff_exists]

/-- An idle block has no `InFlight` record. -/
theorem busy_false (s : State) : s.busy = false ↔ s.inFlight = none := by
  simp [State.busy]

/-- No register but `STATUS` shows the `InFlight` record. -/
theorem readReg_inFlight (s : State) (fl) (r : Reg) (h : r ≠ .word .status) :
    ({ s with inFlight := fl } : State).readReg r = s.readReg r := by
  cases r with
  | word r => cases r <;> first | rfl | exact absurd rfl h
  | param r => cases r <;> rfl
  | reserved n => rfl

/-- The high bits of a small number are 0. -/
theorem smallword (n : Nat) (k : Nat) (hn : n < 2 ^ k) (i : Nat) (hi : k ≤ i) : (BitVec.ofNat 32 n).getLsbD i = false := by
  rw [BitVec.getLsbD_ofNat]
  have : n.testBit i = false := Nat.testBit_lt_two_pow (lt_of_lt_of_le hn (Nat.pow_le_pow_right (by norm_num) hi))
  simp [this]

/-- The next state of an outcome is one state. -/
theorem next_inj {s t : State} : (Host.Outcome.next s : Result) = .next t ↔ s = t := by simp

/-! ### Every operation over the buffers keeps `Memory.wf` -/

/-- `Memory.wf` as four inequalities (R32). -/
theorem wf_iff (p : Params) (m : Memory) : m.wf p = true ↔
    m.ib.length ≤ p.capIB.val ∧ m.is.length ≤ p.capIS.val ∧ m.ob.length ≤ p.capOB.val ∧ m.os.length ≤ p.capOS.val := by
  simp [Memory.wf, and_assoc]

/-- `LOADB` keeps it. -/
theorem wf_loadB (s : State) (b : List Byte) (h : s.mem.wf s.block = true) : (s.loadB b).mem.wf (s.loadB b).block = true := by
  unfold State.loadB
  split
  · rw [wf_iff] at h ⊢; exact ⟨‹_›, h.2⟩
  · exact h

/-- `LOADS` keeps it. -/
theorem wf_loadS (s : State) (rate : Param) (x : List Sample) (h : s.mem.wf s.block = true) :
    (s.loadS rate x).mem.wf (s.loadS rate x).block = true := by
  unfold State.loadS
  split
  · rw [wf_iff] at h ⊢; exact ⟨h.1, ‹_›, h.2.2⟩
  · exact h

/-- A commit to `OB` of an output within the capacity keeps it. -/
theorem wf_setOB (s : State) (out : List Byte) (h : s.mem.wf s.block = true) (hl : out.length ≤ s.block.capOB.val) :
    (s.setOB out).mem.wf (s.setOB out).block = true := by
  rw [wf_iff] at h
  exact (wf_iff _ _).2 ⟨h.1, h.2.1, hl, h.2.2.2⟩

/-- A commit to `OS` of an output within the capacity keeps it. -/
theorem wf_setOS (s : State) (out : List Sample) (h : s.mem.wf s.block = true) (hl : out.length ≤ s.block.capOS.val) :
    (s.setOS out).mem.wf (s.setOS out).block = true := by
  rw [wf_iff] at h
  exact (wf_iff _ _).2 ⟨h.1, h.2.1, h.2.2.1, hl⟩

/-- `finishBytes` keeps it, whatever the output. -/
theorem wf_finishBytes (s t : State) (out : List Byte) (h : s.mem.wf s.block = true) (ht : finishBytes s out = .next t) :
    t.mem.wf t.block = true := by
  rcases finishBytes_inv s out with ⟨e, info, idx, _, e'⟩ | ⟨hl, e'⟩ <;> rw [e'] at ht <;> cases ht
  · exact h
  · exact wf_setOB s out h hl

/-- `finishSamples` keeps it, whatever the output. -/
theorem wf_finishSamples (s t : State) (out : List Sample) (h : s.mem.wf s.block = true)
    (ht : finishSamples s out = .next t) : t.mem.wf t.block = true := by
  rcases finishSamples_inv s out with ⟨e, info, idx, _, e'⟩ | ⟨hl, e'⟩ <;> rw [e'] at ht <;> cases ht
  · exact h
  · exact wf_setOS s out h hl

/-- Reading an element keeps it. -/
theorem wf_readByteAt (s : State) (i : Nat) (h : s.mem.wf s.block = true) :
    (s.readByteAt i).mem.wf (s.readByteAt i).block = true := by
  unfold State.readByteAt; split <;> exact h

/-- Reading a sample keeps it. -/
theorem wf_readSampleAt (s : State) (i : Nat) (h : s.mem.wf s.block = true) :
    (s.readSampleAt i).mem.wf (s.readSampleAt i).block = true := by
  unfold State.readSampleAt; split <;> exact h

/-- Reset establishes it. -/
theorem wf_resetBlock (s : State) : s.resetBlock.mem.wf s.resetBlock.block = true := by
  simp [State.resetBlock, State.reset, Memory.wf]

/-- The reset state has it. -/
theorem wf_reset : State.reset.mem.wf State.reset.block = true := by
  simp [State.reset, Memory.wf]

end Sys2Proof.Laws
end

