-- ==== Sys2Proof/Laws/Codec.lean ====
section
/-!
SUPPORT. The codec functions: blocks of one length, packing, chunks, tones, bins and the candidate scan.
-/

namespace Sys2Proof.Laws

open Sys2Proof.Machine

/-! ### Concatenations of blocks of one length -/

/-- The length of a concatenation of blocks of one length. -/
theorem flatMap_length {α β : Type} (l : List α) (f : α → List β) (n : Nat) (hf : ∀ a ∈ l, (f a).length = n) : (l.flatMap f).length = l.length * n := by
  rw [List.length_flatMap, List.map_congr_left hf]; simp

/-- Element `k * n + j` of a concatenation of blocks of length `n`. -/
theorem flatMap_getD {α β : Type} (l : List α) (f : α → List β) (n : Nat) (hf : ∀ a ∈ l, (f a).length = n) (k j : Nat)
    (hk : k < l.length) (hj : j < n) (d : β) : (l.flatMap f).getD (k * n + j) d = (f l[k]).getD j d := by
  induction l generalizing k with
  | nil => simp at hk
  | cons a l ih =>
    rw [List.flatMap_cons]
    have ha : (f a).length = n := hf a (by simp)
    cases k with
    | zero =>
      rw [List.getD_append _ _ _ _ (by rw [ha]; omega)]; simp
    | succ k =>
      rw [List.getD_append_right _ _ _ _ (by rw [ha]; nlinarith)]
      rw [ha, show (k + 1) * n + j - n = k * n + j by rw [Nat.add_mul]; omega]
      simpa using ih (fun b hb => hf b (by simp [hb])) k (by simpa using hk)

/-- Block `k` of a concatenation of blocks of length `n`. -/
theorem flatMap_block {α β : Type} (l : List α) (f : α → List β) (n : Nat) (hf : ∀ a ∈ l, (f a).length = n) (k : Nat)
    (hk : k < l.length) : ((l.flatMap f).drop (k * n)).take n = f l[k] := by
  induction l generalizing k with
  | nil => simp at hk
  | cons a l ih =>
    have ha : (f a).length = n := hf a (by simp)
    rw [List.flatMap_cons]
    cases k with
    | zero => simp [← ha]
    | succ k =>
      rw [show (k + 1) * n = (f a).length + k * n by rw [ha]; ring, List.drop_length_add_append]
      simpa using ih (fun b hb => hf b (by simp [hb])) k (by simpa using hk)

/-- A list is the list of its elements by index. -/
theorem map_getD_range (l : List Symbol) : (List.range l.length).map (fun k => l.getD k 0) = l := by
  apply List.ext_getElem
  · simp
  · intro i h1 h2; simp at h1 ⊢; rw [List.getElem?_eq_getElem h2]; rfl

/-- A concatenation over the elements, as one over the indices. -/
theorem flatMap_range_getD {β : Type} (l : List Symbol) (g : Symbol → List β) :
    ((List.range l.length).flatMap fun k => g (l.getD k 0)) = l.flatMap g := by
  conv_rhs => rw [← map_getD_range l]
  rw [List.flatMap_map]

/-- A sublist by its indices. -/
theorem take_drop_map_range' (l : List Symbol) (a n : Nat) (h : a + n ≤ l.length) :
    (l.drop a).take n = (List.range' a n).map fun k => l.getD k 0 := by
  apply List.ext_getElem
  · simp; omega
  · intro i h1 h2
    simp at h1 h2 ⊢
    rw [List.getElem?_eq_getElem (by omega)]; simp

/-! ### Packing -/

/-- A byte has eight symbols. -/
theorem bitsOf_length (b : Byte) : (bitsOf b).length = 8 := by simp [bitsOf]

/-- The length of a Bit-mode expansion, before its name is folded. -/
theorem flatMap_bits_length (b : List Byte) : (b.flatMap bitsOf).length = 8 * b.length := by
  induction b with
  | nil => rfl
  | cons a l ih => rw [List.flatMap_cons, List.length_append, bitsOf_length, ih, List.length_cons]; ring

/-- The length of an expansion (R141). -/
theorem expand_length (b : List Byte) (m : Mode) : (expand b m).length = (match m with | .bit => 8 * b.length | .byte => b.length) := by
  cases m
  · exact flatMap_bits_length b
  · rfl

/-- Symbol `8n + j` of a Bit-mode expansion (R196). -/
theorem expand_bit_getD (b : List Byte) (n j : Nat) (hn : n < b.length) (hj : j < 8) :
    ((expand b .bit).getD (8 * n + j) 0).toNat = b[n].toNat / 2 ^ (7 - j) % 2 := by
  simp only [expand]
  rw [mul_comm, flatMap_getD _ _ 8 (fun a _ => bitsOf_length a) n j hn hj]
  rw [List.getD_eq_getElem _ _ (by rw [bitsOf_length]; exact hj)]
  simp only [bitsOf, List.getElem_map, List.getElem_range, BitVec.toNat_ofNat]
  omega

/-- Every Bit-mode symbol of an expansion is 0 or 1. -/
theorem expand_symbols_le (b : List Byte) : ∀ v ∈ expand b .bit, v.toNat ≤ 1 := by
  intro v hv
  simp only [expand, List.mem_flatMap, bitsOf, List.mem_map] at hv
  obtain ⟨_, _, _, _, rfl⟩ := hv
  simp only [BitVec.toNat_ofNat]; omega

/-- Every symbol of an expansion is in the alphabet of its mode (R141). -/
theorem expand_mem_alphabet (b : List Byte) (m : Mode) : ∀ v ∈ expand b m, v ∈ alphabet m := by
  intro v hv
  cases m
  · have := expand_symbols_le b v hv
    rw [mem_alphabet_bit]
    rcases Nat.le_one_iff_eq_zero_or_eq_one.1 this with h | h
    · left; exact BitVec.eq_of_toNat_eq h
    · right; exact BitVec.eq_of_toNat_eq h
  · exact mem_alphabet_byte v

/-- The length of a packed sequence (R198, R199). -/
theorem pack_length (y : List Symbol) (m : Mode) : (pack y m).length = (match m with | .bit => y.length / 8 | .byte => y.length) := by
  cases m <;> simp [pack]

/-- A packed byte is the weighted sum of its symbols, with no truncation (R198, R204). -/
theorem packByte_toNat (y : List Symbol) (n : Nat) (h : ∀ v ∈ y, v.toNat ≤ 1) :
    (packByte y n).toNat = ∑ j ∈ Finset.range 8, (y.getD (8 * n + j) 0).toNat * 2 ^ (7 - j) := by
  have hb : ∀ i, (y.getD i 0).toNat ≤ 1 := by
    intro i
    by_cases hi : i < y.length
    · rw [List.getD_eq_getElem _ _ hi]; exact h _ (List.getElem_mem _)
    · rw [List.getD_eq_default _ _ (by omega)]; decide
  simp only [packByte, BitVec.toNat_ofNat]
  have e : ((List.range 8).map fun j => (y.getD (8 * n + j) 0).toNat * 2 ^ (7 - j)).sum = ∑ j ∈ Finset.range 8, (y.getD (8 * n + j) 0).toNat * 2 ^ (7 - j) := by
    simp [Finset.sum_range_succ, List.range_succ, add_assoc]
  rw [e]
  apply Nat.mod_eq_of_lt
  calc _ ≤ ∑ j ∈ Finset.range 8, 1 * 2 ^ (7 - j) := Finset.sum_le_sum fun j _ => Nat.mul_le_mul_right _ (hb _)
    _ < 2 ^ 8 := by decide

/-- A byte is the weighted sum of its bits. -/
theorem byte_sum_bits (b : Nat) (h : b < 256) : ∑ j ∈ Finset.range 8, b / 2 ^ (7 - j) % 2 * 2 ^ (7 - j) = b := by
  simp only [Finset.sum_range_succ, Finset.sum_range_zero]
  norm_num
  omega

/-- A bit of a weighted sum of bits. -/
theorem bit_of_sum (g : Nat → Nat) (hg : ∀ j, g j ≤ 1) (j : Nat) (hj : j < 8) :
    (∑ i ∈ Finset.range 8, g i * 2 ^ (7 - i)) / 2 ^ (7 - j) % 2 = g j := by
  simp only [Finset.sum_range_succ, Finset.sum_range_zero]
  have := hg 0; have := hg 1; have := hg 2; have := hg 3; have := hg 4; have := hg 5; have := hg 6; have := hg 7
  interval_cases j <;> norm_num <;> omega

/-- There is no symbol above 1 iff all are at most 1. -/
theorem firstAboveOne_none (l : List Symbol) (k : Nat) : firstAboveOne l k = none ↔ ∀ v ∈ l, v.toNat ≤ 1 := by
  induction l generalizing k with
  | nil => simp [firstAboveOne]
  | cons a l ih =>
    rw [firstAboveOne]
    by_cases h : 1 < a.toNat
    · simp [h]
    · simp [h, ih]; omega

/-- The least index of a symbol above 1. -/
theorem firstAboveOne_some (l : List Symbol) (k i : Nat) (h : i < l.length) (hv : 1 < l[i].toNat) (hmin : ∀ j (hj : j < i), l[j].toNat ≤ 1) :
    firstAboveOne l k = some (k + i, l[i]) := by
  induction l generalizing k i with
  | nil => simp at h
  | cons a l ih =>
    rw [firstAboveOne]
    cases i with
    | zero => simp at hv; simp [hv]
    | succ i =>
      have h0 := hmin 0 (by omega)
      simp at h0
      rw [if_neg (by omega), ih (k + 1) i (by simpa using h) (by simpa using hv) (fun j hj => by simpa using hmin (j + 1) (by omega))]
      simp; omega

/-! ### Chunks -/

/-- One row per worker. -/
theorem chunkTable_length (l w : Nat) : (chunkTable l w).length = w := by simp [chunkTable]

/-- Row `c` of the chunk table (R143). -/
theorem chunkTable_getElem (l w c : Nat) (h : c < (chunkTable l w).length) :
    (chunkTable l w)[c] = ⟨c * (l / w), if c + 1 < w then l / w else l - (w - 1) * (l / w), 0⟩ := by
  simp [chunkTable]

/-- The last chunk takes the remainder (R143). -/
theorem chunk_tail (l w : Nat) (hw : 1 ≤ w) : l - (w - 1) * (l / w) = l / w + l % w := by
  have h := Nat.div_add_mod l w
  obtain ⟨k, rfl⟩ : ∃ k, w = k + 1 := ⟨w - 1, by omega⟩
  rw [Nat.add_sub_cancel]
  generalize l / (k + 1) = q at *
  generalize l % (k + 1) = r at *
  have : (k + 1) * q = k * q + q := by ring
  omega

/-- Chunks of one length cover a range. -/
theorem equal_chunks (q n : Nat) : ((List.range n).flatMap fun c => List.range' (c * q) q) = List.range (n * q) := by
  induction n with
  | zero => simp
  | succ n ih =>
    rw [List.range_succ, List.flatMap_append, ih, List.flatMap_singleton, Nat.succ_mul, List.range_add, List.range'_eq_map_range]

/-- Every chunk ends within the sequence. -/
theorem chunk_bound (l w : Nat) (hw : 1 ≤ w) (c : Chunk) (hc : c ∈ chunkTable l w) : c.start + c.len ≤ l := by
  obtain ⟨i, hi, rfl⟩ := List.getElem_of_mem hc
  rw [chunkTable_getElem]
  dsimp only
  rw [chunkTable_length] at hi
  have hd := Nat.div_mul_le_self l w
  split
  · rename_i h
    calc i * (l / w) + l / w = (i + 1) * (l / w) := by ring
      _ ≤ w * (l / w) := Nat.mul_le_mul_right _ (by omega)
      _ ≤ l := by rw [mul_comm]; exact hd
  · rename_i h
    have : i = w - 1 := by omega
    subst this
    have : (w - 1) * (l / w) ≤ l := le_trans (Nat.mul_le_mul_right (l / w) (Nat.sub_le w 1)) (by rw [mul_comm]; exact hd)
    omega

/-! ### Tones -/

/-- A tone has `N` samples (R130). -/
theorem tone_length (num f r n) : (tone num f r n).length = n := by simp [tone]

/-- Sample `i` of a tone. -/
theorem tone_getElem (num f r n) (i : Nat) (h : i < (tone num f r n).length) : (tone num f r n)[i] = sinSample num f r i := by
  simp [tone]

/-- Sample `i` of a tone, by default access. -/
theorem tone_getD (num f r n) (i : Nat) (h : i < n) (d) : (tone num f r n).getD i d = sinSample num f r i := by
  rw [List.getD_eq_getElem _ _ (by rwa [tone_length]), tone_getElem]

/-- The datum `sineTurns t` is the real sine of `t` turns. -/
theorem sineTurns_val (t : ℚ) : (sineTurns t).val = Real.sin (2 * Real.pi * t) := by
  have hper : Real.sin (2 * Real.pi * t) = Real.sin (2 * Real.pi * (Int.fract t : ℚ)) := by
    have : (t : ℝ) = (Int.fract t : ℚ) + ⌊t⌋ := by
      have := Int.fract_add_floor t
      exact_mod_cast this.symm
    rw [this, mul_add, show 2 * Real.pi * (⌊t⌋ : ℝ) = ⌊t⌋ * (2 * Real.pi) by ring, Real.sin_add_int_mul_two_pi]
  rw [hper]
  unfold sineTurns
  set u := Int.fract t with hu
  have hu0 : 0 ≤ u := Int.fract_nonneg t
  have hu1 : u < 1 := Int.fract_lt_one t
  have fin : ∀ (sgn w : ℚ), Sample.val (.sum (if w = 0 then [] else [(sgn, w)])) = sgn * Real.sin (2 * Real.pi * w) := by
    intro sgn w
    split
    · rename_i h; simp [Sample.val, Sample.valIn, h]
    · simp [Sample.val, Sample.valIn]
  simp only [fin]
  have half : ∀ v : ℝ, Real.sin (2 * Real.pi * (1 / 2 - v)) = Real.sin (2 * Real.pi * v) := by
    intro v; rw [show 2 * Real.pi * (1 / 2 - v) = Real.pi - 2 * Real.pi * v by ring, Real.sin_pi_sub]
  have sub : ∀ v : ℝ, Real.sin (2 * Real.pi * (v - 1 / 2)) = -Real.sin (2 * Real.pi * v) := by
    intro v; rw [show 2 * Real.pi * (v - 1 / 2) = 2 * Real.pi * v - Real.pi by ring, Real.sin_sub_pi]
  have key : ∀ v : ℚ, Real.sin (2 * Real.pi * ((if v ≤ 1 / 4 then v else 1 / 2 - v : ℚ) : ℝ)) = Real.sin (2 * Real.pi * v) := by
    intro v; split
    · rfl
    · push_cast; rw [half]
  rw [key]
  split
  · simp
  · push_cast; rw [sub]; ring

/-- Whole turns do not change the datum. -/
theorem sineTurns_add_nat (t : ℚ) (n : ℕ) : sineTurns (t + n) = sineTurns t := by
  unfold sineTurns; rw [Int.fract_add_natCast]

/-- A waveform has one slot per symbol (R145). -/
theorem wave_length (num m f0 f1 r n) (l : List Symbol) : (l.flatMap (symbolTone num m f0 f1 r n)).length = l.length * n :=
  flatMap_length _ _ _ fun _ _ => tone_length _ _ _ _

/-! ### The transform and the order of magnitudes -/

/-- The default sample is 0. -/
theorem default_val : (default : Sample).val = 0 := by
  show Sample.val (.sum []) = 0
  simp [Sample.val, Sample.valIn]

/-- Whole periods of the bin index. -/
theorem angle_period (N n : ℕ) (j : ℤ) (h : N ≠ 0) :
    2 * Real.pi * ((j + N : ℤ) : ℝ) * n / N = 2 * Real.pi * j * n / N + n * (2 * Real.pi) := by
  have : (N : ℝ) ≠ 0 := by exact_mod_cast h
  push_cast; field_simp

/-- The transform is periodic in the bin (R160). -/
theorem dft_period (x : List ℝ) (j : ℤ) : dftRe x (j + x.length) = dftRe x j ∧ dftIm x (j + x.length) = dftIm x j := by
  constructor
  · refine Finset.sum_congr rfl fun n hn => ?_
    have : x.length ≠ 0 := by have := Finset.mem_range.1 hn; omega
    rw [angle_period _ _ _ this, Real.cos_add_nat_mul_two_pi]
  · refine Finset.sum_congr rfl fun n hn => ?_
    have : x.length ≠ 0 := by have := Finset.mem_range.1 hn; omega
    rw [angle_period _ _ _ this, Real.sin_add_nat_mul_two_pi]

/-- A block of zeros has magnitude 0 at every bin. -/
theorem refMag_zero (x : List Sample) (h : ∀ e ∈ x, e.val = 0) (j) : refMag x j = 0 := by
  have hz : ∀ n, (x.map Sample.val).getD n 0 = 0 := by
    intro n
    by_cases hn : n < (x.map Sample.val).length
    · rw [List.getD_eq_getElem _ _ hn]; simp; exact h _ (List.getElem_mem _)
    · rw [List.getD_eq_default _ _ (by omega)]
  rw [refMag, dftMag, dftRe, dftIm]
  simp only [hz]
  simp

/-- Scaling the samples scales every magnitude. -/
theorem refMag_scale (x y : List Sample) (c : ℝ) (h : y.map Sample.val = x.map (fun e => c * e.val)) (j : ℤ) :
    refMag y j = |c| * refMag x j := by
  have hre : dftRe (x.map fun e => c * e.val) j = c * dftRe (x.map Sample.val) j := by
    rw [dftRe, dftRe, Finset.mul_sum, List.length_map, List.length_map]
    refine Finset.sum_congr rfl fun n hn => ?_
    have hn := Finset.mem_range.1 hn
    rw [List.getD_eq_getElem _ _ (by simpa using hn), List.getD_eq_getElem _ _ (by simpa using hn)]
    simp; ring
  have him : dftIm (x.map fun e => c * e.val) j = c * dftIm (x.map Sample.val) j := by
    rw [dftIm, dftIm, Finset.mul_sum, List.length_map, List.length_map]
    refine Finset.sum_congr rfl fun n hn => ?_
    have hn := Finset.mem_range.1 hn
    rw [List.getD_eq_getElem _ _ (by simpa using hn), List.getD_eq_getElem _ _ (by simpa using hn)]
    simp; ring
  rw [refMag, refMag, dftMag, dftMag, h, hre, him, ← Real.sqrt_sq_eq_abs, ← Real.sqrt_mul (sq_nonneg c)]
  congr 1; ring

/-- Under `NUM_REF` bins are compared by their real magnitudes. -/
theorem magLe_ref (x : List Sample) (j k : ℤ) : magLe .reference x j k = true ↔ refMag x j ≤ refMag x k := by
  simp [magLe]

/-- The order of magnitudes is total. -/
theorem magLe_total (num x) (j k : ℤ) : magLe num x j k = true ∨ magLe num x k j = true := by
  cases num
  · rw [magLe_ref, magLe_ref]; exact le_total _ _
  · simp only [magLe, decide_eq_true_eq]; exact le_total _ _

/-- The order of magnitudes is transitive. -/
theorem magLe_trans (num x) (j k l : ℤ) (h1 : magLe num x j k = true) (h2 : magLe num x k l = true) : magLe num x j l = true := by
  cases num
  · rw [magLe_ref] at *; exact h1.trans h2
  · simp only [magLe, decide_eq_true_eq] at *; exact h1.trans h2

/-- The order of magnitudes is reflexive. -/
theorem magLe_refl (num x) (j : ℤ) : magLe num x j j = true := by
  rcases magLe_total num x j j with h | h <;> exact h

/-! ### Bins and the scan -/

/-- A parameter is its value. -/
theorem Param.ext' {a b : Param} (h : a.val = b.val) : a = b := by cases a; cases b; simp_all

/-- The bins of a block (R161). -/
theorem mem_binRange (n : Nat) (j : ℤ) : j ∈ binRange n ↔ -(n / 2 : ℕ) ≤ j ∧ j ≤ ((n + 1) / 2 : ℕ) - 1 := by
  simp only [binRange, List.mem_map, List.mem_range]
  constructor
  · rintro ⟨i, hi, rfl⟩; omega
  · rintro ⟨h1, h2⟩; exact ⟨(j + (n / 2 : ℕ)).toNat, by omega, by omega⟩

/-- A bin qualifies iff it is within 10 Hz (R162). -/
theorem qualifies_iff (fc r : Param) (n : Nat) (j : ℤ) : qualifies fc r n j = true ↔ |j * r.val / n - fc.val| ≤ 10 := by
  rw [qualifies, decide_eq_true_iff]; rfl

/-- The scan goes upward (R163). -/
theorem binRange_sorted (n : Nat) : (binRange n).Pairwise (· < ·) := by
  rw [binRange, List.pairwise_map]
  refine List.Pairwise.imp ?_ List.pairwise_lt_range
  intro a b h; omega

/-- The first match in a rising list is the least one. -/
theorem find?_sorted (l : List ℤ) (hs : l.Pairwise (· < ·)) (p : ℤ → Bool) (j : ℤ) :
    l.find? p = some j ↔ j ∈ l ∧ p j = true ∧ ∀ k ∈ l, k < j → p k = false := by
  induction l with
  | nil => simp
  | cons a l ih =>
    rw [List.pairwise_cons] at hs
    rw [List.find?_cons]
    cases hp : p a
    · simp only [ih hs.2, List.mem_cons]
      constructor
      · rintro ⟨h1, h2, h3⟩
        refine ⟨.inr h1, h2, ?_⟩
        rintro k (rfl | hk) hlt
        exacts [hp, h3 k hk hlt]
      · rintro ⟨h1 | h1, h2, h3⟩
        · subst h1; rw [hp] at h2; cases h2
        · exact ⟨h1, h2, fun k hk => h3 k (.inr hk)⟩
    · simp only [Option.some.injEq, List.mem_cons]
      constructor
      · rintro rfl
        refine ⟨.inl rfl, hp, ?_⟩
        rintro k (rfl | hk) hlt
        · exact absurd hlt (lt_irrefl _)
        · exact absurd (hs.1 k hk) (not_lt.2 hlt.le)
      · rintro ⟨h1 | h1, h2, h3⟩
        · exact h1.symm
        · have := h3 a (.inl rfl) (hs.1 j h1); rw [hp] at this; cases this

/-- A rising list of integers between two rationals is short. -/
theorem rising_length (l : List ℤ) (hs : l.Pairwise (· < ·)) (a b : ℚ) (h : ∀ j ∈ l, a ≤ j ∧ (j : ℚ) ≤ b) (hab : a ≤ b) :
    (l.length : ℤ) ≤ ⌊b - a⌋ + 1 := by
  have hsub : l.toFinset ⊆ Finset.Icc ⌈a⌉ ⌊b⌋ := by
    intro j hj
    rw [Finset.mem_Icc]
    have := h j (List.mem_toFinset.1 hj)
    exact ⟨Int.ceil_le.2 this.1, Int.le_floor.2 this.2⟩
  have hcard := Finset.card_le_card hsub
  rw [List.toFinset_card_of_nodup (hs.imp fun h => ne_of_lt h), Int.card_Icc] at hcard
  have hf : ⌊b⌋ - ⌈a⌉ ≤ ⌊b - a⌋ := by
    rw [Int.le_floor]; push_cast
    have := Int.floor_le b; have := Int.le_ceil a; linarith
  have hn : 0 ≤ ⌊b - a⌋ := Int.floor_nonneg.2 (by linarith)
  omega

/-- The scan fails iff a remaining candidate has no bin, at the first such one (R164). -/
theorem scan_noBin (num m f0 f1 r) (x : List Sample) (l : List Symbol) (hs : l.Pairwise (fun u v => u.toNat < v.toNat)) (best j v) :
    scanCandidates num m f0 f1 r x l best j = .noBin v ↔
      v ∈ l ∧ candidateBin m f0 f1 r x.length v = none ∧ ∀ u ∈ l, u.toNat < v.toNat → (candidateBin m f0 f1 r x.length u).isSome := by
  induction l generalizing best j with
  | nil => simp [scanCandidates]
  | cons a l ih =>
    rw [List.pairwise_cons] at hs
    rw [scanCandidates]
    cases hb : candidateBin m f0 f1 r x.length a with
    | none =>
      simp only [SlotResult.noBin.injEq, List.mem_cons]
      constructor
      · rintro rfl
        refine ⟨.inl rfl, hb, ?_⟩
        rintro u (rfl | hu) hlt
        · exact absurd hlt (lt_irrefl _)
        · exact absurd (hs.1 u hu) (by omega)
      · rintro ⟨h1 | h1, h2, h3⟩
        · exact h1.symm
        · have := h3 a (.inl rfl) (hs.1 v h1); rw [hb] at this; cases this
    | some ja =>
      have : ∀ best j, scanCandidates num m f0 f1 r x l best j = .noBin v ↔
          v ∈ a :: l ∧ candidateBin m f0 f1 r x.length v = none ∧ ∀ u ∈ a :: l, u.toNat < v.toNat → (candidateBin m f0 f1 r x.length u).isSome := by
        intro best j
        rw [ih hs.2]
        simp only [List.mem_cons]
        constructor
        · rintro ⟨h1, h2, h3⟩
          refine ⟨.inr h1, h2, ?_⟩
          rintro u (rfl | hu) hlt
          · rw [hb]; rfl
          · exact h3 u hu hlt
        · rintro ⟨h1 | h1, h2, h3⟩
          · subst h1; rw [hb] at h2; cases h2
          · exact ⟨h1, h2, fun u hu => h3 u (.inr hu)⟩
      dsimp only
      split <;> exact this _ _

/-- Where every candidate has a bin the scan keeps the last one of greatest magnitude (R166). -/
theorem scan_symbol (num m f0 f1 r) (x : List Sample) (l : List Symbol) (hs : l.Pairwise (fun u v => u.toNat < v.toNat))
    (hb : ∀ v ∈ l, (candidateBin m f0 f1 r x.length v).isSome) (best j) (hbest : candidateBin m f0 f1 r x.length best = some j)
    (hlow : ∀ v ∈ l, best.toNat < v.toNat) :
    ∃ v ∈ best :: l, ∃ k, scanCandidates num m f0 f1 r x l best j = .symbol v ∧ candidateBin m f0 f1 r x.length v = some k ∧
      ∀ u ∈ best :: l, ∀ k', candidateBin m f0 f1 r x.length u = some k' →
        magLe num x k' k = true ∧ (v.toNat < u.toNat → magLe num x k k' = false) := by
  induction l generalizing best j with
  | nil =>
    refine ⟨best, by simp, j, rfl, hbest, ?_⟩
    intro u hu k' hk'
    simp at hu; subst hu
    rw [hbest] at hk'; cases hk'
    exact ⟨magLe_refl _ _ _, fun h => absurd h (lt_irrefl _)⟩
  | cons a l ih =>
    rw [List.pairwise_cons] at hs
    obtain ⟨ja, hja⟩ := Option.isSome_iff_exists.1 (hb a (by simp))
    have hb' : ∀ v ∈ l, (candidateBin m f0 f1 r x.length v).isSome := fun v hv => hb v (by simp [hv])
    rw [scanCandidates, hja]
    dsimp only
    by_cases hle : magLe num x j ja = true
    · rw [if_pos hle]
      obtain ⟨v, hv, k, h1, h2, h3⟩ := ih hs.2 hb' a ja hja hs.1
      refine ⟨v, by simp only [List.mem_cons] at hv ⊢; exact .inr hv, k, h1, h2, ?_⟩
      intro u hu k' hk'
      rw [List.mem_cons] at hu
      rcases hu with rfl | hu
      · rw [hbest] at hk'; cases hk'
        refine ⟨magLe_trans _ _ _ _ _ hle (h3 a (by simp) ja hja).1, fun hlt => ?_⟩
        exfalso
        have hva : v.toNat ≥ a.toNat := by
          rw [List.mem_cons] at hv
          rcases hv with rfl | hv
          · exact le_refl _
          · exact (hs.1 v hv).le
        have := hlow a (by simp)
        omega
      · exact h3 u hu k' hk'
    · rw [if_neg hle]
      have hle' : magLe num x j ja = false := by simpa using hle
      have hge : magLe num x ja j = true := (magLe_total num x j ja).resolve_left hle
      obtain ⟨v, hv, k, h1, h2, h3⟩ := ih hs.2 hb' best j hbest (fun w hw => hlow w (by simp [hw]))
      refine ⟨v, by simp only [List.mem_cons] at hv ⊢; tauto, k, h1, h2, ?_⟩
      intro u hu k' hk'
      simp only [List.mem_cons] at hu
      rcases hu with rfl | rfl | hu
      · exact h3 u (by simp) k' hk'
      · rw [hja] at hk'; cases hk'
        have hjk := (h3 best (by simp) j hbest).1
        refine ⟨magLe_trans _ _ _ _ _ hge hjk, fun hlt => ?_⟩
        by_contra hcon
        have : magLe num x k ja = true := by simpa using hcon
        exact hle (magLe_trans _ _ _ _ _ hjk this)
      · exact h3 u (by simp [hu]) k' hk'

/-- The scan reads the samples through their magnitudes only. -/
theorem scan_congr (num m f0 f1 r) (x y : List Sample) (hl : y.length = x.length) (hm : ∀ j k, magLe num y j k = magLe num x j k)
    (l best j) : scanCandidates num m f0 f1 r y l best j = scanCandidates num m f0 f1 r x l best j := by
  induction l generalizing best j with
  | nil => rfl
  | cons a l ih => simp only [scanCandidates, hl, hm, ih]

/-- No slot of a list of symbols failed. -/
theorem firstNoBin_none_of_symbols (l : List Symbol) (k) : firstNoBin (l.map .symbol) k = none := by
  induction l generalizing k with
  | nil => rfl
  | cons a l ih => exact ih _

/-- The symbols of a list of symbols. -/
theorem slotSymbols_map (l : List Symbol) : slotSymbols (l.map .symbol) = l := by
  induction l with
  | nil => rfl
  | cons a l ih => simp [slotSymbols, ih]

end Sys2Proof.Laws
end

