-- ==== Sys2Proof/Laws/Exec.lean ====
section
/-!
SUPPORT. What a command can do (`exec_outcomes`), that it reads nothing but its inputs (`exec_effect`), and what the turns of the
agents can do.
-/

namespace Sys2Proof.Laws

open Sys2Proof.Machine

/-! ### The meanings -/

/-- The up-front checks of `MODULATE` raise an error, never the code 0. -/
theorem modulateChecks_error {s : State} {e : ErrCode} {info : Word} (h : modulateChecks s = .error (e, info)) :
    e ≠ .none := by
  unfold modulateChecks at h
  repeat' split at h
  all_goals (cases h; try decide)

/-- What the up-front checks of `MODULATE` have checked (R150). -/
theorem modulateChecks_ok {s : State} {m : Mode} (h : modulateChecks s = .ok m) :
    s.srcFail = false ∧ modeOf s.mode = some m ∧ s.workers ≠ 0 ∧ s.block.minSlotLen ≤ s.slotLen := by
  unfold modulateChecks at h
  split at h
  · cases h
  rename_i hs
  split at h
  · cases h
  rename_i m' hm
  split at h
  · cases h
  rename_i hw
  split at h
  · cases h
  rename_i ht
  cases h
  exact ⟨by simpa using hs, hm, hw, by simpa [State.tooShort] using ht⟩

/-- When the up-front checks of `MODULATE` pass. -/
theorem modulateChecks_of {s : State} {m : Mode} (h1 : s.srcFail = false) (h2 : modeOf s.mode = some m) (h3 : s.workers ≠ 0)
    (h4 : s.block.minSlotLen ≤ s.slotLen) : modulateChecks s = .ok m := by
  simp only [modulateChecks, h1, h2, tooShort_false h4]
  rw [if_neg (by decide), if_neg h3]; rfl

/-- The up-front checks of `DEMODULATE` raise an error, never the code 0. -/
theorem demodulateChecks_error {s : State} {e : ErrCode} {info : Word} (h : demodulateChecks s = .error (e, info)) :
    e ≠ .none := by
  unfold demodulateChecks at h
  repeat' split at h
  all_goals (cases h; try decide)

/-- What the up-front checks of `DEMODULATE` have checked (R188). -/
theorem demodulateChecks_ok {s : State} {m : Mode} (h : demodulateChecks s = .ok m) :
    s.srcFail = false ∧ modeOf s.mode = some m ∧ s.block.minSlotLen ≤ s.slotLen := by
  unfold demodulateChecks at h
  split at h
  · cases h
  rename_i hs
  split at h
  · cases h
  rename_i m' hm
  split at h
  · cases h
  rename_i ht
  cases h
  exact ⟨by simpa using hs, hm, by simpa [State.tooShort] using ht⟩

/-- When the up-front checks of `DEMODULATE` pass. -/
theorem demodulateChecks_of {s : State} {m : Mode} (h1 : s.srcFail = false) (h2 : modeOf s.mode = some m)
    (h4 : s.block.minSlotLen ≤ s.slotLen) : demodulateChecks s = .ok m := by
  simp only [demodulateChecks, h1, h2, tooShort_false h4]; rfl

/-- All that `FREQOF` can do. -/
theorem execFreqof_inv (s : State) : Fails s (execFreqof s) ∨ ∃ v, execFreqof s = .next (s.setFres v).finishOk := by
  unfold execFreqof
  split
  · exact .inl (raise_fails _ _ _ _ (by decide))
  · split
    · exact .inr ⟨_, rfl⟩
    · exact .inl (raise_fails _ _ _ _ (by decide))

/-- All that `GENTONE` can do. -/
theorem execGentone_inv (s : State) : Fails s (execGentone s) ∨
    ∃ out, out.length ≤ s.block.capOS.val ∧ execGentone s = .next (s.setOS out).finishOk := by
  unfold execGentone
  split
  · exact .inl (raise_fails _ _ _ _ (by decide))
  · exact (finishSamples_inv s _).imp_right fun h => ⟨_, h⟩

/-- All that `MODULATE` can do. -/
theorem execModulate_inv (s : State) : Fails s (execModulate s) ∨
    ∃ out, out.length ≤ s.block.capOS.val ∧ execModulate s = .next (s.setOS out).finishOk := by
  unfold execModulate
  split
  · rename_i h; exact .inl (raise_fails _ _ _ _ (modulateChecks_error h))
  · exact (finishSamples_inv s _).imp_right fun h => ⟨_, h⟩

/-- All that `DECSLOT` can do. -/
theorem execDecslot_inv (s : State) : Fails s (execDecslot s) ∨
    ∃ v : Symbol, execDecslot s = .next (s.setRes (v.setWidth 32)).finishOk := by
  unfold execDecslot raiseTooShort
  repeat' split
  all_goals first
    | exact .inl (raise_fails _ _ _ _ (by decide))
    | exact .inr ⟨_, rfl⟩

/-- All that the finish of `DEMODULATE` can do. -/
theorem finishDemodulate_inv (s : State) (m : Mode) (results : List SlotResult) : Fails s (finishDemodulate s m results) ∨
    ∃ out, out.length ≤ s.block.capOB.val ∧ finishDemodulate s m results = .next (s.setOB out).finishOk := by
  unfold finishDemodulate
  split
  · exact .inl (raise_fails _ _ _ _ (by decide))
  · exact (finishBytes_inv s _).imp_right fun h => ⟨_, h⟩

/-- All that `DEMODULATE` can do. -/
theorem execDemodulate_inv (s : State) : Fails s (execDemodulate s) ∨
    ∃ out, out.length ≤ s.block.capOB.val ∧ execDemodulate s = .next (s.setOB out).finishOk := by
  unfold execDemodulate
  split
  · rename_i h; exact .inl (raise_fails _ _ _ _ (demodulateChecks_error h))
  · exact finishDemodulate_inv s _ _

/-- All that `EXPAND` can do. -/
theorem execExpand_inv (s : State) : Fails s (execExpand s) ∨
    ∃ out, out.length ≤ s.block.capOB.val ∧ execExpand s = .next (s.setOB out).finishOk := by
  unfold execExpand
  split
  · exact .inl (raise_fails _ _ _ _ (by decide))
  · split
    · exact .inl (raise_fails _ _ _ _ (by decide))
    · exact (finishBytes_inv s _).imp_right fun h => ⟨_, h⟩

/-- All that `PACK` can do. -/
theorem execPack_inv (s : State) : Fails s (execPack s) ∨
    ∃ out, out.length ≤ s.block.capOB.val ∧ execPack s = .next (s.setOB out).finishOk := by
  unfold execPack
  split
  · exact .inl (raise_fails _ _ _ _ (by decide))
  · split
    · exact .inl (raise_fails _ _ _ _ (by decide))
    · split
      · exact .inl (raise_fails _ _ _ _ (by decide))
      · exact (finishBytes_inv s _).imp_right fun h => ⟨_, h⟩

/-- Everything a command can do: fail, or write its own outputs. -/
theorem exec_cases (i : Instr) (s : State) :
    Fails s (exec i s) ∨
    (i = .freqof ∧ ∃ v, exec i s = .next (s.setFres v).finishOk) ∨
    (i = .decslot ∧ ∃ v : Symbol, exec i s = .next (s.setRes (v.setWidth 32)).finishOk) ∨
    ((i = .gentone ∨ i = .modulate) ∧ ∃ out, out.length ≤ s.block.capOS.val ∧ exec i s = .next (s.setOS out).finishOk) ∨
    ((i = .demodulate ∨ i = .expand ∨ i = .pack) ∧ ∃ out, out.length ≤ s.block.capOB.val ∧ exec i s = .next (s.setOB out).finishOk) := by
  cases i with
  | freqof => exact (execFreqof_inv s).imp_right fun h => .inl ⟨rfl, h⟩
  | gentone => exact (execGentone_inv s).imp_right fun h => .inr (.inr (.inl ⟨.inl rfl, h⟩))
  | modulate => exact (execModulate_inv s).imp_right fun h => .inr (.inr (.inl ⟨.inr rfl, h⟩))
  | decslot => exact (execDecslot_inv s).imp_right fun h => .inr (.inl ⟨rfl, h⟩)
  | demodulate => exact (execDemodulate_inv s).imp_right fun h => .inr (.inr (.inr ⟨.inl rfl, h⟩))
  | expand => exact (execExpand_inv s).imp_right fun h => .inr (.inr (.inr ⟨.inr (.inl rfl), h⟩))
  | pack => exact (execPack_inv s).imp_right fun h => .inr (.inr (.inr ⟨.inr (.inr rfl), h⟩))

/-! ### What a command reads -/

/-- The two states agree on everything a command reads (R65). -/
structure SameInputs (s s' : State) : Prop where
  mode : s'.mode = s.mode
  freq0 : s'.freq0 = s.freq0
  freq1 : s'.freq1 = s.freq1
  symdur : s'.symdur = s.symdur
  srate : s'.srate = s.srate
  workers : s'.workers = s.workers
  srcFail : s'.srcFail = s.srcFail
  sinkFail : s'.sinkFail = s.sinkFail
  arg : s'.arg = s.arg
  farg : s'.farg = s.farg
  ib : s'.mem.ib = s.mem.ib
  is : s'.mem.is = s.mem.is
  block : s'.block = s.block

/-- What a command does to a state. -/
inductive Effect where
  | fail (e : ErrCode) (info idx : Word)
  | fres (v : Param)
  | res (v : Word)
  | os (out : List Sample)
  | ob (out : List Byte)

/-- The state after an effect. -/
def Effect.apply (s : State) : Effect → State
  | .fail e info idx => s.finishError e info idx
  | .fres v => (s.setFres v).finishOk
  | .res v => (s.setRes v).finishOk
  | .os out => (s.setOS out).finishOk
  | .ob out => (s.setOB out).finishOk

/-- The effects each command can have. -/
def Effect.fits (i : Instr) (s : State) : Effect → Prop
  | .fail e _ _ => e ≠ .none
  | .fres _ => i = .freqof
  | .res v => i = .decslot ∧ v.toNat ≤ 255
  | .os out => (i = .gentone ∨ i = .modulate) ∧ out.length ≤ s.block.capOS.val
  | .ob out => (i = .demodulate ∨ i = .expand ∨ i = .pack) ∧ out.length ≤ s.block.capOB.val

/-- A state agrees with itself. -/
theorem SameInputs.refl (s : State) : SameInputs s s := ⟨rfl, rfl, rfl, rfl, rfl, rfl, rfl, rfl, rfl, rfl, rfl, rfl, rfl⟩

/-- The slot length is an input. -/
theorem SameInputs.slotLen {s s' : State} (h : SameInputs s s') : s'.slotLen = s.slotLen := by
  simp only [State.slotLen, h.srate, h.symdur, h.block]

/-- The `DurationTooShort` test is an input. -/
theorem SameInputs.tooShort {s s' : State} (h : SameInputs s s') : s'.tooShort = s.tooShort := by
  simp only [State.tooShort, h.slotLen, h.block]

/-- The blocks of the slots are inputs. -/
theorem SameInputs.slotBlock {s s' : State} (h : SameInputs s s') (k) : s'.slotBlock k = s.slotBlock k := by
  simp only [State.slotBlock, h.slotLen, h.is]

/-- The result of a slot depends on inputs only. -/
theorem SameInputs.decodeSlot {s s' : State} (h : SameInputs s s') (m k) : s'.decodeSlot m k = s.decodeSlot m k := by
  simp only [State.decodeSlot, h.slotBlock, h.block, h.freq0, h.freq1, h.srate]

/-- The results of the slots depend on inputs only. -/
theorem SameInputs.decodeSlots {s s' : State} (h : SameInputs s s') (m) : s'.decodeSlots m = s.decodeSlots m := by
  simp only [State.decodeSlots, State.slotCount, h.is, h.slotLen]
  exact List.map_congr_left fun k _ => h.decodeSlot m k

/-- The checks of `MODULATE` depend on inputs only. -/
theorem SameInputs.modulateChecks {s s' : State} (h : SameInputs s s') : modulateChecks s' = modulateChecks s := by
  simp only [Sys2Proof.Machine.modulateChecks, h.srcFail, h.mode, h.workers, h.tooShort, h.slotLen]

/-- The checks of `DEMODULATE` depend on inputs only. -/
theorem SameInputs.demodulateChecks {s s' : State} (h : SameInputs s s') : demodulateChecks s' = demodulateChecks s := by
  simp only [Sys2Proof.Machine.demodulateChecks, h.srcFail, h.mode, h.tooShort, h.slotLen]

/-- The effective worker count is an input. -/
theorem SameInputs.workerCount {s s' : State} (h : SameInputs s s') : s'.workerCount = s.workerCount := by
  simp only [State.workerCount, h.workers, h.block]

/-- The slot count is an input. -/
theorem SameInputs.slotCount {s s' : State} (h : SameInputs s s') : s'.slotCount = s.slotCount := by
  simp only [State.slotCount, h.is, h.slotLen]

/-- The mode is an input. -/
theorem SameInputs.flightMode {s s' : State} (h : SameInputs s s') : s'.flightMode = s.flightMode := by
  simp only [State.flightMode, h.mode]

/-- A staged tone depends on inputs only. -/
theorem SameInputs.stageTone {s s' : State} (h : SameInputs s s') (y k) : s'.stageTone y k = s.stageTone y k := by
  simp only [State.stageTone, h.block, h.flightMode, h.freq0, h.freq1, h.srate, h.slotLen]

/-- The work of a command depends on inputs only. -/
theorem SameInputs.startWork {s s' : State} (h : SameInputs s s') (i) : startWork i s' = startWork i s := by
  cases i <;> simp only [Sys2Proof.Machine.startWork, h.modulateChecks, h.demodulateChecks, h.ib, h.workerCount, h.slotCount]

/-- A worker step depends on inputs only. -/
theorem SameInputs.workerStep {s s' : State} (h : SameInputs s s') (w : Work) (n) : w.workerStep s' n = w.workerStep s n := by
  cases w <;> simp only [Work.workerStep, h.stageTone, h.decodeSlot, h.flightMode]

/-- Coherence depends on inputs only. -/
theorem SameInputs.coherent {s s' : State} (h : SameInputs s s') (i w) : Work.Coherent s' i w ↔ Work.Coherent s i w := by
  simp only [Work.Coherent, h.startWork, h.stageTone, h.decodeSlot, h.flightMode]

/-- `finishBytes` has one effect on states that agree. -/
theorem finishBytes_effect {s s' : State} (h : SameInputs s s') (i) (hi : i = .demodulate ∨ i = .expand ∨ i = .pack) (out) :
    ∃ f : Effect, f.fits i s ∧ finishBytes s out = .next (f.apply s) ∧ finishBytes s' out = .next (f.apply s') := by
  unfold finishBytes
  rw [h.sinkFail, h.block]
  split
  · exact ⟨.fail .sinkUnavailable _ _, by simp [Effect.fits], rfl, rfl⟩
  · rename_i hc; simp at hc
    exact ⟨.ob out, ⟨hi, hc.2⟩, rfl, rfl⟩

/-- `finishSamples` has one effect on states that agree. -/
theorem finishSamples_effect {s s' : State} (h : SameInputs s s') (i) (hi : i = .gentone ∨ i = .modulate) (out) :
    ∃ f : Effect, f.fits i s ∧ finishSamples s out = .next (f.apply s) ∧ finishSamples s' out = .next (f.apply s') := by
  unfold finishSamples
  rw [h.sinkFail, h.block]
  split
  · exact ⟨.fail .sinkUnavailable _ _, by simp [Effect.fits], rfl, rfl⟩
  · rename_i hc; simp at hc
    exact ⟨.os out, ⟨hi, hc.2⟩, rfl, rfl⟩

/-- `raise` has one effect on all states. -/
theorem raise_effect (i : Instr) (s s' : State) (e info idx) (h : e ≠ ErrCode.none) :
    ∃ f : Effect, f.fits i s ∧ raise s e info idx = .next (f.apply s) ∧ raise s' e info idx = .next (f.apply s') :=
  ⟨.fail e info idx, h, rfl, rfl⟩

/-- A command has one effect on all states that agree on its inputs, an effect that fits it. -/
theorem exec_effect {s s' : State} (h : SameInputs s s') (i : Instr) :
    ∃ f : Effect, f.fits i s ∧ exec i s = .next (f.apply s) ∧ exec i s' = .next (f.apply s') := by
  cases i with
  | freqof =>
    simp only [exec, execFreqof, h.mode, h.arg, h.freq0, h.freq1]
    split
    · exact raise_effect _ _ _ _ _ _ (by decide)
    · split
      · exact ⟨.fres _, rfl, rfl, rfl⟩
      · exact raise_effect _ _ _ _ _ _ (by decide)
  | gentone =>
    simp only [exec, execGentone, h.tooShort, raiseTooShort, h.slotLen, h.block, h.farg, h.srate]
    split
    · exact raise_effect _ _ _ _ _ _ (by decide)
    · exact finishSamples_effect h _ (.inl rfl) _
  | modulate =>
    simp only [exec, execModulate, h.modulateChecks, h.slotLen, h.block, h.freq0, h.freq1, h.srate, State.workerCount, h.workers, h.ib]
    split
    · rename_i hc; exact raise_effect _ _ _ _ _ _ (modulateChecks_error hc)
    · exact finishSamples_effect h _ (.inr rfl) _
  | decslot =>
    simp only [exec, execDecslot, h.srcFail, h.mode, h.tooShort, raiseTooShort, h.slotLen, h.is, h.arg, State.avail, h.decodeSlot]
    split
    · exact raise_effect _ _ _ _ _ _ (by decide)
    · split
      · exact raise_effect _ _ _ _ _ _ (by decide)
      · split
        · exact raise_effect _ _ _ _ _ _ (by decide)
        · split
          · exact raise_effect _ _ _ _ _ _ (by decide)
          · split
            · exact raise_effect _ _ _ _ _ _ (by decide)
            · exact ⟨.res _, ⟨rfl, symbol_le _⟩, rfl, rfl⟩
  | demodulate =>
    simp only [exec, execDemodulate, h.demodulateChecks, h.decodeSlots, finishDemodulate]
    split
    · rename_i hc; exact raise_effect _ _ _ _ _ _ (demodulateChecks_error hc)
    · split
      · exact raise_effect _ _ _ _ _ _ (by decide)
      · exact finishBytes_effect h _ (.inl rfl) _
  | expand =>
    simp only [exec, execExpand, h.srcFail, h.mode, h.ib]
    split
    · exact raise_effect _ _ _ _ _ _ (by decide)
    · split
      · exact raise_effect _ _ _ _ _ _ (by decide)
      · exact finishBytes_effect h _ (.inr (.inl rfl)) _
  | pack =>
    simp only [exec, execPack, h.srcFail, h.mode, h.ib]
    split
    · exact raise_effect _ _ _ _ _ _ (by decide)
    · split
      · exact raise_effect _ _ _ _ _ _ (by decide)
      · split
        · exact raise_effect _ _ _ _ _ _ (by decide)
        · exact finishBytes_effect h _ (.inr (.inr rfl)) _

/-- An effect leaves the inputs alone. -/
theorem apply_same (s : State) (f : Effect) : SameInputs s (f.apply s) := by
  cases f <;> exact ⟨rfl, rfl, rfl, rfl, rfl, rfl, rfl, rfl, rfl, rfl, rfl, rfl, rfl⟩

/-- An effect taken twice is taken once. -/
theorem apply_idem (s : State) (f : Effect) : f.apply (f.apply s) = f.apply s := by
  cases f <;> rfl

/-- An effect leaves the block's parameters alone. -/
theorem apply_block (g : Effect) (s) : (g.apply s).block = s.block := by cases g <;> rfl

/-- An effect leaves the script alone. -/
theorem apply_script (g : Effect) (s : State) (q) : g.apply (s.withScript q) = (g.apply s).withScript q := by cases g <;> rfl

/-! ### Turns of the agents -/

/-- All the work a command can have before its finish step. -/
theorem startWork_cases (i : Instr) (s : State) :
    startWork i s = .unit ∨
    (i = .modulate ∧ ∃ m, modulateChecks s = .ok m ∧ startWork i s = .encode (expand s.mem.ib m) s.workerCount
      (chunkTable (expand s.mem.ib m).length s.workerCount) (List.replicate (expand s.mem.ib m).length none)) ∨
    (i = .demodulate ∧ ∃ m, demodulateChecks s = .ok m ∧ startWork i s = .decode s.slotCount (List.replicate s.slotCount none)) := by
  cases i
  case modulate =>
    cases hc : modulateChecks s with
    | error e => exact .inl (by simp only [startWork, hc])
    | ok m => exact .inr (.inl ⟨rfl, m, rfl, by simp only [startWork, hc]⟩)
  case demodulate =>
    cases hc : demodulateChecks s with
    | error e => exact .inl (by simp only [startWork, hc])
    | ok m => exact .inr (.inr ⟨rfl, m, rfl, by simp only [startWork, hc]⟩)
  all_goals exact .inl rfl

/-- All that a worker's turn can do. -/
theorem workerTurn_cases (s : State) (n : Nat) : s.workerTurn n = s ∨
    ∃ f w, s.inFlight = some f ∧ f.work.workerStep s n = some w ∧ s.workerTurn n = { s with inFlight := some ⟨f.cmd, w⟩ } := by
  unfold State.workerTurn
  split
  · exact .inl rfl
  · rename_i f hf
    split
    · exact .inl rfl
    · rename_i w hw; exact .inr ⟨f, w, hf, hw, rfl⟩

/-- A worker's turn changes the `InFlight` record only (R67). -/
theorem workerTurn_same (s : State) (n : Nat) :
    ∃ fl, s.workerTurn n = { s with inFlight := fl } ∧ (s.busy = true → fl.isSome = true) ∧ (s.inFlight = none → fl = none) := by
  unfold State.workerTurn
  split
  · rename_i h; exact ⟨none, by cases s; simp_all, by simp [State.busy, h], by simp⟩
  · rename_i f h
    split
    · exact ⟨some f, by cases s; simp_all, by simp, by simp [h]⟩
    · exact ⟨_, rfl, by simp, by simp [h]⟩

/-- The finish of a command in flight has one effect on states that agree. -/
theorem finishFlight_effect {s s' : State} (h : SameInputs s s') (f : InFlight) :
    ∃ g : Effect, s.finishFlight f = .next (g.apply s) ∧ s'.finishFlight f = .next (g.apply s') := by
  unfold State.finishFlight
  split
  · obtain ⟨g, _, h1, h2⟩ := exec_effect h f.cmd; exact ⟨g, h1, h2⟩
  · obtain ⟨g, _, h1, h2⟩ := finishSamples_effect h .modulate (.inr rfl) _; exact ⟨g, h1, h2⟩
  · rw [h.flightMode]
    unfold finishDemodulate
    split
    · exact ⟨.fail _ _ _, rfl, rfl⟩
    · obtain ⟨g, _, h1, h2⟩ := finishBytes_effect h .demodulate (.inl rfl) _; exact ⟨g, h1, h2⟩

/-- The `InFlight` record is no input. -/
theorem same_flight (s : State) (fl) : SameInputs s { s with inFlight := fl } := ⟨rfl, rfl, rfl, rfl, rfl, rfl, rfl, rfl, rfl, rfl, rfl, rfl, rfl⟩

/-- Acceptance leaves the inputs alone. -/
theorem same_begin (s : State) (i) : SameInputs s (s.begin i) := ⟨rfl, rfl, rfl, rfl, rfl, rfl, rfl, rfl, rfl, rfl, rfl, rfl, rfl⟩

/-- The script is no input. -/
theorem same_script (s : State) (sc) : SameInputs s (s.withScript sc) := ⟨rfl, rfl, rfl, rfl, rfl, rfl, rfl, rfl, rfl, rfl, rfl, rfl, rfl⟩

/-- The join is reached iff no worker step is left (R73). -/
theorem complete_iff (w : Work) : w.complete = true ↔ w.remaining = 0 := by
  cases w with
  | unit => simp [Work.complete, Work.remaining]
  | encode y k chunks stage =>
    simp only [Work.complete, Work.remaining, List.all_eq_true, decide_eq_true_eq, List.sum_eq_zero_iff, List.mem_map, forall_exists_index, and_imp, forall_apply_eq_imp_iff₂]
    exact forall₂_congr fun c _ => by omega
  | decode k stage =>
    simp only [Work.complete, Work.remaining, List.all_eq_true, List.countP_eq_zero]
    exact forall₂_congr fun c _ => by cases c <;> simp

/-- The mode of a command in flight. -/
theorem flightMode_of {s : State} {m} (h : modeOf s.mode = some m) : s.flightMode = m := by simp [State.flightMode, h]

/-! ### A step, by the next line of the script -/

/-- With nothing scheduled the block goes on by itself. -/
theorem step_of_nil {s : State} (h : s.script = []) : step s = idleTurn s := by simp only [step, h]

/-- An event. -/
theorem step_of_event {s : State} {e : Event} {rest : List Line} (h : s.script = .event e :: rest) :
    step s = runEvent (s.withScript rest) e := by simp only [step, h, runLine]

/-- A `WAIT` that finds `DONE = 1` is over (R101). -/
theorem step_of_wait_done {s : State} {rest : List Line} (h : s.script = .wait :: rest) (hd : s.done = true) :
    step s = .next (s.withScript rest).pollStatus := by
  simp only [step, h, runLine, waitTurn]
  exact if_pos hd

/-- A `WAIT` that finds `DONE = 0` stays, and the block goes on by itself (R101). -/
theorem step_of_wait_busy {s : State} {rest : List Line} (h : s.script = .wait :: rest) (hd : s.done = false) :
    step s = idleTurn s.pollStatus := by
  have e : (s.withScript rest).pollStatus.withScript (.wait :: rest) = s.pollStatus := by
    rw [← h]; rfl
  simp only [step, h, runLine, waitTurn]
  exact (if_neg (by simp [hd])).trans (congrArg idleTurn e)

/-- The caller's look at `STATUS.ERR` (R102). -/
theorem step_of_result {s : State} {t : Txn} {rest : List Line} (h : s.script = .result t :: rest) :
    step s = .next (resultTurn (s.withScript rest) t) := by simp only [step, h, runLine]

end Sys2Proof.Laws
end

