-- ==== Sys2Proof/Laws/PerInstr.lean ====
section
/-!
SUPPORT. Facts about every command as syntax, one lemma per constructor.
-/

/-- The two fields of a command's word (R93), and the table row its code names (R95). -/
def Sys2Proof.Laws.TableRow.Statement (i : Instr) : Prop :=
  i.wf = true ∧ zeroField (encode i) = 0#24 ∧ opcField (encode i) = opcOf i ∧ opcTable (opcOf i).toNat = some i

theorem Sys2Proof.Laws.TableRow.freqof : TableRow.Statement .freqof := by unfold TableRow.Statement; decide

theorem Sys2Proof.Laws.TableRow.gentone : TableRow.Statement .gentone := by unfold TableRow.Statement; decide

theorem Sys2Proof.Laws.TableRow.modulate : TableRow.Statement .modulate := by unfold TableRow.Statement; decide

theorem Sys2Proof.Laws.TableRow.decslot : TableRow.Statement .decslot := by unfold TableRow.Statement; decide

theorem Sys2Proof.Laws.TableRow.demodulate : TableRow.Statement .demodulate := by unfold TableRow.Statement; decide

theorem Sys2Proof.Laws.TableRow.expand : TableRow.Statement .expand := by unfold TableRow.Statement; decide

theorem Sys2Proof.Laws.TableRow.pack : TableRow.Statement .pack := by unfold TableRow.Statement; decide
end

