-- ==== Sys2Proof/Tests/Slice0.lean ====
section
/-!
SUPPORT. The model's own tests: decoding, well-formedness, at most two small steps per command with results from the spec's
vectors (`95_test_vectors.md`), and for every statement that has hypotheses a witness that meets them, clause by clause.
-/

namespace Sys2Proof.Tests

open Sys2Proof.Machine

/-! ### Decoding: words written out bit by bit (R93, R95), and words that are no command (R99, V30-1 to V30-4) -/

theorem test_decode_freqof : decode 0b00000000000000000000000000000001#32 = .ok .freqof := by decide
theorem test_decode_gentone : decode 0b00000000000000000000000000000010#32 = .ok .gentone := by decide
theorem test_decode_modulate : decode 0b00000000000000000000000000000011#32 = .ok .modulate := by decide
theorem test_decode_decslot : decode 0b00000000000000000000000000000100#32 = .ok .decslot := by decide
theorem test_decode_demodulate : decode 0b00000000000000000000000000000101#32 = .ok .demodulate := by decide
theorem test_decode_expand : decode 0b00000000000000000000000000000110#32 = .ok .expand := by decide
theorem test_decode_pack : decode 0b00000000000000000000000000000111#32 = .ok .pack := by decide

theorem test_decode_reserved_opc :
    decode 0x00000000#32 = .error .reservedOpc ∧ decode 0x00000008#32 = .error .reservedOpc ∧
      decode 0x000000FF#32 = .error .reservedOpc := by decide

theorem test_decode_zero_field :
    decode 0x00000103#32 = .error .zeroFieldSet ∧ decode 0x80000001#32 = .error .zeroFieldSet ∧
      decode 0xFFFFFFFF#32 = .error .zeroFieldSet := by decide

theorem test_decode_table_word :
    decodeTableWord 32 1 = some .freqof ∧ decodeTableWord 32 7 = some .pack ∧ decodeTableWord 32 0x107 = none := by decide

/-! ### WellFormed: an ill-formed word for each check -/

theorem test_wf_accepts : CommandWord.wf 0x00000001#32 = true ∧ CommandWord.wf 0x00000007#32 = true := by decide
theorem test_wf_refuses_opc :
    CommandWord.opcOk 0x00000000#32 = false ∧ CommandWord.opcOk 0x00000008#32 = false ∧
      CommandWord.wf 0x00000008#32 = false := by decide
theorem test_wf_refuses_zero :
    CommandWord.zeroOk 0x00000103#32 = false ∧ CommandWord.wf 0x00000103#32 = false ∧
      CommandWord.wf 0x80000003#32 = false := by decide

/-! ### Small states and how a result is looked at -/

/-- A block with `NUM_REF`, `MIN_SLOT_LEN = 1`, four workers and small buffers. -/
def block : Params := ⟨0, 3, .reference, .halfEven, 100, 100, 100, 100⟩

/-- The parameters of V43-11: Bit mode, 100 Hz and 200 Hz, `N = 8` at 800 Hz. -/
def par : State :=
  { State.reset with block := block, freq0 := .frac 100 1, freq1 := .frac 200 1, symdur := .frac 1 100,
                     srate := .frac 800 1, farg := .frac 100 1 }

/-- One-sample slots at 1 Hz, both candidates at 0 Hz. -/
def one : State := { State.reset with block := block, symdur := .frac 1 1, srate := .frac 1 1 }

/-- With `IB` loaded. -/
def withIB (s : State) (b : List Byte) : State := { s with mem := { s.mem with ib := b } }

/-- With `IS` loaded. -/
def withIS (s : State) (x : List Sample) : State := { s with mem := { s.mem with is := x } }

/-- A next state with a property. -/
def leads (r : Result) (p : State → Bool) : Bool :=
  match r with
  | .next t => p t
  | .fault _ => false
  | .refused _ => false

theorem exists_of_leads {r : Result} {p : State → Bool} (h : leads r p = true) : ∃ t, r = .next t ∧ p t = true := by
  cases r with
  | next t => exact ⟨t, rfl, h⟩
  | fault f => cases h
  | refused f => cases h

/-- The samples of a tone at `f` hertz of the small parameters. -/
def smallTone (f : Nat) : List Sample := tone .reference (.frac f 1) (.frac 800 1) 8

/-! ### The commands, on the spec's vectors -/

/-- V40-3. -/
theorem test_freqof : leads
    (exec .freqof { State.reset with mode := 1, freq0 := .frac 1000 1, freq1 := .frac 13750 1, arg := 165 }) (fun t => decide (t.fres.val = 9250 ∧ t.readWord .status = 2)) = true := by decide +kernel

/-- V40-7. -/
theorem test_freqof_symbol : leads (exec .freqof { State.reset with arg := 2 })
    (fun t => decide (t.readWord .status = 6 ∧ t.readWord .errcode = 3 ∧ t.errinfo = 2 ∧ t.fres.val = 0)) = true := by
  decide +kernel

/-- V41-8: 0, √2/2, 1, √2/2, 0, −√2/2, −1, −√2/2, each a sine of a whole number of eighth turns. -/
theorem test_gentone : leads (exec .gentone par) (fun t => decide (t.mem.os =
    [[], [(1, 1/8)], [(1, 1/4)], [(1, 1/8)], [], [(-1, 1/8)], [(-1, 1/4)], [(-1, 1/8)]].map Sample.sum ∧
    t.osrate.val = 800)) = true := by decide +kernel

/-- V41-10, straight after reset. -/
theorem test_gentone_after_reset : leads (exec .gentone State.reset)
    (fun t => decide (t.readWord .status = 6 ∧ t.readWord .errcode = 4 ∧ t.errinfo = 0)) = true := by decide

/-- V42-1 and V42-2 at the small parameters, with three workers: chunks of 2, 2 and 4 symbols. -/
theorem test_modulate : leads (exec .modulate (withIB { par with workers := 3 } [0xA5])) (fun t => decide (t.mem.os =
    smallTone 200 ++ smallTone 100 ++ smallTone 200 ++ smallTone 100 ++ smallTone 100 ++ smallTone 200 ++ smallTone 100 ++
      smallTone 200)) = true := by decide +kernel

/-- V60-3. -/
theorem test_modulate_priority : leads (exec .modulate (withIB { State.reset with sinkFail := true, workers := 0 } [0xA5]))
    (fun t => decide (t.readWord .errcode = 0x82)) = true := by decide

/-- V43-11. -/
theorem test_decslot : leads (exec .decslot (withIS par (smallTone 100))) (fun t => decide (t.readWord .status = 2 ∧ t.res = 0)) = true := by
  decide +kernel

/-- V43-4 and V43-14 at the small parameters: silence decodes to the last candidate, a partial slot not at all. -/
theorem test_decslot_tie : leads (exec .decslot (withIS par (List.replicate 8 (.ofRat 0)))) (fun t => decide (t.res = 1)) = true ∧
    leads (exec .decslot (withIS { par with arg := 1 } (List.replicate 13 (.ofRat 0))))
      (fun t => decide (t.readWord .errcode = 5 ∧ t.errinfo = 5 ∧ t.erridx = 1)) = true := by decide +kernel

/-- V44-2 at the small parameters. -/
theorem test_demodulate : leads (exec .demodulate (withIS par
    (smallTone 200 ++ smallTone 100 ++ smallTone 200 ++ smallTone 100 ++ smallTone 100 ++ smallTone 200 ++ smallTone 100 ++
      smallTone 200))) (fun t => decide (t.mem.ob = [0xA5])) = true := by decide +kernel

/-- V44-12: candidate 0 has no bin. -/
theorem test_demodulate_no_bin : leads (exec .demodulate (withIS { par with freq0 := .frac 150 1 } (smallTone 200)))
    (fun t => decide (t.readWord .errcode = 0x81 ∧ t.errinfo = 0 ∧ t.erridx = 0)) = true := by decide +kernel

/-- V45-1. -/
theorem test_expand : leads (exec .expand (withIB { State.reset with block := block } [0xA5]))
    (fun t => decide (t.mem.ob = [1, 0, 1, 0, 0, 1, 0, 1])) = true := by decide

/-- V45-15 at the small parameters. -/
theorem test_expand_sink : leads (exec .expand (withIB { State.reset with block := block } (List.replicate 13 0)))
    (fun t => decide (t.readWord .errcode = 6 ∧ t.errinfo = 104 ∧ t.mem.ob = [])) = true := by decide +kernel

/-- V45-7: two symbols dropped. -/
theorem test_pack : leads (exec .pack (withIB { State.reset with block := block } [1, 0, 1, 0, 0, 1, 0, 1, 1, 1]))
    (fun t => decide (t.mem.ob = [0xA5])) = true := by decide

/-- V45-11: the dropped tail is checked. -/
theorem test_pack_symbol : leads (exec .pack (withIB { State.reset with block := block } [1, 0, 1, 0, 0, 1, 0, 1, 9]))
    (fun t => decide (t.readWord .errcode = 3 ∧ t.errinfo = 9 ∧ t.erridx = 8)) = true := by decide

/-! ### Steps -/

/-- The next transaction runs a fetched word; a word that is no command is `IllegalCommand` (V30-2). -/
theorem test_step : leads (step (State.reset.withFetchWord 32 1)) (fun t => decide (t.readWord .status = 2)) = true ∧
    leads (step (State.reset.withFetchWord 32 8))
      (fun t => decide (t.readWord .status = 6 ∧ t.readWord .errcode = 0x80 ∧ t.errinfo = 8)) = true := by decide

/-- V30-6 and V30-7. -/
theorem test_register_writes :
    leads (runEvents [.host (.wrWord .slotlen 5), .host (.wrWord .status 0), .host (.wrReserved 0 1),
      .host (.wrWord .hostif 0xFFFFFFFF), .host (.rd (.word .hostif)), .host (.rd (.reserved 977))] State.reset)
      (fun t => decide (t.replies = [.reg (.word 3), .reg (.word 0)])) = true := by decide

/-- The encodings of program P2's lines (R101): `WR MODE, 1`, `CMD FREQOF`, `RD FRES`. -/
theorem test_line_codes :
    (Txn.wrWord .mode 1).code = some (.write 0 (.word 1)) ∧ (cmdLine .whole .freqof).code = some (.write 8 (.word 1)) ∧
      (Txn.rd (.param .fres)).code = some (.read 16) ∧ Txn.readB.code = none := by decide

/-- `WAIT` on a busy block reads `STATUS` with `BUSY = 1` and waits on, on a finished one it reads 2 and is over (R101). -/
theorem test_wait :
    leads (step { one.begin .freqof with script := [.wait] })
      (fun t => decide (t.replies = [.reg (.word 1)] ∧ t.script = [.wait] ∧ t.done = true)) = true ∧
    leads (step { one with done := true, script := [.wait] })
      (fun t => decide (t.replies = [.reg (.word 2)] ∧ t.script = [])) = true := by decide

/-- The look at `STATUS.ERR` (R102): with an error `ERRCODE` is read next, without one the result. -/
theorem test_result :
    leads (step { one with done := true, err := true, errcode := .invalidMode, script := [.result .readB] })
      (fun t => decide (t.replies = [.reg (.word 6)] ∧ t.script = [.event (.host (.rd (.word .errcode)))])) = true ∧
    leads (step { one with done := true, script := [.result .readB] })
      (fun t => decide (t.replies = [.reg (.word 2)] ∧ t.script = [.event (.host .readB)])) = true := by decide

/-- A named sample is copied as it is, and silence beside it decodes by its own slot (R63, R169). -/
theorem test_named_sample : leads (runEvent one (.host (.loadS (.frac 1 1) [.named 7, .sum []])))
    (fun t => decide (t.mem.is = [.named 7, .sum []])) = true ∧
    leads (exec .decslot (withIS { one with arg := 1 } [.named 7, .sum []]))
      (fun t => decide (t.readWord .status = 2 ∧ t.res = 1)) = true := by decide +kernel

/-! ### Witnesses: for each statement with hypotheses, states and operands that meet them, clause by clause -/

/-- A block with a command in flight. -/
def busyState : State := one.begin .freqof

/-- Eight zero samples: one slot of the small parameters. -/
def silence : List Sample := List.replicate 8 (.sum [])

/-- The scenario byte loaded, at one sample per slot. -/
def oneA5 : State := withIB one [0xA5]

theorem witness_EncodedCommandsDecodeBack : Instr.freqof.wf = true ∧ Instr.pack.wf = true := by decide

theorem witness_StepRunsTheDecodedCommand :
    (({ par with script := [.event (.host (.wrWord .cmd 3))] } : State).inFlight = none ∧
      ({ par with script := [.event (.host (.wrWord .cmd 3))] } : State).script = .event (.host (.wrWord .cmd 3)) :: [] ∧
      decode 3 = .ok .modulate) ∧
    decode (BitVec.ofNat 32 (7 % 2 ^ 32)) = .ok .pack := by decide

theorem witness_CommandAcceptance :
    busyState.busy = true ∧
    (par.busy = false ∧ (1 : Word).extractLsb' 8 24 = 0#24 ∧ 1 ≤ ((1 : Word).extractLsb' 0 8).toNat ∧
      ((1 : Word).extractLsb' 0 8).toNat ≤ 7) ∧
    ((7 : Word).extractLsb' 8 24 = 0#24 ∧ 1 ≤ ((7 : Word).extractLsb' 0 8).toNat ∧ ((7 : Word).extractLsb' 0 8).toNat ≤ 7) ∧
    ((0x101 : Word).extractLsb' 8 24 ≠ 0#24 ∧ ((0 : Word).extractLsb' 0 8).toNat = 0 ∧
      8 ≤ ((8 : Word).extractLsb' 0 8).toNat) := by decide

theorem witness_BusyBlockIgnoresWritesAndShowsOldValues :
    (busyState.busy = true ∧ (Txn.wrReserved 0 1).ignoredWhenBusy = true) ∧
    (oneA5.busy = false ∧ ∃ t, runEvents (.accept (encode .modulate) :: [0, 0].map .worker) oneA5 = .next t ∧
      t.busy = true) := by
  exact ⟨by decide, rfl, exists_of_leads (by decide +kernel)⟩

theorem witness_ResetGivesTheResetValues :
    State.reset = State.reset ∧ ∃ t, runEvent busyState (.host .reset) = .next t := ⟨rfl, _, rfl⟩

theorem witness_IdleBlockTakesRegisterWrites :
    par.busy = false ∧ WordReg.status ≠ .mode ∧ WordReg.status ≠ .workers ∧ WordReg.status ≠ .arg ∧
      WordReg.status ≠ .hostif ∧ WordReg.status ≠ .cmd := by decide

theorem witness_DerivedRegistersReadAsTheSpecSays : (withIB par [1]).Inv :=
  ⟨by decide, by simp [State.FlagsOk, State.busy, withIB, par, State.reset], by decide, fun f hf => by cases hf⟩

theorem witness_SlotLengthIsTheRoundedProduct :
    (one.srate.val * one.symdur.val = (1 : ℕ) + 0 ∧ (0 : ℚ) ≤ 0 ∧ (0 : ℚ) < 1 / 2) ∧
    (({ one with srate := .frac 7 4 } : State).srate.val * one.symdur.val = (1 : ℕ) + 3 / 4 ∧ (1 / 2 : ℚ) < 3 / 4 ∧
      (3 / 4 : ℚ) < 1) ∧
    (({ one with srate := .frac 3 2 } : State).srate.val * one.symdur.val = (1 : ℕ) + 1 / 2 ∧
      one.block.roundTie = .halfEven ∧
      ({ block with roundTie := .halfAwayFromZero } : Params).roundTie = .halfAwayFromZero) := by decide +kernel

theorem witness_LoadsReplaceTheWholeBuffer :
    par.busy = false ∧ (List.replicate 100 (0 : Byte)).length ≤ par.block.capIB.val ∧
    (List.replicate 100 (Sample.ofRat 0)).length ≤ par.block.capIS.val ∧
    par.block.capIB.val < (List.replicate 101 (0 : Byte)).length ∧
    par.block.capIS.val < (List.replicate 101 (Sample.ofRat 0)).length ∧ busyState.busy = true := by decide

theorem witness_ReadOutsReturnTheOutputBuffers :
    0 < ({ par with mem := ⟨[], [], [7], [.sum []]⟩ } : State).mem.ob.length ∧
    0 < ({ par with mem := ⟨[], [], [7], [.sum []]⟩ } : State).mem.os.length := by decide

theorem witness_HostCannotSeeInputBuffers :
    ([2] : List Byte).length = (withIB par [1]).mem.ib.length ∧ ([] : List Sample).length = (withIB par [1]).mem.is.length ∧
    (Txn.rd (.word .iblen)).ignoredWhenBusy = false ∧
    (∃ t, runEvent (withIB par [1]) (.host (.rd (.word .iblen))) = .next t) ∧
    ∃ t, runEvent (withIB par [2]) (.host (.rd (.word .iblen))) = .next t :=
  ⟨rfl, rfl, rfl, ⟨_, rfl⟩, ⟨_, rfl⟩⟩

theorem witness_FreqofFollowsItsRule :
    ((2 : Word) ≠ 0 ∧ (2 : Word) ≠ 1) ∧ 1 < (2 : Word).toNat ∧ 255 < (256 : Word).toNat ∧ (255 : Word).toNat ≤ 255 ∧
    ({ par with arg := 1 } : State).mode = 0 ∧ ({ par with mode := 1, arg := 255 } : State).mode = 1 ∧
    ({ par with arg := 1 } : State).arg = 1 ∧ par.arg = 0 := by decide

theorem witness_ByteMapIsLinearBetweenItsBounds : (255 : Symbol).toNat = (254 : Symbol).toNat + 1 := by decide

theorem witness_SymbolsShareAFrequencyIffBoundsEqual :
    Param.frac 440 1 = Param.frac 440 1 ∧ (1 : Symbol) ∈ alphabet .bit ∧ (255 : Symbol) ∈ alphabet .byte := by
  exact ⟨rfl, by decide, by decide +kernel⟩

theorem witness_GentoneFollowsItsRule :
    ({ one with srate := Param.zero } : State).slotLen < one.block.minSlotLen ∧ one.block.minSlotLen ≤ one.slotLen ∧
    ({ one with sinkFail := true } : State).sinkFail = true ∧
    ({ one with block := { block with capOS := 0 } } : State).block.capOS.val <
      ({ one with block := { block with capOS := 0 } } : State).slotLen ∧
    one.sinkFail = false ∧ ({ one with block := { block with capOS := 1 } } : State).slotLen ≤
      ({ one with block := { block with capOS := 1 } } : State).block.capOS.val := by decide +kernel

theorem witness_ReferenceToneIsTheRealSine :
    7 < (tone .reference (.frac 100 1) (.frac 800 1) 8).length ∧ 0 < (Param.frac 800 1).val := by decide +kernel

theorem witness_ReferenceToneConsequences :
    0 < (Param.frac 800 1).val ∧ 7 < 8 ∧ Param.zero.val = 0 ∧
    2 * (Param.frac 400 1).val / (Param.frac 800 1).val = (1 : ℤ) ∧
    (Param.frac 900 1).val = (Param.frac 100 1).val + (Param.frac 800 1).val ∧
    (Param.frac 700 1).val = (Param.frac 800 1).val - (Param.frac 100 1).val ∧
    (Param.frac 100 1).val = (1 : ℤ) * (Param.frac 800 1).val / (8 : ℕ) := by decide +kernel

theorem witness_ExpandFollowsItsRule :
    ({ par with srcFail := true } : State).srcFail = true ∧
    (par.srcFail = false ∧ ({ par with mode := 2 } : State).mode ≠ 0 ∧ ({ par with mode := 2 } : State).mode ≠ 1) ∧
    (modeOf par.mode = some .bit ∧ ({ par with sinkFail := true } : State).sinkFail = true ∧
      (withIB par (List.replicate 13 0)).block.capOB.val < (expand (List.replicate 13 0) .bit).length) ∧
    (par.sinkFail = false ∧ par.mode = 0 ∧ 8 * (withIB par (List.replicate 12 0)).mem.ib.length ≤ par.block.capOB.val ∧
      11 < (withIB par (List.replicate 12 0)).mem.ib.length ∧ 7 < 8) ∧
    (({ par with mode := 1 } : State).mode = 1 ∧
      (withIB { par with mode := 1 } (List.replicate 100 0)).mem.ib.length ≤ par.block.capOB.val) := by decide +kernel

theorem witness_PackFollowsItsRule :
    ({ par with srcFail := true } : State).srcFail = true ∧
    (par.srcFail = false ∧ ({ par with mode := 2 } : State).mode ≠ 0 ∧ ({ par with mode := 2 } : State).mode ≠ 1) ∧
    (par.mode = 0 ∧ 1 < ((withIB par [1, 0, 2]).mem.ib[2]'(by decide)).toNat ∧
      ∀ k (hk : k < 2), ((withIB par [1, 0, 2]).mem.ib[k]'(by simp [withIB]; omega)).toNat ≤ 1) ∧
    ((∀ v ∈ (withIB par (List.replicate 8 1)).mem.ib, v.toNat ≤ 1) ∧ ({ par with sinkFail := true } : State).sinkFail = true ∧
      ({ block with capOB := 0 } : Params).capOB.val < (List.replicate 8 (1 : Byte)).length / 8) ∧
    (({ par with mode := 1 } : State).mode = 1 ∧ ({ block with capOB := 0 } : Params).capOB.val < ([1] : List Byte).length) ∧
    (par.sinkFail = false ∧ (withIB par (List.replicate 9 1)).mem.ib.length / 8 ≤ par.block.capOB.val) ∧
    (withIB { par with mode := 1 } (List.replicate 100 9)).mem.ib.length ≤ par.block.capOB.val := by decide +kernel

theorem witness_PackingLaws : ∀ v ∈ ([1, 0, 1, 0, 0, 1, 0, 1, 1] : List Symbol), v = 0 ∨ v = 1 := by decide

theorem witness_ModulateFollowsItsRule :
    ({ par with srcFail := true } : State).srcFail = true ∧
    (par.srcFail = false ∧ ({ par with mode := 2 } : State).mode ≠ 0 ∧ ({ par with mode := 2 } : State).mode ≠ 1) ∧
    (modeOf par.mode = some .bit ∧ ({ par with workers := 0 } : State).workers = 0) ∧
    (one.workers ≠ 0 ∧ ({ one with srate := Param.zero } : State).slotLen < one.block.minSlotLen) ∧
    (one.block.minSlotLen ≤ one.slotLen ∧ ({ one with sinkFail := true } : State).sinkFail = true ∧
      ({ block with capOS := 7 } : Params).capOS.val < (expand oneA5.mem.ib .bit).length * oneA5.slotLen) ∧
    (oneA5.sinkFail = false ∧ modeOf oneA5.mode = some .bit ∧
      (expand oneA5.mem.ib .bit).length * oneA5.slotLen ≤ ({ block with capOS := 8 } : Params).capOS.val) := by
  decide +kernel

theorem witness_ChunksCoverTheSymbolsInOrder :
    1 ≤ 1 ∧ 1 < (chunkTable 8 3).length ∧ 1 + 1 < 3 ∧ 2 < (chunkTable 8 3).length ∧ 2 + 1 = 3 := by decide

theorem witness_EverySlotOfTheWaveformIsItsTone :
    modeOf oneA5.mode = some .bit ∧ (∃ t, exec .modulate oneA5 = .next t ∧ (!t.err) = true) ∧
      7 < (expand oneA5.mem.ib .bit).length :=
  ⟨by decide, exists_of_leads (by decide +kernel), by decide⟩

theorem witness_WorkerCountAndScheduleShowInNoOutput :
    oneA5.busy = false ∧ oneA5.workers ≠ 0 ∧ (3 : Word) ≠ 0 ∧
    (∀ e ∈ List.replicate 8 (Event.worker 0) ++ [.finish], e.inner) ∧
    (∀ e ∈ [2, 2, 1, 0, 2, 1, 0, 2].map Event.worker ++ [.finish], e.inner) ∧
    (∃ t, runEvents (.accept (encode .modulate) :: (List.replicate 8 (Event.worker 0) ++ [.finish])) oneA5 = .next t ∧
      (!t.busy) = true) ∧
    ∃ t, runEvents (.accept (encode .modulate) :: ([2, 2, 1, 0, 2, 1, 0, 2].map Event.worker ++ [.finish]))
      { oneA5 with workers := 3, block := { oneA5.block with nWorkersPred := 7 } } = .next t ∧ (!t.busy) = true :=
  ⟨by decide, by decide, by decide, by simp [Event.inner], by simp [Event.inner], exists_of_leads (by decide +kernel),
    exists_of_leads (by decide +kernel)⟩

theorem witness_CandidateBinIsTheLowestQualifying :
    1 ≤ 1 ∧ 0 < (Param.frac 21 1).val ∧ 20 < (Param.frac 21 1).val / (1 : ℕ) := by decide +kernel

theorem witness_DecodeFailsOnlyForWantOfABin :
    (Param.frac 1 1).val / 2 + 10 < (freqOf 0 .bit (.frac 11 1) Param.zero).val := by decide +kernel

theorem witness_DecodedSymbolIsTheLastOfGreatestMagnitude :
    (∀ v ∈ alphabet .bit, (candidateBin .bit (.frac 100 1) (.frac 200 1) (.frac 800 1) silence.length v).isSome = true) ∧
    ∀ v ∈ alphabet .byte, (candidateBin .byte Param.zero Param.zero (.frac 1 1) 1 v).isSome = true := by decide +kernel

theorem witness_DecoderConsequences :
    (∀ v ∈ alphabet .bit, (candidateBin .bit (.frac 100 1) (.frac 100 1) (.frac 800 1) silence.length v).isSome = true) ∧
    (∀ e ∈ silence, e.val = 0) ∧ Param.frac 100 1 = Param.frac 100 1 ∧
    ((3 : ℝ) ≠ 0 ∧ silence.map Sample.val = silence.map (fun e => 3 * e.val)) ∧
    ((0 : Symbol) ∈ alphabet .bit ∧ (1 : Symbol) ∈ alphabet .bit ∧ (0 : Symbol).toNat < (1 : Symbol).toNat ∧
      candidateBin .bit (.frac 100 1) (.frac 100 1) (.frac 800 1) silence.length 0 =
        candidateBin .bit (.frac 100 1) (.frac 100 1) (.frac 800 1) silence.length 1) :=
  ⟨by decide +kernel, by simp [silence, Sample.val, Sample.valIn], rfl, ⟨by norm_num, by simp [silence, Sample.val, Sample.valIn]⟩, by decide, by decide,
    by decide, by decide +kernel⟩

theorem witness_DecslotFollowsItsRule :
    ({ par with srcFail := true } : State).srcFail = true ∧
    (par.srcFail = false ∧ ({ par with mode := 2 } : State).mode ≠ 0 ∧ ({ par with mode := 2 } : State).mode ≠ 1) ∧
    (modeOf one.mode = some .bit ∧ ({ one with srate := Param.zero } : State).slotLen < one.block.minSlotLen) ∧
    (one.block.minSlotLen ≤ one.slotLen ∧ one.mem.is.length < (one.arg.toNat + 1) * one.slotLen) ∧
    ((one.arg.toNat + 1) * one.slotLen ≤ (withIS one [.sum []]).mem.is.length ∧
      decodeBlock .reference .bit (.frac 20 1) Param.zero one.srate (([.sum []] : List Sample).drop (0 * 1) |>.take 1) = .noBin 0 ∧
      decodeBlock .reference .bit one.freq0 one.freq1 one.srate (([.sum []] : List Sample).drop (0 * 1) |>.take 1) = .symbol 1) := by
  decide +kernel

theorem witness_DecslotCompletesOnEveryCompleteSlot :
    (withIS par silence).srcFail = false ∧ modeOf (withIS par silence).mode = some .bit ∧
    par.block.minSlotLen ≤ (withIS par silence).slotLen ∧
    ((withIS par silence).arg.toNat + 1) * (withIS par silence).slotLen ≤ (withIS par silence).mem.is.length ∧
    ∀ v ∈ alphabet .bit, (candidateBin .bit par.freq0 par.freq1 par.srate (withIS par silence).slotLen v).isSome = true := by
  decide +kernel

theorem witness_OnBinToneHasOneMagnitude :
    3 ≤ 3 ∧ 0 < 1 ∧ 2 * 1 < 3 ∧ 0 < (Param.frac 3 1).val ∧
    (Param.frac 1 1).val = (1 : ℕ) * (Param.frac 3 1).val / (3 : ℕ) ∧
    -((3 / 2 : ℕ) : ℤ) ≤ -1 ∧ (1 : ℤ) ≤ ((3 + 1) / 2 : ℕ) - 1 := by decide +kernel

/-- The small parameters meet `Discriminates`: bins 1 and 2 (V43-11). -/
theorem discriminates_par : Discriminates .reference .bit (.frac 100 1) (.frac 200 1) (.frac 800 1) 8 := by
  have h0 : candidateBin .bit (.frac 100 1) (.frac 200 1) (.frac 800 1) 8 0 = some 1 := by decide +kernel
  have h1 : candidateBin .bit (.frac 100 1) (.frac 200 1) (.frac 800 1) 8 1 = some 2 := by decide +kernel
  have m0 : magLe .reference (symbolTone .reference .bit (.frac 100 1) (.frac 200 1) (.frac 800 1) 8 0) 1 2 = false := by
    decide +kernel
  have m1 : magLe .reference (symbolTone .reference .bit (.frac 100 1) (.frac 200 1) (.frac 800 1) 8 1) 2 1 = false := by
    decide +kernel
  constructor
  · intro v hv
    simp only [alphabet, List.mem_cons, List.not_mem_nil, or_false] at hv
    rcases hv with rfl | rfl
    · rw [h0]; rfl
    · rw [h1]; rfl
  · intro v hv v' hv' hne j j' hj hj'
    simp only [alphabet, List.mem_cons, List.not_mem_nil, or_false] at hv hv'
    rcases hv with rfl | rfl <;> rcases hv' with rfl | rfl
    · exact absurd rfl hne
    · rw [h0] at hj; rw [h1] at hj'; cases hj; cases hj'; exact m0
    · rw [h1] at hj; rw [h0] at hj'; cases hj; cases hj'; exact m1
    · exact absurd rfl hne

theorem witness_DiscriminatedTonesDecodeToTheirSymbol :
    Discriminates .reference .bit (.frac 100 1) (.frac 200 1) (.frac 800 1) 8 ∧ (1 : Symbol) ∈ alphabet .bit ∧
    (∀ v ∈ alphabet .bit, 0 < v.toNat + 1 ∧ 2 * (v.toNat + 1) < 8 ∧
      (freqOf v .bit (.frac 100 1) (.frac 200 1)).val = (v.toNat + 1 : ℕ) * (Param.frac 800 1).val / (8 : ℕ)) ∧
    (∀ u ∈ alphabet .bit, ∀ v ∈ alphabet .bit, u ≠ v → u.toNat + 1 ≠ v.toNat + 1) ∧
    10 < (Param.frac 800 1).val / (8 : ℕ) :=
  ⟨discriminates_par, by decide, by decide +kernel, by decide, by decide +kernel⟩

theorem witness_FirstMatchDefeatsLongSlots :
    (1 ≤ 3 ∧ 0 < 1 ∧ 2 * 1 < 3 ∧ (Param.frac 10 1).val = (1 : ℕ) * (Param.frac 30 1).val / (3 : ℕ) ∧
      (Param.frac 30 1).val / (3 : ℕ) ≤ 10) ∧
    (3 ≤ 9 ∧ 0 < 4 ∧ 2 * 4 < 9 ∧ 0 < (Param.frac 90 1).val ∧
      (Param.frac 40 1).val = (4 : ℕ) * (Param.frac 90 1).val / (9 : ℕ) ∧
      ∀ v ∈ alphabet .bit, ∃ j : ℤ, candidateBin .bit (.frac 20 1) (.frac 30 1) (.frac 90 1) 9 v = some j ∧ j ≠ (4 : ℕ) ∧
        j ≠ -(4 : ℕ)) ∧
    (Param.frac 1000 1).val = 1000 ∧ (Param.frac 2000 1).val = 2000 ∧ (Param.frac 44100 1).val = 44100 := by
  refine ⟨by decide +kernel, ⟨by decide, by decide, by decide, by decide +kernel, by decide +kernel, ?_⟩, by decide +kernel,
    by decide +kernel, by decide +kernel⟩
  have h0 : candidateBin .bit (.frac 20 1) (.frac 30 1) (.frac 90 1) 9 0 = some 1 := by decide +kernel
  have h1 : candidateBin .bit (.frac 20 1) (.frac 30 1) (.frac 90 1) 9 1 = some 2 := by decide +kernel
  intro v hv
  simp only [alphabet, List.mem_cons, List.not_mem_nil, or_false] at hv
  rcases hv with rfl | rfl
  · exact ⟨1, h0, by decide, by decide⟩
  · exact ⟨2, h1, by decide, by decide⟩

theorem witness_DemodulateFollowsItsRule :
    ({ par with srcFail := true } : State).srcFail = true ∧
    (par.srcFail = false ∧ ({ par with mode := 2 } : State).mode ≠ 0 ∧ ({ par with mode := 2 } : State).mode ≠ 1) ∧
    (modeOf one.mode = some .bit ∧ ({ one with srate := Param.zero } : State).slotLen < one.block.minSlotLen) ∧
    (one.block.minSlotLen ≤ one.slotLen ∧ 0 < (withIS one [.sum []]).mem.is.length / one.slotLen ∧
      decodeBlock .reference .bit (.frac 20 1) Param.zero one.srate (([.sum []] : List Sample).drop (0 * 1) |>.take 1) = .noBin 0) ∧
    (([255] : List Symbol).length = (withIS one [.sum []]).mem.is.length / one.slotLen ∧
      modeOf ({ one with mode := 1 } : State).mode = some .byte ∧
      decodeBlock .reference .byte one.freq0 one.freq1 one.srate (([.sum []] : List Sample).drop (0 * 1) |>.take 1) = .symbol 255 ∧
      ({ one with sinkFail := true } : State).sinkFail = true ∧
      ({ block with capOB := 0 } : Params).capOB.val < (pack [255] .byte).length ∧ one.sinkFail = false ∧
      (pack [255] .byte).length ≤ ({ block with capOB := 1 } : Params).capOB.val) := by decide +kernel

/-- Eight one-sample slots, room for one byte: in Bit mode the output just fits. -/
def eightSlots : State := withIS { one with block := { block with capOB := 1 } } silence

theorem witness_DemodulateCompletesWhereCandidatesHaveBins :
    (eightSlots.srcFail = false ∧ eightSlots.sinkFail = false ∧ modeOf eightSlots.mode = some .bit ∧
      eightSlots.block.minSlotLen ≤ eightSlots.slotLen ∧
      eightSlots.mem.is.length / eightSlots.slotLen / 8 ≤ eightSlots.block.capOB.val ∧
      eightSlots.block.capOB.val < eightSlots.mem.is.length / eightSlots.slotLen ∧
      ∀ v ∈ alphabet .bit,
        (candidateBin .bit eightSlots.freq0 eightSlots.freq1 eightSlots.srate eightSlots.slotLen v).isSome = true) ∧
    (modeOf ({ eightSlots with mode := 1 } : State).mode = some .byte ∧ silence.length / one.slotLen ≤ block.capOB.val) ∧
    (withIS par silence).srcFail = false ∧ (withIS par silence).sinkFail = false ∧
    modeOf (withIS par silence).mode = some .bit ∧ par.block.minSlotLen ≤ (withIS par silence).slotLen ∧
    (withIS par silence).mem.is.length / (withIS par silence).slotLen ≤ ({ block with capOB := 1 } : Params).capOB.val ∧
    ((withIS par silence).slotLen ≤ (withIS par silence).mem.is.length →
      ∀ v ∈ alphabet .bit, (candidateBin .bit par.freq0 par.freq1 par.srate (withIS par silence).slotLen v).isSome = true) := by
  decide +kernel

theorem witness_TrailingPartialSlotIsNeverRead :
    (1 * (withIS par (List.replicate 9 (.sum []))).slotLen < (withIS par (List.replicate 9 (.sum []))).mem.is.length ∧
      (withIS par (List.replicate 15 (.sum []))).mem.is.length < (1 + 1) * (withIS par (List.replicate 15 (.sum []))).slotLen) ∧
    (∃ t, exec .demodulate (withIS par (List.replicate 9 (.sum []))) = .next t ∧ (!t.err) = true) ∧
    ∃ t, exec .demodulate (withIS par (List.replicate 15 (.sum []))) = .next t ∧ (!t.err) = true :=
  ⟨by decide +kernel, exists_of_leads (by decide +kernel), exists_of_leads (by decide +kernel)⟩

theorem witness_EmptyInputGivesEmptyOutput :
    (par.srcFail = false ∧ par.sinkFail = false) ∧
    (one.mem.ib = [] ∧ one.mode = 0 ∧ ({ one with mode := 1 } : State).mode = 1 ∧ one.workers ≠ 0 ∧
      one.block.minSlotLen ≤ one.slotLen) ∧
    (withIS par (List.replicate 7 (.sum []))).mem.is.length < (withIS par (List.replicate 7 (.sum []))).slotLen ∧
    ((withIS one (List.replicate 7 (.sum []))).mem.is.length < 8 * one.slotLen ∧
      ∃ t, exec .demodulate (withIS one (List.replicate 7 (.sum []))) = .next t ∧ (!t.err) = true) ∧
    (({ par with mode := 2 } : State).mode ≠ 0 ∧ ({ par with mode := 2 } : State).mode ≠ 1) ∧
    ({ par with workers := 0 } : State).workers = 0 ∧
    ({ one with srate := Param.zero } : State).slotLen < one.block.minSlotLen :=
  ⟨by decide, by decide +kernel, by decide +kernel, ⟨by decide +kernel, exists_of_leads (by decide +kernel)⟩, by decide,
    by decide, by decide +kernel⟩

/-- The scenario byte at the small parameters, in a block whose buffers just hold it. -/
def tight : State :=
  withIB { par with block := { block with capIB := 1, capIS := 64, capOB := 1, capOS := 64 } } [0xA5]

theorem witness_DemodulateUndoesModulate :
    (tight.busy = false ∧ modeOf tight.mode = some .bit ∧ tight.srcFail = false ∧ tight.sinkFail = false ∧
      tight.workers ≠ 0) ∧
    Discriminates tight.block.numerics .bit tight.freq0 tight.freq1 tight.srate tight.slotLen ∧
    tight.block.minSlotLen ≤ tight.slotLen ∧
    (expand tight.mem.ib .bit).length * tight.slotLen ≤ tight.block.capOS.val ∧
    (expand tight.mem.ib .bit).length * tight.slotLen ≤ tight.block.capIS.val ∧
    tight.mem.ib.length ≤ tight.block.capOB.val := by
  have h : tight.slotLen = 8 := by decide +kernel
  refine ⟨by decide, ?_, by rw [h]; decide, by rw [h]; decide, by rw [h]; decide, by decide⟩
  rw [h]; exact discriminates_par

theorem witness_SuccessfulCommandsFinishClean : ∃ t, exec .freqof State.reset = .next t ∧ (!t.err) = true :=
  exists_of_leads (by decide)

theorem witness_FailedCommandsChangeOnlyTheStatus : ∃ t, exec .gentone State.reset = .next t ∧ t.err = true :=
  exists_of_leads (by decide)

theorem witness_CommandsChangeOnlyTheirOutputs :
    (∃ t, exec .pack (withIB { State.reset with block := block } [1]) = .next t ∧ (!t.err) = true) ∧
      Instr.pack ≠ .decslot ∧ Instr.pack ≠ .freqof ∧ Instr.pack ≠ .gentone ∧ Instr.pack ≠ .modulate ∧
      Instr.freqof ≠ .demodulate ∧ Instr.freqof ≠ .expand ∧ Instr.freqof ≠ .pack :=
  ⟨exists_of_leads (by decide), by decide⟩

theorem witness_UpFrontErrorsHaveTheirCauses :
    (∃ t, exec .modulate { State.reset with srcFail := true } = .next t ∧ decide (t.errcode = .sourceUnavailable) = true) ∧
    (∃ t, exec .modulate { State.reset with mode := 2 } = .next t ∧ decide (t.errcode = .invalidMode) = true) ∧
    (∃ t, exec .modulate { State.reset with workers := 0 } = .next t ∧ decide (t.errcode = .badWorkerCount) = true) ∧
    ∃ t, exec .modulate State.reset = .next t ∧ decide (t.errcode = .durationTooShort) = true :=
  ⟨exists_of_leads (by decide), exists_of_leads (by decide), exists_of_leads (by decide), exists_of_leads (by decide)⟩

theorem witness_CommandsRaiseTheErrorsOfTheTable : ErrCode.illegalCommand ≠ .none ∧ ErrCode.sinkUnavailable ≠ .none := by
  decide

theorem witness_RepeatingACommandChangesNothing : ∃ t, exec .expand oneA5 = .next t ∧ (!t.err) = true :=
  exists_of_leads (by decide)

theorem witness_RateTagsFollowTheirRule :
    (∃ t, exec .gentone one = .next t ∧ (!t.err) = true) ∧ one.busy = false ∧
    (List.replicate 100 (Sample.ofRat 0)).length ≤ one.block.capIS.val :=
  ⟨exists_of_leads (by decide +kernel), by decide, by decide⟩

theorem witness_OldOutputsAreNeverRead :
    (∃ t, exec .gentone one = .next t ∧ (!t.err) = true) ∧ (∃ t, exec .expand oneA5 = .next t ∧ (!t.err) = true) ∧
    (∃ t, exec .freqof one = .next t ∧ (!t.err) = true) ∧
    ∃ t, exec .decslot (withIS one [.sum []]) = .next t ∧ (!t.err) = true :=
  ⟨exists_of_leads (by decide +kernel), exists_of_leads (by decide), exists_of_leads (by decide),
    exists_of_leads (by decide +kernel)⟩

theorem witness_EveryStepKeepsTheInvariant :
    (withIB par [1]).Inv ∧ ∃ t, step ((withIB par [1]).withFetchWord 32 6) = .next t ∧ (!t.err) = true :=
  ⟨witness_DerivedRegistersReadAsTheSpecSays, exists_of_leads (by decide)⟩

theorem witness_EveryRunIsSafe : (withIB par [1]).Inv := witness_DerivedRegistersReadAsTheSpecSays

theorem witness_BlockParametersNeverChange : ∃ t, step (par.withFetchWord 32 1) = .next t ∧ (!t.err) = true :=
  exists_of_leads (by decide)

theorem witness_EveryScheduleEndsAsTheOneStepMeaning :
    oneA5.busy = false ∧ (∀ e ∈ [Event.worker 0, .finish], e.inner) ∧
    (∃ t, runEvents [.accept (encode .modulate), .worker 0, .finish] oneA5 = .next t ∧ t.busy = true) ∧
    ∃ t, runEvents [.accept (encode .expand), .worker 0, .finish] oneA5 = .next t ∧ (!t.busy) = true :=
  ⟨by decide, by simp [Event.inner], exists_of_leads (by decide +kernel), exists_of_leads (by decide +kernel)⟩

theorem witness_EveryCommandFinishes :
    busyState.inFlight = some ⟨.freqof, .unit⟩ ∧
    ((Work.decode 1 [none]).workerStep one 0).isSome = true ∧ (one.busy = false ∧ one.script = []) ∧
    modulateChecks oneA5 = .ok .bit ∧ demodulateChecks oneA5 = .ok .bit ∧ Instr.pack ≠ .modulate ∧
    Instr.pack ≠ .demodulate := by
  refine ⟨rfl, rfl, ⟨rfl, rfl⟩, by decide +kernel, by decide +kernel, by decide, by decide⟩

/-- A read-out and a reset to come. -/
def twoEvents : State := { oneA5 with script := [.event (.host .readB), .event (.host .reset)] }

theorem witness_ScriptsAreTakenInOrder :
    (twoEvents.script = [Event.host .readB].map .event ++ [.event (.host .reset)] ∧
      ∃ t, runEvents [.host .readB] { twoEvents with script := [.event (.host .reset)] } = .next t) ∧
    (({ one with script := [.wait], done := true } : State).script = .wait :: [] ∧
      ({ one with script := [.wait], done := true } : State).done = true) ∧
    (({ busyState with script := [.wait] } : State).script = .wait :: [] ∧
      ({ busyState with script := [.wait] } : State).done = false ∧
      ∃ t, step { busyState with script := [.wait] } = .next t) := ⟨⟨rfl, _, rfl⟩, ⟨rfl, rfl⟩, rfl, rfl, _, rfl⟩

/-- A call of `frequencyOf` in small steps that reports a failed source. -/
def calling : State :=
  { one with script := contractCall .stepwise (some 1) [.wrWord .mode 1, .wrWord .arg 7] .freqof (.rd (.param .fres)) }

theorem witness_ContractCallsReturnTheirResults_general :
    calling.script = contractCall .stepwise (some 1) [.wrWord .mode 1, .wrWord .arg 7] .freqof (.rd (.param .fres)) ++ [] ∧
    (∃ u, runEvents (([Txn.wrWord .mode 1, .wrWord .arg 7] ++ failures (some 1)).map .host) { calling with script := [] } =
      .next u ∧ (!u.busy) = true) ∧ ∃ v, exec .freqof calling = .next v :=
  ⟨rfl, ⟨_, rfl, rfl⟩, ⟨_, rfl⟩⟩

theorem witness_ContractCallsReturnTheirResults :
    (one.script = [] ∧ (2 : Word) ≠ 0 ∧ (2 : Word) ≠ 1) ∧
    (one.busy = false ∧ one.srcFail = false ∧ one.sinkFail = false) ∧ (1 : Symbol) ∈ alphabet .bit ∧
    1 = roundQuot one.block.roundTie ((Param.frac 1 1).val.num.toNat * (Param.frac 1 1).val.num.toNat)
      ((Param.frac 1 1).val.den * (Param.frac 1 1).val.den) ∧ one.block.minSlotLen ≤ 1 ∧
    ((4 : Word) ≠ 0 ∧ ([0xA5] : List Byte).length ≤ one.block.capIB.val ∧
      (expand [0xA5] .bit).length * 1 ≤ one.block.capOS.val) ∧ 1 ≤ one.block.capOS.val ∧
    (([.sum []] : List Sample).length = 1 ∧ 1 ≤ one.block.capIS.val ∧
      decodeBlock one.block.numerics .bit Param.zero Param.zero (.frac 1 1) [.sum []] = .symbol 1) ∧
    (([1] : List Symbol).length = ([.sum []] : List Sample).length / 1 ∧
      decodeBlock one.block.numerics .bit Param.zero Param.zero (.frac 1 1)
        ((([.sum []] : List Sample).drop (0 * 1)).take 1) = .symbol 1 ∧
      (pack [1] .bit).length ≤ one.block.capOB.val) := by decide +kernel

end Sys2Proof.Tests
end

section
/-!
SUPPORT. What one step can do to the block (`step_moves`), said once as the relation `Move`, and from it what every step keeps:
the block's parameters (R37) and the invariant `State.Inv` (R28, R32, R36, R72). Then the registers as the host reads them, the
outputs of a command, and the theorems that settle the obligations of `10_state.md`.
-/

namespace Sys2Proof.Machine

/-- `s` with other values of the model's own fields: what the host does next, what it has read, the count of free values. -/
def State.withHost (s : State) (sc : List Line) (rp : List Reply) (fr : Nat) : State :=
  { s with script := sc, replies := rp, fresh := fr }

/-- The two states agree on the flags, the error code, `RES` and the record in flight, all of which a register write or a load
leaves alone. -/
structure SameStatus (s t : State) : Prop where
  done : t.done = s.done
  err : t.err = s.err
  errcode : t.errcode = s.errcode
  res : t.res = s.res
  inFlight : t.inFlight = s.inFlight

/-- What one event can do to the block. -/
inductive Move (s : State) : State → Prop where
  /-- Nothing: a read, or a transaction the block ignores. -/
  | host (sc : List Line) (rp : List Reply) (fr : Nat) : Move s (s.withHost sc rp fr)
  /-- A register write or a load, which only an idle block takes (R39). -/
  | write {t : State} (idle : s.inFlight = none) (status : SameStatus s t) (block : t.block = s.block)
      (memory : s.mem.wf s.block = true → t.mem.wf t.block = true) : Move s t
  /-- Acceptance of a command by an idle block (R94). -/
  | begin (i : Instr) : Move s (s.begin i)
  /-- A worker's turn (R149, R189). -/
  | worker (n : Nat) : Move s (s.workerTurn n)
  /-- The end of a command, in one step or after its element steps (R231, R232). -/
  | finish (i : Instr) (g : Laws.Effect) (fits : g.fits i s) : Move s (g.apply s)
  /-- `RESET` (R38). -/
  | reset : Move s s.resetBlock

/-- The outcome is a next state, which one move leads to. -/
def Moves (s : State) (r : Result) : Prop := ∃ t, r = .next t ∧ Move s t

end Sys2Proof.Machine

namespace Sys2Proof.Proofs

open Sys2Proof.Machine Sys2Proof.Laws

/-! ### What the turns and transactions can do -/

/-- Changing nothing is a move. -/
theorem move_refl (s : State) : Move s s := .host s.script s.replies s.fresh

/-- A command is a move, whatever its outcome. -/
theorem exec_moves (i : Instr) (s : State) : Moves s (exec i s) := by
  obtain ⟨g, fits, hg, -⟩ := exec_effect (SameInputs.refl s) i
  exact ⟨_, hg, .finish i g fits⟩

/-- `raise` is a move. -/
theorem raise_moves (s : State) {e : ErrCode} (info idx : Word) (h : e ≠ .none) : Moves s (raise s e info idx) :=
  ⟨_, rfl, .finish .freqof (.fail e info idx) h⟩

/-- The end of a command that writes `OB` is a move. -/
theorem finishBytes_moves (s : State) (out : List Byte) : Moves s (finishBytes s out) := by
  obtain ⟨g, fits, hg, -⟩ := finishBytes_effect (SameInputs.refl s) .expand (.inr (.inl rfl)) out
  exact ⟨_, hg, .finish _ g fits⟩

/-- The end of a command that writes `OS` is a move. -/
theorem finishSamples_moves (s : State) (out : List Sample) : Moves s (finishSamples s out) := by
  obtain ⟨g, fits, hg, -⟩ := finishSamples_effect (SameInputs.refl s) .modulate (.inr rfl) out
  exact ⟨_, hg, .finish _ g fits⟩

/-- The finish of `DEMODULATE` is a move. -/
theorem finishDemodulate_moves (s : State) (m : Mode) (results : List SlotResult) :
    Moves s (finishDemodulate s m results) := by
  unfold finishDemodulate
  split
  · exact raise_moves s _ _ (by decide)
  · exact finishBytes_moves s _

/-- The finish step of a command in flight is a move. -/
theorem finishFlight_moves (s : State) (f : InFlight) : Moves s (s.finishFlight f) := by
  unfold State.finishFlight
  split
  · exact exec_moves f.cmd s
  · exact finishSamples_moves s _
  · exact finishDemodulate_moves s _ _

/-- The controller's turn is a move. -/
theorem finishTurn_moves (s : State) : Moves s s.finishTurn := by
  unfold State.finishTurn
  split
  · exact ⟨s, rfl, move_refl s⟩
  · split
    · exact finishFlight_moves s _
    · exact ⟨s, rfl, move_refl s⟩

/-- What the block does when nothing is scheduled is a move. -/
theorem idleTurn_moves (s : State) : Moves s (idleTurn s) := by
  unfold idleTurn State.advance
  split
  · exact ⟨s, rfl, move_refl s⟩
  · split
    · exact ⟨_, rfl, .worker _⟩
    · exact finishTurn_moves s

/-- A `CMD` write taken in one step is a move. -/
theorem runCommand_moves (s : State) (w : Word) : Moves s (runCommand s w) := by
  unfold runCommand
  split
  · exact exec_moves _ s
  · exact raise_moves s _ _ (by decide)

/-- Acceptance is a move. -/
theorem acceptCommand_moves (s : State) (w : Word) : Moves s (acceptCommand s w) := by
  unfold acceptCommand
  split
  · exact ⟨_, rfl, .begin _⟩
  · exact raise_moves s _ _ (by decide)

/-- A write to a `u32` register is a move of an idle block. -/
theorem writeWord_move {s : State} (hi : s.inFlight = none) (r : WordReg) (v : Word) : Move s (s.writeWord r v) := by
  cases r <;> exact .write hi ⟨rfl, rfl, rfl, rfl, rfl⟩ rfl id

/-- A write to a `PARAM` register is a move of an idle block. -/
theorem writeParam_move {s : State} (hi : s.inFlight = none) (r : ParamReg) (v : Param) : Move s (s.writeParam r v) := by
  cases r <;> exact .write hi ⟨rfl, rfl, rfl, rfl, rfl⟩ rfl id

/-- `LOADB` leaves the flags, the results and the block's parameters alone. -/
theorem loadB_status (s : State) (b : List Byte) : SameStatus s (s.loadB b) ∧ (s.loadB b).block = s.block := by
  unfold State.loadB
  split <;> exact ⟨⟨rfl, rfl, rfl, rfl, rfl⟩, rfl⟩

/-- `LOADS` leaves the flags, the results and the block's parameters alone. -/
theorem loadS_status (s : State) (rate : Param) (x : List Sample) :
    SameStatus s (s.loadS rate x) ∧ (s.loadS rate x).block = s.block := by
  unfold State.loadS
  split <;> exact ⟨⟨rfl, rfl, rfl, rfl, rfl⟩, rfl⟩

/-- A one-element read of `OB` changes nothing of the block. -/
theorem readByteAt_move (s : State) (i : Nat) : Move s (s.readByteAt i) := by
  unfold State.readByteAt
  split <;> exact .host _ _ _

/-- A one-element read of `OS` changes nothing of the block. -/
theorem readSampleAt_move (s : State) (i : Nat) : Move s (s.readSampleAt i) := by
  unfold State.readSampleAt
  split <;> exact .host _ _ _

/-- A transaction the block does not ignore is a move. -/
theorem takeTxn_moves (s : State) (t : Txn) (hi : t.ignoredWhenBusy = true → s.inFlight = none) :
    Moves s (takeTxn s t) := by
  cases t with
  | wrWord r v =>
    simp only [takeTxn]
    split
    · exact runCommand_moves s v
    · exact ⟨_, rfl, writeWord_move (hi rfl) r v⟩
  | wrParam r v => exact ⟨_, rfl, writeParam_move (hi rfl) r v⟩
  | wrReserved n v => exact ⟨s, rfl, move_refl s⟩
  | rd r => exact ⟨_, rfl, .host _ _ _⟩
  | loadB b => exact ⟨_, rfl, .write (hi rfl) (loadB_status s b).1 (loadB_status s b).2 (wf_loadB s b)⟩
  | loadS rate x =>
    exact ⟨_, rfl, .write (hi rfl) (loadS_status s rate x).1 (loadS_status s rate x).2 (wf_loadS s rate x)⟩
  | readB => exact ⟨_, rfl, .host _ _ _⟩
  | readS => exact ⟨_, rfl, .host _ _ _⟩
  | readByteAt i => exact ⟨_, rfl, readByteAt_move s i⟩
  | readSampleAt i => exact ⟨_, rfl, readSampleAt_move s i⟩
  | reset => exact ⟨_, rfl, .reset⟩

/-- A busy block ignores every write and every load (R39). -/
theorem hostTxn_ignored {s : State} {t : Txn} (hb : s.busy = true) (ht : t.ignoredWhenBusy = true) :
    hostTxn s t = .next s := by
  simp [hostTxn, hb, ht]

/-- An idle block takes every transaction. -/
theorem hostTxn_idle {s : State} (hb : s.busy = false) (t : Txn) : hostTxn s t = takeTxn s t := by
  simp [hostTxn, hb]

/-- Reads and reset are taken at any time. -/
theorem hostTxn_taken (s : State) {t : Txn} (ht : t.ignoredWhenBusy = false) : hostTxn s t = takeTxn s t := by
  simp [hostTxn, ht]

/-- A host transaction is a move. -/
theorem hostTxn_moves (s : State) (t : Txn) : Moves s (hostTxn s t) := by
  by_cases h : s.busy = true ∧ t.ignoredWhenBusy = true
  · exact ⟨s, hostTxn_ignored h.1 h.2, move_refl s⟩
  · have e : hostTxn s t = takeTxn s t := by simp [hostTxn, h]
    rw [e]
    exact takeTxn_moves s t fun ht => (busy_false s).1 (by simpa [ht] using h)

/-- An event is a move. -/
theorem runEvent_moves (s : State) (e : Event) : Moves s (runEvent s e) := by
  cases e with
  | host t => exact hostTxn_moves s t
  | accept w =>
    simp only [runEvent]
    split
    · exact ⟨s, rfl, move_refl s⟩
    · exact acceptCommand_moves s w
  | worker n => exact ⟨_, rfl, .worker n⟩
  | finish => exact finishTurn_moves s

/-- All that a step can do: the host's part, then one move of the block. -/
theorem step_moves (s : State) : ∃ sc rp, Moves (s.withHost sc rp s.fresh) (step s) := by
  cases hsc : s.script with
  | nil => exact ⟨s.script, s.replies, step_of_nil hsc ▸ idleTurn_moves s⟩
  | cons l rest =>
    cases l with
    | event e => exact ⟨rest, s.replies, step_of_event hsc ▸ runEvent_moves (s.withScript rest) e⟩
    | wait =>
      cases hd : s.done with
      | true => exact ⟨s.script, s.replies, _, step_of_wait_done hsc hd, .host _ _ _⟩
      | false => exact ⟨s.script, s.pollStatus.replies, step_of_wait_busy hsc hd ▸ idleTurn_moves s.pollStatus⟩
    | result t => exact ⟨s.script, s.replies, _, step_of_result hsc, .host _ _ _⟩

/-! ### What every move keeps -/

/-- No move changes the parameters of the block (R37). -/
theorem move_block {s t : State} (h : Move s t) : t.block = s.block := by
  cases h with
  | host => rfl
  | write _ _ block _ => exact block
  | begin i => rfl
  | worker n => obtain ⟨fl, e, -⟩ := workerTurn_same s n; rw [e]
  | finish i g _ => exact apply_block g s
  | reset => rfl

/-- The flag invariants of R28 on a block that holds no command. -/
theorem flagsOk_of_idle {s : State} (hi : s.inFlight = none) (h1 : s.err = true → s.done = true)
    (h2 : s.done = true → (s.err = true ↔ s.errcode ≠ .none)) : s.FlagsOk :=
  ⟨by simp [State.busy, hi], h1, h2⟩

/-- The flag invariants depend on the flags, the error code and the record in flight. -/
theorem flagsOk_of_sameStatus {s t : State} (h : SameStatus s t) (hs : s.FlagsOk) : t.FlagsOk := by
  simpa only [State.FlagsOk, State.busy, h.done, h.err, h.errcode, h.inFlight] using hs

/-- The invariant of an idle block says nothing of a command in flight. -/
theorem inv_of_idle {s : State} (hi : s.inFlight = none) (hm : s.mem.wf s.block = true) (hf : s.FlagsOk)
    (hr : s.res.toNat ≤ 255) : s.Inv :=
  ⟨hm, hf, hr, by simp [hi]⟩

/-- A register write or a load of an idle block keeps the invariant. -/
theorem write_inv {s t : State} (h : s.Inv) (idle : s.inFlight = none) (hst : SameStatus s t)
    (hm : t.mem.wf t.block = true) : t.Inv :=
  inv_of_idle (hst.inFlight.trans idle) hm (flagsOk_of_sameStatus hst h.flags) (hst.res ▸ h.res)

/-- Every reset state meets the invariant. -/
theorem resetBlock_inv (s : State) : s.resetBlock.Inv :=
  inv_of_idle rfl (wf_resetBlock s) (flagsOk_of_idle rfl nofun nofun) (Nat.zero_le _)

/-- The success finish establishes the flag invariants (R231). -/
theorem flagsOk_finishOk (s : State) : s.finishOk.FlagsOk :=
  flagsOk_of_idle rfl (fun _ => rfl) fun _ => by simp

/-- The error finish establishes the flag invariants, since its code is not 0 (R232). -/
theorem flagsOk_finishError (s : State) {e : ErrCode} (info idx : Word) (h : e ≠ .none) :
    (s.finishError e info idx).FlagsOk :=
  flagsOk_of_idle rfl (fun _ => rfl) fun _ => by simp [h]

/-- A success finish leaves the invariant, given the buffers and `RES`. -/
theorem finishOk_inv {s : State} (hm : s.mem.wf s.block = true) (hr : s.res.toNat ≤ 255) : s.finishOk.Inv :=
  inv_of_idle rfl hm (flagsOk_finishOk s) hr

/-- The end of a command keeps the invariant (R231, R232). -/
theorem apply_inv {s : State} (h : s.Inv) {i : Instr} {g : Effect} (fits : g.fits i s) : (g.apply s).Inv := by
  cases g with
  | fail e info idx => exact inv_of_idle rfl h.memory (flagsOk_finishError s info idx fits) h.res
  | fres v => exact finishOk_inv (s := s.setFres v) h.memory h.res
  | res v => exact finishOk_inv (s := s.setRes v) h.memory fits.2
  | os out => exact finishOk_inv (wf_setOS s out h.memory fits.2) h.res
  | ob out => exact finishOk_inv (wf_setOB s out h.memory fits.2) h.res

/-! ### The coherence of the work in flight (R36, R72) -/

/-- The work a command starts with is coherent. -/
theorem startWork_coherent (i : Instr) (s : State) : (startWork i s).Coherent s i := by
  unfold Work.Coherent
  rcases startWork_cases i s with e | ⟨-, m, -, e⟩ | ⟨-, m, -, e⟩ <;> simp only [e]
  · refine ⟨_, _, rfl, rfl, ?_, List.length_replicate, ?_⟩
    · intro c hc
      obtain ⟨k, -, rfl⟩ := List.mem_map.1 hc
      exact Nat.zero_le _
    · intro c hc j hj
      obtain ⟨k, -, rfl⟩ := List.mem_map.1 hc
      exact absurd hj (Nat.not_lt_zero j)
  · refine ⟨_, rfl, List.length_replicate, fun k r hk => ?_⟩
    simp [List.getElem?_replicate] at hk

/-- All that a worker step of `MODULATE` can do: the next symbol of chunk `n` is staged and counted (R149). -/
theorem workerStep_encode {s : State} {y : List Symbol} {k : Nat} {chunks : List Chunk}
    {stage : List (Option (List Sample))} {n : Nat} {w' : Work}
    (h : (Work.encode y k chunks stage).workerStep s n = some w') :
    ∃ c, chunks[n]? = some c ∧ c.progress < c.len ∧
      w' = .encode y k (chunks.set n { c with progress := c.progress + 1 })
        (stage.set (c.start + c.progress) (some (s.stageTone y (c.start + c.progress)))) := by
  simp only [Work.workerStep] at h
  split at h
  · cases h
  · rename_i c hc
    split at h
    · exact ⟨c, hc, ‹_›, (Option.some.inj h).symm⟩
    · cases h

/-- All that a worker step of `DEMODULATE` can do: slot `n`, not decoded yet, is decoded (R189). -/
theorem workerStep_decode {s : State} {k : Nat} {stage : List (Option SlotResult)} {n : Nat} {w' : Work}
    (h : (Work.decode k stage).workerStep s n = some w') :
    stage[n]? = some none ∧ w' = .decode k (stage.set n (some (s.decodeSlot s.flightMode n))) := by
  simp only [Work.workerStep] at h
  split at h
  · exact ⟨‹_›, (Option.some.inj h).symm⟩
  · cases h

/-- Counting a symbol moves no chunk of the table. -/
theorem chunks_set_bounds {chunks : List Chunk} {n : Nat} {c : Chunk} (hn : chunks[n]? = some c) (p : Nat) :
    (chunks.set n { c with progress := p }).map (fun c => (c.start, c.len)) =
      chunks.map (fun c => (c.start, c.len)) := by
  obtain ⟨hlt, rfl⟩ := List.getElem?_eq_some_iff.1 hn
  have hrow := List.set_getElem_self (as := chunks.map fun c => (c.start, c.len)) (i := n) (by simpa using hlt)
  rw [List.map_set]
  rwa [List.getElem_map] at hrow

/-- A table with the rows of the chunk table lies within the symbols (R143). -/
theorem chunk_within {l k : Nat} (hk : 1 ≤ k) {chunks : List Chunk}
    (hmap : chunks.map (fun c => (c.start, c.len)) = (chunkTable l k).map (fun c => (c.start, c.len)))
    {c : Chunk} (hc : c ∈ chunks) : c.start + c.len ≤ l := by
  have hmem : (c.start, c.len) ∈ (chunkTable l k).map (fun c => (c.start, c.len)) :=
    hmap ▸ List.mem_map_of_mem hc
  obtain ⟨d, hd, e⟩ := List.mem_map.1 hmem
  obtain ⟨hs, hl⟩ := Prod.mk.inj e
  exact hs ▸ hl ▸ chunk_bound l k hk d hd

/-- Staging the next symbol of chunk `n` keeps every symbol below a progress counter staged: the new entry is that of its
symbol, and every other counted symbol was staged before. -/
theorem stage_set_counted {s : State} {y : List Symbol} {chunks : List Chunk} {stage : List (Option (List Sample))}
    {n : Nat} {c : Chunk} (hn : chunks[n]? = some c) (hlt : c.start + c.progress < stage.length)
    (hst : ∀ d ∈ chunks, ∀ j < d.progress, stage[d.start + j]? = some (some (s.stageTone y (d.start + j)))) :
    ∀ d ∈ chunks.set n { c with progress := c.progress + 1 }, ∀ j < d.progress,
      (stage.set (c.start + c.progress) (some (s.stageTone y (c.start + c.progress))))[d.start + j]? =
        some (some (s.stageTone y (d.start + j))) := by
  intro d hd j hj
  by_cases he : d.start + j = c.start + c.progress
  · rw [he, List.getElem?_set_self hlt]
  · rw [List.getElem?_set_ne (Ne.symm he)]
    rcases List.mem_or_eq_of_mem_set hd with hd | rfl
    · exact hst d hd j hj
    · exact hst c (List.mem_of_getElem? hn) j (by simp only at hj he; omega)

/-- Staging the result of slot `n` keeps every staged result that of its slot. -/
theorem stage_set_decoded {s : State} {stage : List (Option SlotResult)} {n : Nat} (hlt : n < stage.length)
    (hst : ∀ k r, stage[k]? = some (some r) → r = s.decodeSlot s.flightMode k) :
    ∀ k r, (stage.set n (some (s.decodeSlot s.flightMode n)))[k]? = some (some r) → r = s.decodeSlot s.flightMode k := by
  intro k r hk
  by_cases hn : n = k
  · subst hn
    rw [List.getElem?_set_self hlt] at hk
    exact (Option.some.inj (Option.some.inj hk)).symm
  · rw [List.getElem?_set_ne hn] at hk
    exact hst k r hk

/-- A worker step keeps the work coherent: the entry it stages is the one its symbol or slot determines, and the entries of
the other symbols and slots stay. -/
theorem workerStep_coherent {s : State} {i : Instr} {w w' : Work} {n : Nat} (h : w.Coherent s i)
    (hw : w.workerStep s n = some w') : w'.Coherent s i := by
  unfold Work.Coherent at h ⊢
  rcases startWork_cases i s with e | ⟨-, m, hok, e⟩ | ⟨-, m, -, e⟩ <;> simp only [e] at h ⊢
  · subst h; cases hw
  · obtain ⟨chunks, stage, rfl, hmap, hle, hlen, hst⟩ := h
    obtain ⟨c, hn, hc, rfl⟩ := workerStep_encode hw
    obtain ⟨-, -, hworkers, -⟩ := modulateChecks_ok hok
    have hbound := chunk_within (workerCount_pos hworkers) hmap (List.mem_of_getElem? hn)
    refine ⟨_, _, rfl, (chunks_set_bounds hn _).trans hmap, fun d hd => ?_, List.length_set.trans hlen,
      stage_set_counted hn (by omega) hst⟩
    rcases List.mem_or_eq_of_mem_set hd with hd | rfl
    · exact hle d hd
    · exact hc
  · obtain ⟨stage, rfl, hlen, hst⟩ := h
    obtain ⟨hn, rfl⟩ := workerStep_decode hw
    exact ⟨_, rfl, List.length_set.trans hlen, stage_set_decoded (List.getElem?_eq_some_iff.1 hn).1 hst⟩

/-- Acceptance keeps the invariant (R94). -/
theorem begin_inv {s : State} (h : s.Inv) (i : Instr) : (s.begin i).Inv where
  memory := h.memory
  flags := ⟨fun _ => ⟨rfl, rfl⟩, nofun, nofun⟩
  res := h.res
  flight := by
    rintro f ⟨⟩
    exact ((same_begin s i).coherent i _).2 (startWork_coherent i s)

/-- Another coherent record in the place of the one in flight keeps the invariant. -/
theorem inFlight_inv {s : State} (h : s.Inv) (hb : s.busy = true) {f : InFlight} (hf : f.work.Coherent s f.cmd) :
    ({ s with inFlight := some f } : State).Inv where
  memory := h.memory
  flags := ⟨fun _ => h.flags.1 hb, h.flags.2⟩
  res := h.res
  flight := by
    rintro f' ⟨⟩
    exact ((same_flight s _).coherent f.cmd f.work).2 hf

/-- A worker's turn keeps the invariant (R149, R189). -/
theorem workerTurn_inv {s : State} (h : s.Inv) (n : Nat) : (s.workerTurn n).Inv := by
  rcases workerTurn_cases s n with e | ⟨f, w, hf, hw, e⟩ <;> rw [e]
  · exact h
  · exact inFlight_inv h ((busy_iff s).2 ⟨f, hf⟩) (workerStep_coherent (h.flight f hf) hw)

/-- The script, the replies and the count of free values are no part of the invariant. -/
theorem withHost_inv {s : State} (h : s.Inv) (sc : List Line) (rp : List Reply) (fr : Nat) : (s.withHost sc rp fr).Inv := by
  have same : SameInputs s (s.withHost sc rp fr) := ⟨rfl, rfl, rfl, rfl, rfl, rfl, rfl, rfl, rfl, rfl, rfl, rfl, rfl⟩
  exact ⟨h.memory, h.flags, h.res, fun f hf => (same.coherent f.cmd f.work).2 (h.flight f hf)⟩

/-- Every move keeps the invariant. -/
theorem move_inv {s t : State} (h : s.Inv) (hmove : Move s t) : t.Inv := by
  cases hmove with
  | host sc rp fr => exact withHost_inv h sc rp fr
  | write idle status _ memory => exact write_inv h idle status (memory h.memory)
  | begin i => exact begin_inv h i
  | worker n => exact workerTurn_inv h n
  | finish i g fits => exact apply_inv h fits
  | reset => exact resetBlock_inv s

/-- From a state that meets the invariant a step answers a next state that meets it. -/
theorem step_inv {s : State} (h : s.Inv) : ∃ t, step s = .next t ∧ t.Inv := by
  obtain ⟨sc, rp, t, e, hmove⟩ := step_moves s
  exact ⟨t, e, move_inv (withHost_inv h sc rp s.fresh) hmove⟩

/-! ### Registers as the host reads them -/

/-- Every command is read back from its own word (R93, R95). -/
theorem decode_encode (i : Instr) : decode (encode i) = .ok i := by cases i <;> rfl

/-- No register but `STATUS` shows the flags. -/
theorem readReg_clearFlags (s : State) {r : Reg} (h : r ≠ .word .status) : s.clearFlags.readReg r = s.readReg r := by
  cases r with
  | word r =>
    cases r
    case status => exact absurd rfl h
    all_goals rfl
  | param r => cases r <;> rfl
  | reserved n => rfl

/-- Turns of the workers change the record in flight only, and a busy block stays busy (R67). -/
theorem runEvents_workers (turns : List Nat) {s t : State} (h : runEvents (turns.map .worker) s = .next t) :
    ∃ fl, t = { s with inFlight := fl } ∧ (s.busy = true → fl.isSome = true) := by
  induction turns generalizing s with
  | nil => exact ⟨s.inFlight, (next_inj.1 h).symm, id⟩
  | cons n turns ih =>
    obtain ⟨fl, e, hfl, -⟩ := workerTurn_same s n
    obtain ⟨fl', rfl, hfl'⟩ := ih (s := s.workerTurn n) h
    rw [e] at hfl' ⊢
    exact ⟨fl', rfl, fun hb => hfl' (hfl hb)⟩

/-- Acceptance of a command on an idle block (R94). -/
theorem runEvent_accept {s : State} (hb : s.busy = false) (i : Instr) :
    runEvent s (.accept (encode i)) = .next (s.begin i) := by
  simp [runEvent, hb, acceptCommand, decode_encode]

/-- A write to a read-only register is ignored (R20, R92). -/
theorem takeTxn_readOnly (s : State) {r : WordReg} (v : Word) (h1 : r ≠ .mode) (h2 : r ≠ .workers) (h3 : r ≠ .arg)
    (h4 : r ≠ .hostif) (h5 : r ≠ .cmd) : takeTxn s (.wrWord r v) = .next s := by
  cases r <;> simp_all [takeTxn, State.writeWord]

/-- The bits of a word made of three flags (R28). -/
theorem flagWord_bits (a b c : Bool) :
    (BitVec.ofNat 32 (a.toNat + 2 * b.toNat + 4 * c.toNat)).getLsbD 0 = a ∧
    (BitVec.ofNat 32 (a.toNat + 2 * b.toNat + 4 * c.toNat)).getLsbD 1 = b ∧
    (BitVec.ofNat 32 (a.toNat + 2 * b.toNat + 4 * c.toNat)).getLsbD 2 = c ∧
    ∀ i, 3 ≤ i → (BitVec.ofNat 32 (a.toNat + 2 * b.toNat + 4 * c.toNat)).getLsbD i = false := by
  refine ⟨?_, ?_, ?_, smallword _ 3 ?_⟩ <;> revert a b c <;> decide

/-- The bits of `HOSTIF` (R30): a word of flags whose third is 0. -/
theorem hostifWord_bits (s : State) : s.hostifWord.getLsbD 0 = s.srcFail ∧ s.hostifWord.getLsbD 1 = s.sinkFail ∧
    ∀ i, 2 ≤ i → s.hostifWord.getLsbD i = false := by
  obtain ⟨h0, h1, h2, h3⟩ := flagWord_bits s.srcFail s.sinkFail false
  refine ⟨h0, h1, fun i hi => ?_⟩
  rcases Nat.eq_or_lt_of_le hi with rfl | hi
  · exact h2
  · exact h3 i hi

/-- A length within a capacity is its own register value (R16, R32). -/
theorem length_toNat {n : Nat} {cap : Fin (2 ^ 32)} (h : n ≤ cap.val) : (BitVec.ofNat 32 n).toNat = n := by
  rw [BitVec.toNat_ofNat, Nat.mod_eq_of_lt (lt_of_le_of_lt h cap.isLt)]

/-- After reset every `u32` register reads its value of R38. -/
theorem readWord_resetBlock (s : State) (r : WordReg) : s.resetBlock.readWord r = if r = .workers then 1 else 0 := by
  cases r
  case slotlen =>
    exact congrArg sat32 (slotLen_of_srate_zero s.resetBlock rfl)
  all_goals rfl

/-- After reset every `PARAM` register reads 0 (R38). -/
theorem readParam_resetBlock (s : State) (r : ParamReg) : (s.resetBlock.readParam r).val = 0 := by
  cases r <;> rfl

/-- A reserved number names its reserved register (R34). -/
theorem ofNumber_reserved (n : Nat) : Reg.ofNumber (23 + n) = .reserved n := by
  rw [Nat.add_comm]; rfl

/-- The register of a number has that number (R20, R34). -/
theorem number_ofNumber (n : Nat) : (Reg.ofNumber n).number = n := by
  have named : ∀ k < 23, (Reg.ofNumber k).number = k := by decide
  rcases Nat.lt_or_ge n 23 with h | h
  · exact named n h
  · obtain ⟨k, rfl⟩ := Nat.exists_eq_add_of_le h
    rw [ofNumber_reserved]; rfl

/-- The number of a register names it (R20, R34). -/
theorem ofNumber_number (r : Reg) : Reg.ofNumber r.number = r := by
  cases r with
  | word r => cases r <;> rfl
  | param r => cases r <;> rfl
  | reserved n => exact ofNumber_reserved n

/-! ### The outputs of a command -/

/-- The outcome of a command is an effect that fits it. -/
theorem exec_eq_apply {i : Instr} {s t : State} (h : exec i s = .next t) : ∃ g : Effect, g.fits i s ∧ t = g.apply s := by
  obtain ⟨g, fits, hg, -⟩ := exec_effect (SameInputs.refl s) i
  exact ⟨g, fits, next_inj.1 (h.symm.trans hg)⟩

/-- Whatever an effect is, it leaves all that is no output of any command. -/
theorem apply_frame (s : State) (g : Effect) :
    (g.apply s).israte = s.israte ∧ (g.apply s).script = s.script ∧ (g.apply s).replies = s.replies ∧
      (g.apply s).fresh = s.fresh := by
  cases g <;> exact ⟨rfl, rfl, rfl, rfl⟩

/-- A state with another `ISRATE` agrees on all that a command reads (R33, R65). -/
theorem same_israte (s : State) (rate : Param) : SameInputs s { s with israte := rate } :=
  ⟨rfl, rfl, rfl, rfl, rfl, rfl, rfl, rfl, rfl, rfl, rfl, rfl, rfl⟩

/-- An effect does not see `ISRATE`. -/
theorem apply_israte (s : State) (g : Effect) (rate : Param) :
    g.apply { s with israte := rate } = { g.apply s with israte := rate } := by
  cases g <;> rfl

/-! ### The obligations -/

/-- Settles O54: the block's part of a step is one move, and every move keeps the invariant. -/
theorem everyStepKeepsTheInvariant : Obligations.EveryStepKeepsTheInvariant := by
  intro s t h hstep
  obtain ⟨u, e, hu⟩ := step_inv h
  cases e.symm.trans hstep
  exact hu

/-- Settles O55, by induction on the number of steps. -/
theorem everyRunIsSafe : Obligations.EveryRunIsSafe := by
  intro n
  induction n with
  | zero => exact fun s h => ⟨s, rfl, h⟩
  | succ n ih =>
    intro s h
    obtain ⟨t, e, ht⟩ := step_inv h
    simpa only [SafeFor, runSteps, e] using ih t ht

/-- Settles O56: no move changes the parameters of the block. -/
theorem blockParametersNeverChange : Obligations.BlockParametersNeverChange := by
  intro s t hstep
  obtain ⟨sc, rp, u, e, hmove⟩ := step_moves s
  cases e.symm.trans hstep
  exact (move_block hmove).trans rfl

/-- Settles O7: the busy test comes before every write, and turns of the workers change the record in flight only. -/
theorem busyBlockIgnoresWritesAndShowsOldValues : Obligations.BusyBlockIgnoresWritesAndShowsOldValues := by
  refine ⟨fun s t hb ht => hostTxn_ignored hb ht, fun s r v hb => hostTxn_ignored hb rfl,
    fun s r v hb => hostTxn_ignored hb rfl, fun s b hb => hostTxn_ignored hb rfl,
    fun s p x hb => hostTxn_ignored hb rfl, fun s r _ => hostTxn_taken s rfl, ?_⟩
  intro s t i turns r hb h
  simp only [runEvents, runEvent_accept hb] at h
  obtain ⟨fl, rfl, hfl⟩ := runEvents_workers turns h
  refine ⟨fun hr => ?_, rfl, hfl rfl⟩
  exact (readReg_inFlight s.clearFlags fl r hr).trans (readReg_clearFlags s hr)

/-- Settles O13: `roundQuot` is the `round` of R19, and the quotient it rounds is the exact product. -/
theorem slotLengthIsTheRoundedProduct : Obligations.SlotLengthIsTheRoundedProduct := by
  intro s n t h h0 h1
  obtain ⟨below, above, tieAway, tieEven⟩ := roundQuot_spec s.block.roundTie _ _
    (Nat.mul_pos s.srate.val.pos s.symdur.val.pos) n t ((slotLen_quot s).trans h) h0 h1
  exact ⟨below, above, tieAway, tieEven, sat32_toNat s.slotLen⟩

/-- Settles O47: the outcome is an effect, which leaves the inputs alone and fits the command. -/
theorem commandsChangeOnlyTheirOutputs : Obligations.CommandsChangeOnlyTheirOutputs := by
  intro i s t h
  obtain ⟨g, fits, rfl⟩ := exec_eq_apply h
  have inputs := apply_same s g
  obtain ⟨hrate, hscript, hreplies, hfresh⟩ := apply_frame s g
  refine ⟨⟨inputs.mode, inputs.freq0, inputs.freq1, inputs.symdur, inputs.srate, inputs.workers, inputs.srcFail,
    inputs.sinkFail, inputs.arg, inputs.farg, hrate, inputs.ib, inputs.is, inputs.block, hscript, hreplies, hfresh⟩, ?_⟩
  cases g with
  | fail e info idx => exact ⟨fun _ => rfl, fun _ => rfl, fun _ _ => ⟨rfl, rfl⟩, fun _ _ _ => rfl⟩
  | fres v => exact ⟨fun _ => rfl, fun hi => absurd fits hi, fun _ _ => ⟨rfl, rfl⟩, fun _ _ _ => rfl⟩
  | res v => exact ⟨fun hi => absurd fits.1 hi, fun _ => rfl, fun _ _ => ⟨rfl, rfl⟩, fun _ _ _ => rfl⟩
  | os out =>
    exact ⟨fun _ => rfl, fun _ => rfl, fun h1 h2 => absurd fits.1 (not_or.2 ⟨h1, h2⟩), fun _ _ _ => rfl⟩
  | ob out =>
    exact ⟨fun _ => rfl, fun _ => rfl, fun _ _ => ⟨rfl, rfl⟩,
      fun h1 h2 h3 => absurd fits.1 (not_or.2 ⟨h1, not_or.2 ⟨h2, h3⟩⟩)⟩

/-- Settles O51: `ISRATE` is no input of a command, and the only effect of `GENTONE` and `MODULATE` without an error is the
commit to `OS`. -/
theorem rateTagsFollowTheirRule : Obligations.RateTagsFollowTheirRule := by
  refine ⟨fun i s t rate h => ?_, fun s rate x hb hx => ?_, fun i s t hi h herr => ?_⟩
  · obtain ⟨g, -, hg, hg'⟩ := exec_effect (same_israte s rate) i
    cases hg.symm.trans h
    rw [hg', apply_israte]
  · exact ⟨_, hostTxn_idle hb _, by simp [State.loadS, hx], by simp [State.loadS, hx]⟩
  · obtain ⟨g, fits, rfl⟩ := exec_eq_apply h
    cases g with
    | fail e info idx => cases herr
    | fres v => rcases hi with rfl | rfl <;> cases fits
    | res v => rcases hi with rfl | rfl <;> cases fits.1
    | os out => rfl
    | ob out => rcases hi with rfl | rfl <;> simp [Effect.fits] at fits

/-- Settles O8: the reset state is the state after a reset of itself, so one argument serves both. -/
theorem resetGivesTheResetValues : Obligations.ResetGivesTheResetValues := by
  have taken (s : State) : runEvent s (.host .reset) = .next s.resetBlock := hostTxn_taken s rfl
  have values (s : State) : s.resetBlock.mem = ⟨[], [], [], []⟩ ∧ s.resetBlock.inFlight = none ∧
      (∀ r : WordReg, s.resetBlock.readWord r = if r = .workers then 1 else 0) ∧
      (∀ r : ParamReg, (s.resetBlock.readParam r).val = 0) :=
    ⟨rfl, rfl, readWord_resetBlock s, readParam_resetBlock s⟩
  refine ⟨fun s => ⟨_, taken s, rfl⟩, ?_⟩
  rintro t (rfl | ⟨s, h⟩)
  · exact values State.reset
  · cases (taken s).symm.trans h
    exact values s

/-- Settles O9: a number and the register it names determine each other, and the two lists are evaluated. -/
theorem registerNumbersAreOneToOne : Obligations.RegisterNumbersAreOneToOne :=
  ⟨number_ofNumber, ofNumber_number, by decide, by decide⟩

/-- Settles O10: an idle block takes the transaction, and each write is its own equation. -/
theorem idleBlockTakesRegisterWrites : Obligations.IdleBlockTakesRegisterWrites := by
  intro s v p hb
  refine ⟨hostTxn_idle hb _, hostTxn_idle hb _, hostTxn_idle hb _, hostTxn_idle hb _, ?_, hostTxn_idle hb _,
    hostTxn_idle hb _, hostTxn_idle hb _, hostTxn_idle hb _, hostTxn_idle hb _, ?_⟩
  · intro r h1 h2 h3 h4 h5
    exact (hostTxn_idle hb _).trans (takeTxn_readOnly s v h1 h2 h3 h4 h5)
  · rintro r (rfl | rfl | rfl) <;> exact hostTxn_idle hb _

/-- Settles O11: a write to a reserved number is ignored, whether the block is busy or not. -/
theorem reservedRegistersReadZero : Obligations.ReservedRegistersReadZero := by
  intro s n v
  refine ⟨ofNumber_reserved n, hostTxn_taken s rfl, ?_⟩
  cases hb : s.busy with
  | true => exact hostTxn_ignored hb rfl
  | false => exact hostTxn_idle hb _

/-- Settles O12: `STATUS` and `HOSTIF` are words of flags, and a length within a capacity fits its register. -/
theorem derivedRegistersReadAsTheSpecSays : Obligations.DerivedRegistersReadAsTheSpecSays := by
  intro s
  obtain ⟨h0, h1, h2, h3⟩ := flagWord_bits s.busy s.done s.err
  obtain ⟨i0, i1, i2⟩ := hostifWord_bits s
  refine ⟨h0, h1, h2, h3, i0, i1, i2, rfl, fun h => ?_⟩
  obtain ⟨hib, his, hob, hos⟩ := (wf_iff _ _).1 h.memory
  exact ⟨length_toNat hib, hib, length_toNat his, his, length_toNat hob, hob, length_toNat hos, hos⟩

/-- Settles O53: the reset state is the state after a reset of itself. -/
theorem resetStateMeetsTheInvariant : Obligations.ResetStateMeetsTheInvariant :=
  ⟨resetBlock_inv State.reset, resetBlock_inv⟩

end Sys2Proof.Proofs
end

section
/-!
SUPPORT. What the host sees and what a command reads, as the theorems that settle the obligations of `20_memory.md` need it: no
read shows the contents of the input buffers (R64), no command reads an output or a flag (R65), and no event reads the script it
stands in (R71).
-/

namespace Sys2Proof.Machine

/-- `s` with other contents of the input buffers. -/
def State.withInputs (s : State) (b : List Byte) (x : List Sample) : State :=
  { s with mem := ⟨b, x, s.mem.ob, s.mem.os⟩ }

/-- `s` with other output buffers, result registers and status: all that a command writes (R65). -/
def State.withOutputs (s : State) (ob : List Byte) (os : List Sample) (res : Word) (fres rate : Param) (d e : Bool)
    (c : ErrCode) (info idx : Word) : State :=
  { s with mem := ⟨s.mem.ib, s.mem.is, ob, os⟩, res := res, fres := fres, osrate := rate, done := d, err := e,
           errcode := c, errinfo := info, erridx := idx }

/-- The two states agree on the five status fields that a finish step writes (R231, R232). -/
structure SameFlags (s t : State) : Prop where
  done : t.done = s.done
  err : t.err = s.err
  errcode : t.errcode = s.errcode
  errinfo : t.errinfo = s.errinfo
  erridx : t.erridx = s.erridx

/-- The two outcomes are next states, the second the first with `q` for its script. -/
def NextButScript (q : List Line) (r r' : Result) : Prop := ∃ t, r = .next t ∧ r' = .next (t.withScript q)

end Sys2Proof.Machine

namespace Sys2Proof.Proofs

open Sys2Proof.Machine Sys2Proof.Laws

/-! ### Loads and reads (R63, R64) -/

/-- A load of `IB` within the capacity. -/
theorem loadB_fits {s : State} {b : List Byte} (h : b.length ≤ s.block.capIB.val) :
    s.loadB b = s.withInputs b s.mem.is := if_pos h

/-- A load of `IB` beyond the capacity. -/
theorem loadB_tooLong {s : State} {b : List Byte} (h : s.block.capIB.val < b.length) : s.loadB b = s :=
  if_neg h.not_ge

/-- A load of `IS` within the capacity. -/
theorem loadS_fits {s : State} {x : List Sample} (rate : Param) (h : x.length ≤ s.block.capIS.val) :
    s.loadS rate x = { s.withInputs s.mem.ib x with israte := rate } := if_pos h

/-- A load of `IS` beyond the capacity. -/
theorem loadS_tooLong {s : State} {x : List Sample} (rate : Param) (h : s.block.capIS.val < x.length) :
    s.loadS rate x = s := if_neg h.not_ge

/-- A one-element read of `OB` appends one reply, the element where there is one. -/
theorem readByteAt_eq (s : State) (i : Nat) :
    ∃ v n, s.readByteAt i = { s with replies := s.replies ++ [.byte v], fresh := n } ∧
      ∀ h : i < s.mem.ob.length, v = s.mem.ob[i] := by
  unfold State.readByteAt
  split
  · rename_i v hv
    obtain ⟨_, hget⟩ := List.getElem?_eq_some_iff.1 hv
    exact ⟨v, s.fresh, rfl, fun _ => hget.symm⟩
  · rename_i hnone
    exact ⟨_, _, rfl, fun h => absurd h (List.getElem?_eq_none_iff.1 hnone).not_gt⟩

/-- A one-element read of `OS` appends one reply, the element where there is one. -/
theorem readSampleAt_eq (s : State) (i : Nat) :
    ∃ x n, s.readSampleAt i = { s with replies := s.replies ++ [.sample x], fresh := n } ∧
      ∀ h : i < s.mem.os.length, x = s.mem.os[i] := by
  unfold State.readSampleAt
  split
  · rename_i x hx
    obtain ⟨_, hget⟩ := List.getElem?_eq_some_iff.1 hx
    exact ⟨x, s.fresh, rfl, fun _ => hget.symm⟩
  · rename_i hnone
    exact ⟨_, _, rfl, fun h => absurd h (List.getElem?_eq_none_iff.1 hnone).not_gt⟩

/-! ### No read shows the contents of an input buffer (R64) -/

/-- A register shows of the input buffers their lengths only (R32). -/
theorem readReg_withInputs (s : State) {b : List Byte} {x : List Sample} (hb : b.length = s.mem.ib.length)
    (hx : x.length = s.mem.is.length) (r : Reg) : (s.withInputs b x).readReg r = s.readReg r := by
  cases r with
  | word r =>
    cases r
    case iblen => exact congrArg (fun n => RegVal.word (BitVec.ofNat 32 n)) hb
    case islen => exact congrArg (fun n => RegVal.word (BitVec.ofNat 32 n)) hx
    all_goals rfl
  | param r => cases r <;> rfl
  | reserved n => rfl

/-- A one-element read of `OB` does not see the input buffers. -/
theorem readByteAt_withInputs (s : State) (b : List Byte) (x : List Sample) (i : Nat) :
    (s.withInputs b x).readByteAt i = (s.readByteAt i).withInputs b x := by
  simp only [State.readByteAt, State.withInputs]
  split <;> rfl

/-- A one-element read of `OS` does not see the input buffers. -/
theorem readSampleAt_withInputs (s : State) (b : List Byte) (x : List Sample) (i : Nat) :
    (s.withInputs b x).readSampleAt i = (s.readSampleAt i).withInputs b x := by
  simp only [State.readSampleAt, State.withInputs]
  split <;> rfl

/-- A read, or a reset, gives the host the same replies whatever the input buffers hold. -/
theorem takeTxn_withInputs (s : State) {b : List Byte} {x : List Sample} (hb : b.length = s.mem.ib.length)
    (hx : x.length = s.mem.is.length) {q : Txn} (hq : q.ignoredWhenBusy = false) :
    ∃ t t', takeTxn s q = .next t ∧ takeTxn (s.withInputs b x) q = .next t' ∧ t'.replies = t.replies := by
  cases q with
  | rd r => exact ⟨_, _, rfl, rfl, by rw [readReg_withInputs s hb hx]; rfl⟩
  | readB => exact ⟨_, _, rfl, rfl, rfl⟩
  | readS => exact ⟨_, _, rfl, rfl, rfl⟩
  | readByteAt i => exact ⟨_, _, rfl, rfl, by rw [readByteAt_withInputs]; rfl⟩
  | readSampleAt i => exact ⟨_, _, rfl, rfl, by rw [readSampleAt_withInputs]; rfl⟩
  | reset => exact ⟨_, _, rfl, rfl, rfl⟩
  | _ => cases hq

/-! ### Outputs and flags are no inputs (R65) -/

/-- States that differ in outputs and status only agree on all that a command reads. -/
theorem same_outputs (s : State) (ob : List Byte) (os : List Sample) (res : Word) (fres rate : Param) (d e : Bool)
    (c : ErrCode) (info idx : Word) : SameInputs s (s.withOutputs ob os res fres rate d e c info idx) :=
  ⟨rfl, rfl, rfl, rfl, rfl, rfl, rfl, rfl, rfl, rfl, rfl, rfl, rfl⟩

/-- An effect writes the status whole. -/
theorem apply_sameFlags (g : Effect) (s s' : State) : SameFlags (g.apply s) (g.apply s') := by
  cases g <;> exact ⟨rfl, rfl, rfl, rfl, rfl⟩

/-- An effect without an error writes the outputs of its command whole, from inputs. -/
theorem apply_sameOutputs {i : Instr} {s s' : State} (h : SameInputs s s') {g : Effect} (fits : g.fits i s)
    (ok : (g.apply s).err = false) :
    (i = .decslot → (g.apply s').res = (g.apply s).res) ∧ (i = .freqof → (g.apply s').fres = (g.apply s).fres) ∧
      (i = .gentone ∨ i = .modulate →
        (g.apply s').mem.os = (g.apply s).mem.os ∧ (g.apply s').osrate = (g.apply s).osrate) ∧
      (i = .demodulate ∨ i = .expand ∨ i = .pack → (g.apply s').mem.ob = (g.apply s).mem.ob) := by
  cases g with
  | fail e info idx => cases ok
  | fres v => cases fits; exact ⟨nofun, fun _ => rfl, nofun, nofun⟩
  | res v => cases fits.1; exact ⟨fun _ => rfl, nofun, nofun, nofun⟩
  | os out =>
    obtain ⟨rfl | rfl, -⟩ := fits <;> exact ⟨nofun, nofun, fun _ => ⟨rfl, h.srate⟩, nofun⟩
  | ob out =>
    obtain ⟨rfl | rfl | rfl, -⟩ := fits <;> exact ⟨nofun, nofun, nofun, fun _ => rfl⟩

/-! ### No event reads the script it stands in (R71) -/

/-- One effect on both states differs by the script only. -/
theorem nextButScript_of_effect {s : State} {q : List Line} {r r' : Result}
    (h : ∃ g : Effect, r = .next (g.apply s) ∧ r' = .next (g.apply (s.withScript q))) : NextButScript q r r' := by
  obtain ⟨g, hr, hr'⟩ := h
  exact ⟨g.apply s, hr, hr'.trans (congrArg _ (apply_script g s q))⟩

/-- A command does the same whatever the script. -/
theorem exec_withScript (i : Instr) (s : State) (q : List Line) :
    NextButScript q (exec i s) (exec i (s.withScript q)) := by
  obtain ⟨g, -, h⟩ := exec_effect (same_script s q) i
  exact nextButScript_of_effect ⟨g, h⟩

/-- The controller's turn has one effect on states that agree and hold the same record, or none on both. -/
theorem finishTurn_effect {s s' : State} (h : SameInputs s s') (hf : s'.inFlight = s.inFlight) :
    s.finishTurn = .next s ∧ s'.finishTurn = .next s' ∨
      ∃ g : Effect, s.finishTurn = .next (g.apply s) ∧ s'.finishTurn = .next (g.apply s') := by
  unfold State.finishTurn
  rw [hf]
  split
  · exact .inl ⟨rfl, rfl⟩
  · split
    · exact .inr (finishFlight_effect h _)
    · exact .inl ⟨rfl, rfl⟩

/-- The controller's turn does not see the script. -/
theorem finishTurn_withScript (s : State) (q : List Line) :
    NextButScript q s.finishTurn (s.withScript q).finishTurn := by
  rcases finishTurn_effect (same_script s q) rfl with h | h
  · exact ⟨s, h⟩
  · exact nextButScript_of_effect h

/-- A worker's turn does not see the script. -/
theorem workerTurn_withScript (s : State) (q : List Line) (n : Nat) :
    (s.withScript q).workerTurn n = (s.workerTurn n).withScript q := by
  simp only [State.workerTurn, State.withScript_inFlight, (same_script s q).workerStep]
  split
  · rfl
  · split <;> rfl

/-- Acceptance does not see the script. -/
theorem begin_withScript (s : State) (q : List Line) (i : Instr) : (s.withScript q).begin i = (s.begin i).withScript q := by
  simp only [State.begin, (same_script s q).startWork]
  rfl

/-- A write to a `u32` register does not see the script. -/
theorem writeWord_withScript (s : State) (q : List Line) (r : WordReg) (v : Word) :
    (s.withScript q).writeWord r v = (s.writeWord r v).withScript q := by cases r <;> rfl

/-- A write to a `PARAM` register does not see the script. -/
theorem writeParam_withScript (s : State) (q : List Line) (r : ParamReg) (v : Param) :
    (s.withScript q).writeParam r v = (s.writeParam r v).withScript q := by cases r <;> rfl

/-- A load of `IB` does not see the script. -/
theorem loadB_withScript (s : State) (q : List Line) (b : List Byte) :
    (s.withScript q).loadB b = (s.loadB b).withScript q := by
  rcases Nat.lt_or_ge s.block.capIB.val b.length with h | h
  · rw [loadB_tooLong h, loadB_tooLong (s := s.withScript q) h]
  · rw [loadB_fits h, loadB_fits (s := s.withScript q) h]; rfl

/-- A load of `IS` does not see the script. -/
theorem loadS_withScript (s : State) (q : List Line) (rate : Param) (x : List Sample) :
    (s.withScript q).loadS rate x = (s.loadS rate x).withScript q := by
  rcases Nat.lt_or_ge s.block.capIS.val x.length with h | h
  · rw [loadS_tooLong rate h, loadS_tooLong (s := s.withScript q) rate h]
  · rw [loadS_fits rate h, loadS_fits (s := s.withScript q) rate h]; rfl

/-- No register shows the script. -/
theorem readReg_withScript (s : State) (q : List Line) (r : Reg) : (s.withScript q).readReg r = s.readReg r := by
  cases r with
  | word r => cases r <;> rfl
  | param r => cases r <;> rfl
  | reserved n => rfl

/-- A one-element read of `OB` does not see the script. -/
theorem readByteAt_withScript (s : State) (q : List Line) (i : Nat) :
    (s.withScript q).readByteAt i = (s.readByteAt i).withScript q := by
  simp only [State.readByteAt, State.withScript_mem]
  split <;> rfl

/-- A one-element read of `OS` does not see the script. -/
theorem readSampleAt_withScript (s : State) (q : List Line) (i : Nat) :
    (s.withScript q).readSampleAt i = (s.readSampleAt i).withScript q := by
  simp only [State.readSampleAt, State.withScript_mem]
  split <;> rfl

/-- A `CMD` write taken in one step does not see the script. -/
theorem runCommand_withScript (s : State) (q : List Line) (w : Word) :
    NextButScript q (runCommand s w) (runCommand (s.withScript q) w) := by
  unfold runCommand
  split
  · exact exec_withScript _ s q
  · exact ⟨_, rfl, rfl⟩

/-- A `CMD` write that leaves its command in flight does not see the script. -/
theorem acceptCommand_withScript (s : State) (q : List Line) (w : Word) :
    NextButScript q (acceptCommand s w) (acceptCommand (s.withScript q) w) := by
  unfold acceptCommand
  split
  · exact ⟨_, rfl, congrArg _ (begin_withScript s q _)⟩
  · exact ⟨_, rfl, rfl⟩

/-- A transaction the block does not ignore does not see the script. -/
theorem takeTxn_withScript (s : State) (q : List Line) (t : Txn) :
    NextButScript q (takeTxn s t) (takeTxn (s.withScript q) t) := by
  cases t with
  | wrWord r v =>
    simp only [takeTxn]
    split
    · exact runCommand_withScript s q v
    · exact ⟨_, rfl, congrArg _ (writeWord_withScript s q r v)⟩
  | wrParam r v => exact ⟨_, rfl, congrArg _ (writeParam_withScript s q r v)⟩
  | wrReserved n v => exact ⟨_, rfl, rfl⟩
  | rd r => exact ⟨_, rfl, by rw [takeTxn, readReg_withScript]; rfl⟩
  | loadB b => exact ⟨_, rfl, congrArg _ (loadB_withScript s q b)⟩
  | loadS rate x => exact ⟨_, rfl, congrArg _ (loadS_withScript s q rate x)⟩
  | readB => exact ⟨_, rfl, rfl⟩
  | readS => exact ⟨_, rfl, rfl⟩
  | readByteAt i => exact ⟨_, rfl, congrArg _ (readByteAt_withScript s q i)⟩
  | readSampleAt i => exact ⟨_, rfl, congrArg _ (readSampleAt_withScript s q i)⟩
  | reset => exact ⟨_, rfl, rfl⟩

/-- A host transaction does not see the script. -/
theorem hostTxn_withScript (s : State) (q : List Line) (t : Txn) :
    NextButScript q (hostTxn s t) (hostTxn (s.withScript q) t) := by
  by_cases h : s.busy = true ∧ t.ignoredWhenBusy = true
  · exact ⟨s, hostTxn_ignored h.1 h.2, hostTxn_ignored h.1 h.2⟩
  · have taken (u : State) (hu : u.busy = s.busy) : hostTxn u t = takeTxn u t := by simp [hostTxn, hu, h]
    rw [taken s rfl, taken (s.withScript q) rfl]
    exact takeTxn_withScript s q t

/-- An event reads and changes nothing of the script it is taken from. -/
theorem runEvent_withScript (s : State) (q : List Line) (e : Event) :
    NextButScript q (runEvent s e) (runEvent (s.withScript q) e) := by
  cases e with
  | host t => exact hostTxn_withScript s q t
  | accept w =>
    by_cases hb : s.busy = true
    · exact ⟨s, if_pos hb, if_pos hb⟩
    · obtain ⟨t, h, h'⟩ := acceptCommand_withScript s q w
      exact ⟨t, (if_neg hb).trans h, (if_neg hb).trans h'⟩
  | worker n => exact ⟨_, rfl, congrArg _ (workerTurn_withScript s q n)⟩
  | finish => exact finishTurn_withScript s q

/-- An event leaves the script as it is: put the script itself for `q`. -/
theorem runEvent_script {s t : State} {e : Event} (h : runEvent s e = .next t) : t.script = s.script := by
  obtain ⟨u, hu, hu'⟩ := runEvent_withScript s s.script e
  obtain rfl := next_inj.1 (hu.symm.trans h)
  have self : u = u.withScript s.script := next_inj.1 (hu.symm.trans hu')
  exact (congrArg State.script self).trans rfl

/-- As many steps as the script has leading events are the run of those events. -/
theorem runSteps_events (es : List Event) {s t : State} {rest : List Line} (hsc : s.script = es.map .event ++ rest)
    (h : runEvents es (s.withScript rest) = .next t) : runSteps es.length s = .next t := by
  induction es generalizing s with
  | nil =>
    have self : s.withScript rest = s := by rw [← show s.script = rest from hsc]; rfl
    exact (congrArg _ self.symm).trans h
  | cons e es ih =>
    obtain ⟨u, hu, hstep⟩ := runEvent_withScript (s.withScript rest) (es.map .event ++ rest) e
    have hrest : (u.withScript (es.map .event ++ rest)).withScript rest = u := by
      rw [← show u.script = rest from runEvent_script hu]; rfl
    simp only [runEvents, hu] at h
    rw [← hrest] at h
    simp only [List.length_cons, runSteps, (step_of_event hsc).trans hstep]
    exact ih rfl h

/-- What the block does by itself changes neither the script nor what the host has read. -/
theorem idleTurn_host {s t : State} (h : idleTurn s = .next t) : t.script = s.script ∧ t.replies = s.replies := by
  have worker (n : Nat) : (s.workerTurn n).script = s.script ∧ (s.workerTurn n).replies = s.replies := by
    obtain ⟨fl, e, -⟩ := workerTurn_same s n
    rw [e]; exact ⟨rfl, rfl⟩
  unfold idleTurn State.advance at h
  split at h
  · cases h; exact ⟨rfl, rfl⟩
  · split at h
    · cases h; exact worker _
    · rcases finishTurn_effect (SameInputs.refl s) rfl with ⟨e, -⟩ | ⟨g, e, -⟩ <;> cases e.symm.trans h
      · exact ⟨rfl, rfl⟩
      · obtain ⟨-, hscript, hreplies, -⟩ := apply_frame s g
        exact ⟨hscript, hreplies⟩

/-! ### The obligations -/

/-- Settles O16: every register shows the lengths of the input buffers only, and every other read is of an output. -/
theorem hostCannotSeeInputBuffers : Obligations.HostCannotSeeInputBuffers := by
  intro s t t' b x q hb hx hq h h'
  obtain ⟨u, u', e, e', same⟩ := takeTxn_withInputs s hb hx hq
  obtain rfl := next_inj.1 (((hostTxn_taken s hq).trans e).symm.trans h)
  obtain rfl := next_inj.1 (((hostTxn_taken (s.withInputs b x) hq).trans e').symm.trans h')
  exact same

/-- Settles O50: the first run leaves the inputs alone, so the second has the same effect, and an effect taken twice is taken
once. -/
theorem repeatingACommandChangesNothing : Obligations.RepeatingACommandChangesNothing := by
  intro i s t h
  obtain ⟨g, -, rfl⟩ := exec_eq_apply h
  obtain ⟨f, -, hfirst, hsecond⟩ := exec_effect (apply_same s g) i
  have same : f.apply s = g.apply s := next_inj.1 (hfirst.symm.trans h)
  rw [hsecond, ← same, apply_idem]

/-- Settles O52: outputs and status are no inputs, so the effect is the same, and it writes the status and its command's outputs
whole. -/
theorem oldOutputsAreNeverRead : Obligations.OldOutputsAreNeverRead := by
  intro i s t ob os res fres rate d e c info idx h
  have inputs := same_outputs s ob os res fres rate d e c info idx
  obtain ⟨g, fits, hg, hg'⟩ := exec_effect inputs i
  obtain rfl := next_inj.1 (hg.symm.trans h)
  have flags := apply_sameFlags g s (s.withOutputs ob os res fres rate d e c info idx)
  exact ⟨_, hg', flags.done, flags.err, flags.errcode, flags.errinfo, flags.erridx, apply_sameOutputs inputs fits⟩

/-- Settles O59: no event reads the script, so events run from a script as they run from a list; and what the block does by
itself during a `WAIT` leaves script and replies alone. -/
theorem scriptsAreTakenInOrder : Obligations.ScriptsAreTakenInOrder := by
  refine ⟨fun s t es rest hsc h => runSteps_events es hsc h, fun s rest hsc hd => step_of_wait_done hsc hd, ?_⟩
  intro s t rest hsc hd h
  obtain ⟨hscript, hreplies⟩ := idleTurn_host ((step_of_wait_busy hsc hd).symm.trans h)
  exact ⟨hscript.trans hsc, hreplies⟩

/-- Settles O14: an idle block takes the load, which the capacity decides, and a busy one ignores it. -/
theorem loadsReplaceTheWholeBuffer : Obligations.LoadsReplaceTheWholeBuffer := by
  intro s b rate x
  refine ⟨fun hb h => ?_, fun hb h => ?_, fun h => ?_, fun h => ?_⟩
  · exact (hostTxn_idle hb _).trans (congrArg _ (loadB_fits h))
  · exact (hostTxn_idle hb _).trans (congrArg _ (loadS_fits rate h))
  · cases hb : s.busy with
    | true => exact hostTxn_ignored hb rfl
    | false => exact (hostTxn_idle hb _).trans (congrArg _ (loadB_tooLong (h.resolve_right (by simp [hb]))))
  · cases hb : s.busy with
    | true => exact hostTxn_ignored hb rfl
    | false => exact (hostTxn_idle hb _).trans (congrArg _ (loadS_tooLong rate (h.resolve_right (by simp [hb]))))

/-- Settles O15: a read is taken at any time, and appends one reply. -/
theorem readOutsReturnTheOutputBuffers : Obligations.ReadOutsReturnTheOutputBuffers := by
  intro s i
  refine ⟨hostTxn_taken s rfl, hostTxn_taken s rfl, ?_, ?_⟩
  · obtain ⟨v, n, e, hv⟩ := readByteAt_eq s i
    exact ⟨v, n, (hostTxn_taken s rfl).trans (congrArg _ e), hv⟩
  · obtain ⟨x, n, e, hx⟩ := readSampleAt_eq s i
    exact ⟨x, n, (hostTxn_taken s rfl).trans (congrArg _ e), hx⟩

end Sys2Proof.Proofs
end

section
/-!
SUPPORT. A command in flight against its one-step meaning (R94, R149, R189, R190): the chunks cover the symbols in order, so that
work that is coherent and complete has staged exactly what `exec` computes, and the finish step ends in the state `exec` gives.
Then the turns of the agents in any order, and the theorem that settles the obligation of `30_encoding.md` about them.
-/

namespace Sys2Proof.Machine

/-- `s` with the command `i` accepted and its work come to `w`: all that the turns of workers change of a block (R67, R94). -/
def State.inProgress (s : State) (i : Instr) (w : Work) : State := { s.clearFlags with inFlight := some ⟨i, w⟩ }

end Sys2Proof.Machine

namespace Sys2Proof.Proofs

open Sys2Proof.Machine Sys2Proof.Laws

/-! ### The chunks cover the symbols in order (R143, R145) -/

/-- The chunks, in order, cover the symbols `0` to `L − 1`, each once (R143): all but the last have one length, and the last
takes the rest. -/
theorem chunkTable_cover (l : Nat) {w : Nat} (hw : 1 ≤ w) :
    (chunkTable l w).flatMap (fun c => List.range' c.start c.len) = List.range l := by
  obtain ⟨n, rfl⟩ : ∃ n, w = n + 1 := ⟨w - 1, by omega⟩
  have hle : n * (l / (n + 1)) ≤ l :=
    (Nat.mul_le_mul_right _ n.le_succ).trans (Nat.mul_comm _ _ ▸ Nat.div_mul_le_self l (n + 1))
  have init : ((List.range n).flatMap fun c =>
      List.range' (c * (l / (n + 1))) (if c + 1 < n + 1 then l / (n + 1) else l - n * (l / (n + 1)))) =
      List.range (n * (l / (n + 1))) := by
    rw [← equal_chunks]
    refine List.flatMap_congr fun c hc => ?_
    rw [if_pos (Nat.succ_lt_succ (List.mem_range.1 hc))]
  have last : List.range' (n * (l / (n + 1))) (l - n * (l / (n + 1))) =
      (List.range (l - n * (l / (n + 1)))).map (n * (l / (n + 1)) + ·) := List.range'_eq_map_range
  simp only [chunkTable, List.flatMap_map, Nat.add_sub_cancel]
  rw [List.range_succ, List.flatMap_append, init, List.flatMap_singleton, if_neg (lt_irrefl _), last, ← List.range_add,
    Nat.add_sub_cancel' hle]

/-- The waveform made by chunks is that of the symbols in order (R145). -/
theorem chunkedWave_eq (num : Numerics) (m : Mode) (f0 f1 r : Param) (n : Nat) {w : Nat} (hw : 1 ≤ w) (y : List Symbol) :
    chunkedWave num m f0 f1 r n w y = y.flatMap (symbolTone num m f0 f1 r n) := by
  have chunk (c) (hc : c ∈ chunkTable y.length w) : chunkWave num m f0 f1 r n y c =
      (List.range' c.start c.len).flatMap fun k => symbolTone num m f0 f1 r n (y.getD k 0) := by
    rw [chunkWave, take_drop_map_range' y _ _ (chunk_bound _ w hw c hc), List.flatMap_map]
  rw [chunkedWave, List.flatMap_congr chunk, ← List.flatMap_assoc, chunkTable_cover _ hw, flatMap_range_getD]

/-- Every symbol lies in a chunk, in any table with the rows of the chunk table. -/
theorem exists_chunk {l k n : Nat} (hk : 1 ≤ k) (hn : n < l) {chunks : List Chunk}
    (hmap : chunks.map (fun c => (c.start, c.len)) = (chunkTable l k).map (fun c => (c.start, c.len))) :
    ∃ c ∈ chunks, ∃ j < c.len, n = c.start + j := by
  have hmem : n ∈ (chunkTable l k).flatMap fun c => List.range' c.start c.len := by
    rwa [chunkTable_cover l hk, List.mem_range]
  obtain ⟨d, hd, hnd⟩ := List.mem_flatMap.1 hmem
  obtain ⟨j, hj, e⟩ := List.mem_range'.1 hnd
  obtain ⟨c, hc, hrow⟩ := List.mem_map.1 (hmap ▸ List.mem_map_of_mem hd : (d.start, d.len) ∈ chunks.map _)
  obtain ⟨hstart, hlen⟩ := Prod.mk.inj hrow
  exact ⟨c, hc, j, hlen ▸ hj, by omega⟩

/-! ### What complete work has staged (R73) -/

/-- A staging storage whose every entry is the one `f` gives. -/
theorem stage_eq_map {α : Type} {stage : List (Option α)} {n : Nat} (hlen : stage.length = n) (f : Nat → α)
    (h : ∀ k < n, stage[k]? = some (some (f k))) : stage = (List.range n).map fun k => some (f k) := by
  refine List.ext_getElem? fun k => ?_
  rcases Nat.lt_or_ge k n with hk | hk
  · rw [h k hk, List.getElem?_map, List.getElem?_range hk]; rfl
  · rw [List.getElem?_eq_none (hlen ▸ hk), List.getElem?_eq_none (by simpa using hk)]

/-- At the join of a `MODULATE` the tone of every symbol is staged. -/
theorem encode_staged {s : State} {y : List Symbol} {k : Nat} (hk : 1 ≤ k) {chunks : List Chunk}
    {stage : List (Option (List Sample))} (hjoin : (Work.encode y k chunks stage).complete = true)
    (hmap : chunks.map (fun c => (c.start, c.len)) = (chunkTable y.length k).map (fun c => (c.start, c.len)))
    (hlen : stage.length = y.length)
    (hst : ∀ c ∈ chunks, ∀ j < c.progress, stage[c.start + j]? = some (some (s.stageTone y (c.start + j)))) :
    stage = (List.range y.length).map fun n => some (s.stageTone y n) := by
  refine stage_eq_map hlen _ fun n hn => ?_
  obtain ⟨c, hc, j, hj, rfl⟩ := exists_chunk hk hn hmap
  have hdone : c.len ≤ c.progress := of_decide_eq_true (List.all_eq_true.1 hjoin c hc)
  exact hst c hc j (hj.trans_le hdone)

/-- At the join of a `DEMODULATE` the result of every slot is staged. -/
theorem decode_staged {s : State} {n : Nat} {stage : List (Option SlotResult)} (hjoin : (Work.decode n stage).complete = true)
    (hlen : stage.length = n) (hst : ∀ k r, stage[k]? = some (some r) → r = s.decodeSlot s.flightMode k) :
    stage = (List.range n).map fun k => some (s.decodeSlot s.flightMode k) := by
  refine stage_eq_map hlen _ fun k hk => ?_
  have hget : stage[k]? = some (stage[k]'(hlen ▸ hk)) := List.getElem?_eq_getElem _
  obtain ⟨r, hr⟩ := Option.isSome_iff_exists.1 (List.all_eq_true.1 hjoin _ (List.mem_of_getElem? hget))
  rw [hr] at hget
  rw [hget, hst k r hget]

/-- The finish step of coherent work at the join ends as the command's one-step meaning does (R94, R149, R189). -/
theorem finishFlight_eq_exec {s : State} {i : Instr} {w : Work} (h : w.Coherent s i) (hjoin : w.complete = true) :
    s.finishFlight ⟨i, w⟩ = exec i s := by
  unfold Work.Coherent at h
  rcases startWork_cases i s with e | ⟨rfl, m, hok, e⟩ | ⟨rfl, m, hok, e⟩ <;> simp only [e] at h
  · subst h; rfl
  · obtain ⟨chunks, stage, rfl, hmap, -, hlen, hst⟩ := h
    obtain ⟨-, hmode, hworkers, -⟩ := modulateChecks_ok hok
    have hpos := workerCount_pos hworkers
    have hstage := encode_staged hpos hjoin hmap hlen hst
    simp only [State.finishFlight, exec, execModulate, hok]
    rw [chunkedWave_eq _ _ _ _ _ _ hpos, ← flatMap_range_getD, hstage, List.flatMap_map]
    simp only [Option.getD_some, State.stageTone, flightMode_of hmode]
  · obtain ⟨stage, rfl, hlen, hst⟩ := h
    obtain ⟨-, hmode, -⟩ := demodulateChecks_ok hok
    have hstage := decode_staged hjoin hlen hst
    simp only [State.finishFlight, exec, execDemodulate, hok, hstage, State.decodeSlots, flightMode_of hmode,
      List.filterMap_map, Function.id_comp]
    exact congrArg _ (congrFun List.filterMap_eq_map' _)

/-! ### Turns of the agents after acceptance -/

/-- Acceptance puts a command in progress with the work it starts with. -/
theorem begin_eq (s : State) (i : Instr) : s.begin i = s.inProgress i (startWork i s) := rfl

/-- The flags and the record in flight are no inputs. -/
theorem same_inProgress (s : State) (i : Instr) (w : Work) : SameInputs s (s.inProgress i w) :=
  ⟨rfl, rfl, rfl, rfl, rfl, rfl, rfl, rfl, rfl, rfl, rfl, rfl, rfl⟩

/-- A finish step writes the flags and removes the record, whatever they were. -/
theorem apply_inProgress (g : Effect) (s : State) (i : Instr) (w : Work) : g.apply (s.inProgress i w) = g.apply s := by
  cases g <;> rfl

/-- A command has the same outcome from the state in which it is in progress as from the state it was accepted in. -/
theorem exec_inProgress (s : State) (i : Instr) (w : Work) : exec i (s.inProgress i w) = exec i s := by
  obtain ⟨g, -, hs, hw⟩ := exec_effect (same_inProgress s i w) i
  rw [hs, hw, apply_inProgress]

/-- The controller's turn, at the join: the command ends as its one-step meaning does. -/
theorem finishTurn_join {s : State} {i : Instr} {w : Work} (h : w.Coherent s i) (hjoin : w.complete = true) :
    (s.inProgress i w).finishTurn = exec i s := by
  have hfinish := finishFlight_eq_exec (((same_inProgress s i w).coherent i w).2 h) hjoin
  exact (if_pos hjoin).trans (hfinish.trans (exec_inProgress s i w))

/-- The controller's turn, before the join: nothing. -/
theorem finishTurn_early (s : State) (i : Instr) {w : Work} (h : w.complete = false) :
    (s.inProgress i w).finishTurn = .next (s.inProgress i w) := if_neg (by simp [h])

/-- A worker's turn with an enabled step. -/
theorem workerTurn_enabled (s : State) (i : Instr) {w w' : Work} {n : Nat} (h : w.workerStep s n = some w') :
    (s.inProgress i w).workerTurn n = s.inProgress i w' := by
  have hstep : w.workerStep (s.inProgress i w) n = some w' := ((same_inProgress s i w).workerStep w n).trans h
  simp only [State.workerTurn, State.inProgress] at hstep ⊢
  rw [hstep]

/-- A worker's turn without one. -/
theorem workerTurn_disabled (s : State) (i : Instr) {w : Work} {n : Nat} (h : w.workerStep s n = none) :
    (s.inProgress i w).workerTurn n = s.inProgress i w := by
  have hstep : w.workerStep (s.inProgress i w) n = none := ((same_inProgress s i w).workerStep w n).trans h
  simp only [State.workerTurn, State.inProgress] at hstep ⊢
  rw [hstep]

/-- A turn of an agent ends the command as its one-step meaning does, or leaves it in progress with coherent work. -/
theorem runEvent_inner {e : Event} (he : e.inner) {s : State} {i : Instr} {w : Work} (h : w.Coherent s i) :
    runEvent (s.inProgress i w) e = exec i s ∨
      ∃ w' : Work, w'.Coherent s i ∧ runEvent (s.inProgress i w) e = .next (s.inProgress i w') := by
  rcases he with rfl | ⟨n, rfl⟩
  · cases hjoin : w.complete with
    | true => exact .inl (finishTurn_join h hjoin)
    | false => exact .inr ⟨w, h, finishTurn_early s i hjoin⟩
  · cases hstep : w.workerStep s n with
    | none => exact .inr ⟨w, h, congrArg _ (workerTurn_disabled s i hstep)⟩
    | some w' => exact .inr ⟨w', workerStep_coherent h hstep, congrArg _ (workerTurn_enabled s i hstep)⟩

/-- On an idle block the turns of the agents change nothing. -/
theorem runEvents_inner_idle {s : State} (hi : s.inFlight = none) (es : List Event) (hes : ∀ e ∈ es, e.inner) :
    runEvents es s = .next s := by
  induction es with
  | nil => rfl
  | cons e es ih =>
    have hturn : runEvent s e = .next s := by
      rcases hes e List.mem_cons_self with rfl | ⟨n, rfl⟩ <;> simp [runEvent, State.finishTurn, State.workerTurn, hi]
    simp only [runEvents, hturn]
    exact ih fun d hd => hes d (List.mem_cons_of_mem e hd)

/-- A finish step leaves the block idle. -/
theorem apply_inFlight (g : Effect) (s : State) : (g.apply s).inFlight = none := by cases g <;> rfl

/-- Turns of the agents, in any order and number, leave the command in progress or end it as its one-step meaning does. -/
theorem runEvents_inner {i : Instr} {s t : State} (es : List Event) (hes : ∀ e ∈ es, e.inner) {w : Work}
    (h : w.Coherent s i) (hrun : runEvents es (s.inProgress i w) = .next t) :
    (∃ w', t = s.inProgress i w') ∨ exec i s = .next t := by
  induction es generalizing w with
  | nil => exact .inl ⟨w, (next_inj.1 hrun).symm⟩
  | cons e es ih =>
    have hrest : ∀ d ∈ es, d.inner := fun d hd => hes d (List.mem_cons_of_mem e hd)
    rcases runEvent_inner (hes e List.mem_cons_self) h with hend | ⟨w', hw', hturn⟩
    · obtain ⟨g, -, hg, -⟩ := exec_effect (SameInputs.refl s) i
      simp only [runEvents, hend.trans hg] at hrun
      rw [runEvents_inner_idle (apply_inFlight g s) es hrest] at hrun
      exact .inr (hg.trans hrun)
    · simp only [runEvents, hturn] at hrun
      exact ih hrest hw' hrun

/-- Settles O57: the work a command starts with is coherent, every turn keeps it so or finishes it, and coherent work that is
complete finishes as `exec` does. -/
theorem everyScheduleEndsAsTheOneStepMeaning : Obligations.EveryScheduleEndsAsTheOneStepMeaning := by
  intro s t i es hb hes hrun
  simp only [runEvents, runEvent_accept hb, begin_eq] at hrun
  rcases runEvents_inner es hes (startWork_coherent i s) hrun with ⟨w', rfl⟩ | hend
  · exact .inl ⟨rfl, rfl⟩
  · exact .inr hend

end Sys2Proof.Proofs
end

section
/-!
SUPPORT. Command words: the decoder reads a command from exactly that command's word (R93, R95, R99), what a write of any word to
`CMD` does (R94, R99, R217), and the theorems that settle the obligations of `30_encoding.md` about them.
-/

namespace Sys2Proof.Proofs

open Sys2Proof.Machine Sys2Proof.Laws

/-! ### The decoder (R93, R95, R99) -/

/-- A word is its two fields (R93). -/
theorem fields_append (w : Word) : zeroField w ++ opcField w = w := by
  have h := BitVec.extractLsb'_append_extractLsb'_eq_extractLsb' (x := w) (start₂ := 8) (len₂ := 24) (start₁ := 0)
    (len₁ := 8) rfl
  exact h.trans BitVec.extractLsb'_eq_self

/-- A code names the command it is the code of (R95). -/
theorem opcTable_eq_some {n : Nat} {i : Instr} : opcTable n = some i ↔ n = (opcOf i).toNat := by
  constructor
  · intro h
    unfold opcTable at h
    split at h <;> cases h <;> rfl
  · rintro rfl
    cases i <;> rfl

/-- The codes 1 to 7 name a command (R95). -/
theorem exists_opcTable {n : Nat} (h1 : 1 ≤ n) (h7 : n ≤ 7) : ∃ i, opcTable n = some i := by
  interval_cases n <;> exact ⟨_, rfl⟩

/-- No other code names one (R99). -/
theorem opcTable_reserved {n : Nat} (h : n = 0 ∨ 8 ≤ n) : opcTable n = none := by
  refine Option.eq_none_iff_forall_ne_some.2 fun i hi => ?_
  have hcode : 1 ≤ (opcOf i).toNat ∧ (opcOf i).toNat ≤ 7 := by cases i <;> decide
  rw [opcTable_eq_some] at hi
  omega

/-- The decoder reads a command from a word iff `ZERO` is 0 and `OPC` is the command's code (R95, R99). -/
theorem decode_eq_ok {w : Word} {i : Instr} : decode w = .ok i ↔ zeroField w = 0#24 ∧ opcField w = opcOf i := by
  have hcode : opcTable (opcField w).toNat = some i ↔ opcField w = opcOf i :=
    opcTable_eq_some.trans BitVec.toNat_inj
  rw [← hcode]
  unfold decode
  split
  · simp_all
  · split <;> simp_all

/-- The decoder reads a command from exactly that command's word (R93, R95). -/
theorem decode_eq_ok_iff_encode {w : Word} {i : Instr} : decode w = .ok i ↔ w = encode i := by
  constructor
  · intro h
    obtain ⟨hzero, hopc⟩ := decode_eq_ok.1 h
    rw [← fields_append w, hzero, hopc, encode]
  · rintro rfl
    exact decode_encode i

/-- A legal word is a command's, by its code (R99). -/
theorem decode_legal {w : Word} (hzero : zeroField w = 0#24) (h1 : 1 ≤ (opcField w).toNat) (h7 : (opcField w).toNat ≤ 7) :
    ∃ i, opcOf i = opcField w ∧ decode w = .ok i := by
  obtain ⟨i, hi⟩ := exists_opcTable h1 h7
  have hopc : opcField w = opcOf i := BitVec.eq_of_toNat_eq (opcTable_eq_some.1 hi)
  exact ⟨i, hopc.symm, decode_eq_ok.2 ⟨hzero, hopc⟩⟩

/-- Any other word is none (R99). -/
theorem decode_illegal {w : Word} (h : zeroField w ≠ 0#24 ∨ (opcField w).toNat = 0 ∨ 8 ≤ (opcField w).toNat) :
    ∃ e, decode w = .error e := by
  cases hd : decode w with
  | error e => exact ⟨e, rfl⟩
  | ok i =>
    obtain ⟨hzero, hopc⟩ := decode_eq_ok.1 hd
    have hcode := opcTable_reserved (h.resolve_left (not_not.2 hzero))
    rw [opcTable_eq_some.2 (congrArg _ hopc)] at hcode
    cases hcode

/-- The word of a command is a legal one: its `ZERO` field is 0 and its code is one of the seven (R93, R95). -/
theorem encode_wf (i : Instr) : CommandWord.wf (encode i) = true := by cases i <;> decide

/-! ### A write to `CMD` (R94, R99, R217) -/

/-- A command's word written to `CMD` of an idle block, taken in one step: the command. -/
theorem runEvent_cmd {s : State} (hb : s.busy = false) {w : Word} {i : Instr} (hw : decode w = .ok i) :
    runEvent s (.host (.wrWord .cmd w)) = exec i s := by
  refine (hostTxn_idle hb _).trans ?_
  simp only [takeTxn, runCommand, hw, if_true]

/-- A word that is no command, in one step: `IllegalCommand`. -/
theorem runEvent_cmd_illegal {s : State} (hb : s.busy = false) {w : Word} {e : DecodeError} (hw : decode w = .error e) :
    runEvent s (.host (.wrWord .cmd w)) = .next (s.finishError .illegalCommand w 0) := by
  refine (hostTxn_idle hb _).trans ?_
  simp only [takeTxn, runCommand, hw, if_true, raise]

/-- A command's word accepted by an idle block: the command is in flight. -/
theorem runEvent_accept_legal {s : State} (hb : s.busy = false) {w : Word} {i : Instr} (hw : decode w = .ok i) :
    runEvent s (.accept w) = .next (s.begin i) := by
  obtain rfl := decode_eq_ok_iff_encode.1 hw
  exact runEvent_accept hb i

/-- A word that is no command is not accepted: `IllegalCommand` at once. -/
theorem runEvent_accept_illegal {s : State} (hb : s.busy = false) {w : Word} {e : DecodeError} (hw : decode w = .error e) :
    runEvent s (.accept w) = .next (s.finishError .illegalCommand w 0) := by
  simp only [runEvent, hb, Bool.false_eq_true, if_false, acceptCommand, hw, raise]

/-- A step at a `CMD` write of an idle block is the command. -/
theorem step_cmd {s : State} {w : Word} {i : Instr} {rest : List Line} (hidle : s.inFlight = none)
    (hsc : s.script = .event (.host (.wrWord .cmd w)) :: rest) (hw : decode w = .ok i) :
    step s = exec i (s.withScript rest) :=
  (step_of_event hsc).trans (runEvent_cmd (s := s.withScript rest) ((busy_false s).2 hidle) hw)

/-! ### The obligations -/

/-- Settles O1: both hold of each of the seven words. -/
theorem encodedCommandsDecodeBack : Obligations.EncodedCommandsDecodeBack :=
  fun i _ => ⟨decode_encode i, encode_wf i⟩

/-- Settles O2: the decoder reads a command from exactly its word, and the full mask hides no bit. -/
theorem decoderAcceptsExactlyTheTable : Obligations.DecoderAcceptsExactlyTheTable := by
  intro w
  have row (i : Instr) : decode w = .ok i ↔ w &&& 0xFFFFFFFF#32 = encode i := by
    rw [show (0xFFFFFFFF#32) = BitVec.allOnes 32 by decide, BitVec.and_allOnes, decode_eq_ok_iff_encode]
  exact ⟨row .freqof, row .gentone, row .modulate, row .decslot, row .demodulate, row .expand, row .pack⟩

/-- Settles O3: each word written out is the word of its command. -/
theorem writtenOutWordsDecode : Obligations.WrittenOutWordsDecode :=
  ⟨decode_encode .freqof, decode_encode .gentone, decode_encode .modulate, decode_encode .decslot,
    decode_encode .demodulate, decode_encode .expand, decode_encode .pack, rfl⟩

/-- Settles O4: the step takes the `CMD` write off the script and runs its command; `withFetchWord` places such a write on an idle
block. -/
theorem stepRunsTheDecodedCommand : Obligations.StepRunsTheDecodedCommand :=
  ⟨fun _ _ _ _ hidle hsc hw => step_cmd hidle hsc hw, fun s w _ hw => step_cmd (s := s.withFetchWord 32 w) rfl rfl hw⟩

/-- Settles O5: a busy block ignores the write, and on an idle one the two fields of the word decide. -/
theorem commandAcceptance : Obligations.CommandAcceptance := by
  intro s w
  refine ⟨fun hb => ⟨if_pos hb, hostTxn_ignored hb rfl⟩, fun hb hzero h1 h7 => ?_, fun hb h => ?_⟩
  · obtain ⟨i, hopc, hw⟩ := decode_legal hzero h1 h7
    exact ⟨i, hopc, s.begin i, runEvent_accept_legal hb hw, rfl, rfl⟩
  · obtain ⟨e, hw⟩ := decode_illegal h
    exact ⟨runEvent_accept_illegal hb hw, runEvent_cmd_illegal hb hw⟩

end Sys2Proof.Proofs
end

section
/-!
SUPPORT. A contract call of R102 from its first line to its last: `CMD` in one step or with a `WAIT` that sees every small step of
the command go by (R94, R101, R255), then the caller's look at `STATUS`, and the read-out or the read of `ERRCODE`.
-/

namespace Sys2Proof.Machine

/-- `s` after the host has read `rs`. -/
def State.replied (s : State) (rs : List Reply) : State := { s with replies := s.replies ++ rs }

/-- A read of `STATUS`, or of another `u32` register, that returned `w`. -/
def wordReply (w : Word) : Reply := .reg (.word w)

/-- The transaction that ends a call with read-out `out`: after an error it is the read of `ERRCODE` (R102). -/
def State.lastRead (s : State) (out : Txn) : Txn := if s.err then .rd (.word .errcode) else out

/-- How often a `WAIT` behind `CMD` reads `DONE = 0`: never after a command taken in one step, else once per step (R101). -/
def Pace.polls (i : Instr) (s : State) : Pace → Nat
  | .whole => 0
  | .stepwise => (startWork i s).remaining + 1

end Sys2Proof.Machine

namespace Sys2Proof.Proofs

open Sys2Proof.Machine Sys2Proof.Laws

/-! ### Steps and events in sequence -/

/-- A first step, then the others. -/
theorem runSteps_succ {s t : State} (n : Nat) (h : step s = .next t) : runSteps (n + 1) s = runSteps n t := by
  simp only [runSteps, h]

/-- Some steps, then others. -/
theorem runSteps_add {n : Nat} (m : Nat) {s t : State} (h : runSteps n s = .next t) : runSteps (n + m) s = runSteps m t := by
  induction n generalizing s with
  | zero => rw [Nat.zero_add, next_inj.1 h]
  | succ n ih =>
    obtain ⟨sc, rp, u, hu, -⟩ := step_moves s
    rw [Nat.add_right_comm, runSteps_succ _ hu]
    exact ih ((runSteps_succ n hu).symm.trans h)

/-- A step at a transaction of the host, on an idle block. -/
theorem step_host {s : State} {t : Txn} {rest : List Line} (hsc : s.script = .event (.host t) :: rest)
    (hb : s.busy = false) : step s = takeTxn (s.withScript rest) t :=
  (step_of_event hsc).trans (hostTxn_idle (s := s.withScript rest) hb t)

/-- Events read and change nothing of the script they are taken from. -/
theorem runEvents_withScript (es : List Event) {s t : State} (h : runEvents es s = .next t) (q : List Line) :
    runEvents es (s.withScript q) = .next (t.withScript q) ∧ t.script = s.script := by
  induction es generalizing s with
  | nil => obtain rfl := next_inj.1 h; exact ⟨rfl, rfl⟩
  | cons e es ih =>
    obtain ⟨u, hu, hq⟩ := runEvent_withScript s q e
    simp only [runEvents, hu] at h
    obtain ⟨hrun, hscript⟩ := ih h
    exact ⟨by simp only [runEvents, hq, hrun], hscript.trans (runEvent_script hu)⟩

/-! ### The small steps of a command that nothing else is scheduled on (R255) -/

/-- No worker step is enabled iff the join is reached (R73). -/
theorem nextWorker_none_iff (w : Work) : w.nextWorker = none ↔ w.complete = true := by
  cases w with
  | unit => simp [Work.nextWorker, Work.complete]
  | encode y k chunks stage => simp [Work.nextWorker, Work.complete, List.findIdx?_eq_none_iff]
  | decode k stage => simp [Work.nextWorker, Work.complete, List.findIdx?_eq_none_iff]

/-- The step of the worker whose turn is next is enabled. -/
theorem nextWorker_enabled {w : Work} {n : Nat} (h : w.nextWorker = some n) (s : State) :
    ∃ w', w.workerStep s n = some w' := by
  cases w with
  | unit => cases h
  | encode y k chunks stage =>
    obtain ⟨hn, hlt, -⟩ := List.findIdx?_eq_some_iff_getElem.1 h
    simp only [Work.workerStep, List.getElem?_eq_getElem hn, if_pos (of_decide_eq_true hlt)]
    exact ⟨_, rfl⟩
  | decode k stage =>
    obtain ⟨hn, hnone, -⟩ := List.findIdx?_eq_some_iff_getElem.1 h
    simp only [Work.workerStep, List.getElem?_eq_getElem hn, Option.isNone_iff_eq_none.1 hnone]
    exact ⟨_, rfl⟩

/-- Lowering one entry of a list by 1 lowers its sum by 1. -/
theorem sum_set_pred {l : List Nat} {n a : Nat} (h : l[n]? = some (a + 1)) : (l.set n a).sum + 1 = l.sum := by
  induction l generalizing n with
  | nil => cases h
  | cons b l ih =>
    cases n with
    | zero => obtain rfl := Option.some.inj h; simp; omega
    | succ n =>
      have := ih (n := n) h
      simp only [List.set_cons_succ, List.sum_cons]
      omega

/-- A worker step brings the join one step nearer (R255). -/
theorem workerStep_remaining {s : State} {w w' : Work} {n : Nat} (h : w.workerStep s n = some w') :
    w'.remaining + 1 = w.remaining := by
  cases w with
  | unit => cases h
  | encode y k chunks stage =>
    obtain ⟨c, hn, hc, rfl⟩ := workerStep_encode h
    simp only [Work.remaining, List.map_set]
    refine sum_set_pred ?_
    rw [List.getElem?_map, hn, Option.map_some, Option.some_inj]
    omega
  | decode k stage =>
    obtain ⟨hn, rfl⟩ := workerStep_decode h
    obtain ⟨hlt, hnone⟩ := List.getElem?_eq_some_iff.1 hn
    have hpos : 0 < stage.countP Option.isNone := List.countP_pos_iff.2 ⟨none, List.mem_of_getElem? hn, rfl⟩
    simp only [Work.remaining, List.countP_set hlt, hnone]
    simp
    omega

/-- Left to itself a command that has reached the join ends as its one-step meaning does. -/
theorem idleTurn_join {s : State} {i : Instr} {w : Work} (h : w.Coherent s i) (hjoin : w.complete = true) :
    idleTurn (s.inProgress i w) = exec i s := by
  have hadvance : idleTurn (s.inProgress i w) = (s.inProgress i w).finishTurn := by
    simp only [idleTurn, State.inProgress, State.advance, (nextWorker_none_iff w).2 hjoin]
  exact hadvance.trans (finishTurn_join h hjoin)

/-- Left to itself a command before the join takes one worker step. -/
theorem idleTurn_worker {s : State} {i : Instr} {w : Work} (h : w.Coherent s i) (hjoin : w.complete = false) :
    ∃ w', w'.Coherent s i ∧ w'.remaining + 1 = w.remaining ∧ idleTurn (s.inProgress i w) = .next (s.inProgress i w') := by
  obtain ⟨n, hn⟩ := Option.ne_none_iff_exists'.1 fun hnone => by
    simp [(nextWorker_none_iff w).1 hnone] at hjoin
  obtain ⟨w', hw'⟩ := nextWorker_enabled hn s
  refine ⟨w', workerStep_coherent h hw', workerStep_remaining hw', ?_⟩
  rw [← workerTurn_enabled s i hw']
  simp only [idleTurn, State.inProgress, State.advance, hn]

/-! ### `WAIT` (R101) -/

/-- A read leaves the record in flight alone. -/
@[simp] theorem replied_inFlight (s : State) (rs : List Reply) : (s.replied rs).inFlight = s.inFlight := rfl

/-- A read adds to what the host has read. -/
@[simp] theorem replied_replies (s : State) (rs : List Reply) : (s.replied rs).replies = s.replies ++ rs := rfl

/-- Reading nothing. -/
theorem replied_nil (s : State) : s.replied [] = s := by simp [State.replied]

/-- What the host has read is no input. -/
theorem same_replied (s : State) (rs : List Reply) : SameInputs s (s.replied rs) :=
  ⟨rfl, rfl, rfl, rfl, rfl, rfl, rfl, rfl, rfl, rfl, rfl, rfl, rfl⟩

/-- First some reads, then others. -/
theorem replied_append (s : State) (rs rs' : List Reply) : (s.replied rs).replied rs' = s.replied (rs ++ rs') :=
  congrArg (fun l => { s with replies := l }) (List.append_assoc _ _ _)

/-- A `WAIT` reads `STATUS` as 1 (`BUSY`) while the command is in progress, once per step, until the command has ended as its
one-step meaning does. -/
theorem wait_inProgress {i : Instr} {rest : List Line} (n : Nat) {s : State} {w : Work} (hn : w.remaining = n)
    (h : w.Coherent s i) (hsc : s.script = .wait :: rest) :
    runSteps (n + 1) (s.inProgress i w) = exec i (s.replied (List.replicate (n + 1) (wordReply 1))) := by
  have hpoll : step (s.inProgress i w) = idleTurn ((s.replied [wordReply 1]).inProgress i w) := step_of_wait_busy hsc rfl
  have hcoh := ((same_replied s [wordReply 1]).coherent i w).2 h
  induction n generalizing s w with
  | zero =>
    have hend := hpoll.trans (idleTurn_join hcoh ((complete_iff w).2 hn))
    obtain ⟨g, -, hg, -⟩ := exec_effect (SameInputs.refl (s.replied [wordReply 1])) i
    exact (runSteps_succ 0 (hend.trans hg)).trans hg.symm
  | succ n ih =>
    obtain ⟨w', hw', hrem, hturn⟩ := idleTurn_worker hcoh (by
      rw [Bool.eq_false_iff, ne_eq, complete_iff]; omega)
    have hrest := ih (by omega) hw' hsc (step_of_wait_busy hsc rfl) (((same_replied _ _).coherent i w').2 hw')
    exact (runSteps_succ (n + 1) (hpoll.trans hturn)).trans (hrest.trans (congrArg (exec i) (replied_append s _ _)))

/-! ### A contract call (R102) -/

/-- A finish step reads and changes neither the script nor what the host has read. -/
theorem apply_host (g : Effect) (s : State) (q : List Line) (rs : List Reply) :
    g.apply ((s.withScript q).replied rs) = ((g.apply s).withScript q).replied rs := by
  cases g <;> rfl

/-- A command does the same whatever the script and whatever the host has read. -/
theorem exec_host {i : Instr} {s t : State} (h : exec i s = .next t) (q : List Line) (rs : List Reply) :
    exec i ((s.withScript q).replied rs) = .next ((t.withScript q).replied rs) := by
  have same : SameInputs s ((s.withScript q).replied rs) := ⟨rfl, rfl, rfl, rfl, rfl, rfl, rfl, rfl, rfl, rfl, rfl, rfl, rfl⟩
  obtain ⟨g, -, hg, hg'⟩ := exec_effect same i
  obtain rfl := next_inj.1 (hg.symm.trans h)
  exact hg'.trans (congrArg _ (apply_host g s q rs))

/-- `CMD`, with what its `WAIT` reads until the command has ended, in either pace. -/
theorem cmdLine_run (p : Pace) {i : Instr} {u v : State} (hb : u.busy = false) (he : exec i u = .next v) (tail : List Line) :
    ∃ n, runSteps n (u.withScript (cmdLine p i :: .wait :: tail)) =
      .next ((v.withScript (.wait :: tail)).replied (List.replicate (p.polls i u) (wordReply 1))) := by
  cases p with
  | whole =>
    have hcmd : step (u.withScript (cmdLine .whole i :: .wait :: tail)) = exec i (u.withScript (.wait :: tail)) :=
      step_cmd ((busy_false u).1 hb) rfl (decode_encode i)
    have hend := exec_host he (.wait :: tail) []
    rw [replied_nil] at hend
    exact ⟨1, runSteps_succ 0 (hcmd.trans hend)⟩
  | stepwise =>
    have haccept : step (u.withScript (cmdLine .stepwise i :: .wait :: tail)) =
        .next ((u.withScript (.wait :: tail)).inProgress i (startWork i u)) :=
      (step_of_event rfl).trans ((runEvent_accept (s := u.withScript (.wait :: tail)) hb i).trans
        (congrArg _ (begin_withScript u (.wait :: tail) i)))
    have hcoh := ((same_script u (.wait :: tail)).coherent i _).2 (startWork_coherent i u)
    exact ⟨_, (runSteps_succ _ haccept).trans ((wait_inProgress _ rfl hcoh rfl).trans (exec_host he _ _))⟩

/-- The end of a call, the command having ended: the last read of `WAIT`, the caller's look at `STATUS`, and the last read. -/
theorem callTail_run {s : State} {out : Txn} {rest : List Line} (hsc : s.script = .wait :: .result out :: rest)
    (hd : s.done = true) (hb : s.busy = false) :
    runSteps 3 s = takeTxn ((s.withScript rest).replied [wordReply s.statusWord, wordReply s.statusWord]) (s.lastRead out) := by
  have hwait : step s = .next ((s.withScript (.result out :: rest)).replied [wordReply s.statusWord]) :=
    step_of_wait_done hsc hd
  have hlook : step ((s.withScript (.result out :: rest)).replied [wordReply s.statusWord]) =
      .next ((((s.withScript rest).replied [wordReply s.statusWord]).replied [wordReply s.statusWord]).withScript
        (.event (.host (s.lastRead out)) :: rest)) := step_of_result rfl
  rw [replied_append, List.singleton_append] at hlook
  have hread : step (((s.withScript rest).replied [wordReply s.statusWord, wordReply s.statusWord]).withScript
      (.event (.host (s.lastRead out)) :: rest)) =
      takeTxn ((s.withScript rest).replied [wordReply s.statusWord, wordReply s.statusWord]) (s.lastRead out) :=
    step_host rfl hb
  obtain ⟨t, ht, -⟩ := takeTxn_moves ((s.withScript rest).replied [wordReply s.statusWord, wordReply s.statusWord])
    (s.lastRead out) fun _ => (busy_false s).1 hb
  rw [runSteps_succ 2 hwait, runSteps_succ 1 hlook]
  exact (runSteps_succ 0 (hread.trans ht)).trans ht.symm

/-- A finish step sets `DONE`. -/
theorem apply_done (g : Effect) (s : State) : (g.apply s).done = true := by cases g <;> rfl

/-- All the lines of a call, on a block its first lines leave idle. -/
theorem contractCall_run {p : Pace} {hostif : Option Word} {setup : List Txn} {i : Instr} {out : Txn} {rest : List Line}
    {s u v : State} (hsc : s.script = contractCall p hostif setup i out ++ rest)
    (hu : runEvents ((setup ++ failures hostif).map .host) (s.withScript rest) = .next u) (hb : u.busy = false)
    (he : exec i u = .next v) :
    ∃ n, runSteps n s = takeTxn
      ((v.replied (List.replicate (p.polls i u) (wordReply 1))).replied [wordReply v.statusWord, wordReply v.statusWord])
      (v.lastRead out) := by
  obtain ⟨hrun, hscript⟩ := runEvents_withScript _ hu (cmdLine p i :: .wait :: .result out :: rest)
  have hlines : s.script = ((setup ++ failures hostif).map Event.host).map Line.event ++
      (cmdLine p i :: .wait :: .result out :: rest) := by
    rw [hsc, contractCall, List.append_assoc, List.map_map]; rfl
  obtain ⟨n, hcmd⟩ := cmdLine_run p hb he (.result out :: rest)
  obtain ⟨g, -, rfl⟩ := exec_eq_apply he
  have hself : (g.apply u).withScript rest = g.apply u := by
    rw [← apply_script, show rest = u.script from hscript.symm]; rfl
  have htail := callTail_run
    (s := ((g.apply u).withScript (.wait :: .result out :: rest)).replied (List.replicate (p.polls i u) (wordReply 1)))
    rfl (apply_done g u) ((busy_false _).2 (apply_inFlight g u))
  refine ⟨_, (runSteps_add _ (runSteps_events _ hlines hrun)).trans ((runSteps_add 3 hcmd).trans (htail.trans ?_))⟩
  conv_rhs => rw [← hself]
  rfl

end Sys2Proof.Proofs
end

section
/-!
SUPPORT. The five contract calls of R102: what their first lines set up, when their commands succeed and what these then answer, and
the theorem that settles the obligation of `30_encoding.md` about them.
-/

namespace Sys2Proof.Machine

/-- A transaction that sets a call up: a register write other than `CMD`, or a load. -/
def Txn.setsUp : Txn → Bool
  | .wrWord r _ => decide (r ≠ .cmd)
  | .wrParam _ _ => true
  | .loadB _ => true
  | .loadS _ _ => true
  | _ => false

/-- What such a transaction does to an idle block. -/
def State.setUp (s : State) : Txn → State
  | .wrWord r v => s.writeWord r v
  | .wrParam r v => s.writeParam r v
  | .loadB b => s.loadB b
  | .loadS rate x => s.loadS rate x
  | _ => s

/-- The lines are run to their end, on an idle block, and the host has read `STATUS` with `DONE = 0` some number of times and
then `last`. -/
def RunsTo (s : State) (lines : List Line) (last : List Reply) : Prop :=
  ∀ rest, s.script = lines ++ rest → ∃ n k t, runSteps n s = .next t ∧ t.script = rest ∧ t.busy = false ∧
    t.replies = s.replies ++ List.replicate k (wordReply 1) ++ last

/-- `s` with the mode and the four parameters that most calls set. -/
def State.withParams (s : State) (mode : Word) (f0 f1 d r : Param) : State :=
  { s with mode := mode, freq0 := f0, freq1 := f1, symdur := d, srate := r }

/-- `s` with other samples loaded, at their rate. -/
def State.withSamples (s : State) (rate : Param) (x : List Sample) : State :=
  { s.withInputs s.mem.ib x with israte := rate }

end Sys2Proof.Machine

namespace Sys2Proof.Proofs

open Sys2Proof.Machine Sys2Proof.Laws

/-! ### When the commands succeed -/

/-- A symbol of the alphabet is in the domain of a symbol operand (R122). -/
theorem inDomain_of_mem {m : Mode} {v : Symbol} (hv : v ∈ alphabet m) : inDomain m (v.setWidth 32) = true := by
  cases m with
  | bit => rcases (mem_alphabet_bit v).1 hv with rfl | rfl <;> rfl
  | byte => exact decide_eq_true (symbol_le v)

/-- `FREQOF` of a symbol of the mode (R123). -/
theorem exec_freqof_ok {s : State} {m : Mode} (hm : modeOf s.mode = some m) (hd : inDomain m s.arg = true) :
    exec .freqof s = .next (s.setFres (freqOf (s.arg.setWidth 8) m s.freq0 s.freq1)).finishOk := by
  simp only [exec, execFreqof, hm, hd, if_true, succeed]

/-- `GENTONE` of a tone that fits `OS` (R134). -/
theorem exec_gentone_ok {s : State} (hsink : s.sinkFail = false) (hslot : s.block.minSlotLen ≤ s.slotLen)
    (hcap : s.slotLen ≤ s.block.capOS.val) :
    exec .gentone s = .next (s.setOS (tone s.block.numerics s.farg s.srate s.slotLen)).finishOk := by
  simp only [exec, execGentone, tooShort_false hslot, Bool.false_eq_true, if_false]
  exact finishSamples_ok s _ hsink (by rwa [tone_length])

/-- `MODULATE` of bytes whose waveform fits `OS` (R150): the worker count does not show (R145). -/
theorem exec_modulate_ok {s : State} {m : Mode} (hsrc : s.srcFail = false) (hsink : s.sinkFail = false)
    (hm : modeOf s.mode = some m) (hw : s.workers ≠ 0) (hslot : s.block.minSlotLen ≤ s.slotLen)
    (hcap : (expand s.mem.ib m).length * s.slotLen ≤ s.block.capOS.val) :
    exec .modulate s =
      .next (s.setOS (modulateWave s.block.numerics m s.freq0 s.freq1 s.srate s.slotLen s.mem.ib)).finishOk := by
  simp only [exec, execModulate, modulateChecks_of hsrc hm hw hslot, chunkedWave_eq _ _ _ _ _ _ (workerCount_pos hw)]
  exact finishSamples_ok s _ hsink (by rwa [wave_length])

/-- `DECSLOT` of a complete slot that decodes (R170). -/
theorem exec_decslot_ok {s : State} {m : Mode} {v : Symbol} (hsrc : s.srcFail = false) (hm : modeOf s.mode = some m)
    (hslot : s.block.minSlotLen ≤ s.slotLen) (hlen : (s.arg.toNat + 1) * s.slotLen ≤ s.mem.is.length)
    (hv : s.decodeSlot m s.arg.toNat = .symbol v) : exec .decslot s = .next (s.setRes (v.setWidth 32)).finishOk := by
  simp only [exec, execDecslot, hsrc, hm, tooShort_false hslot, hv, Bool.false_eq_true, if_false, if_neg hlen.not_gt, succeed]

/-- `DEMODULATE` of slots that all decode, to bytes that fit `OB` (R188). -/
theorem exec_demodulate_ok {s : State} {m : Mode} {symbols : List Symbol} (hsrc : s.srcFail = false)
    (hsink : s.sinkFail = false) (hm : modeOf s.mode = some m) (hslot : s.block.minSlotLen ≤ s.slotLen)
    (hsym : s.decodeSlots m = symbols.map .symbol) (hcap : (pack symbols m).length ≤ s.block.capOB.val) :
    exec .demodulate s = .next (s.setOB (pack symbols m)).finishOk := by
  simp only [exec, execDemodulate, demodulateChecks_of hsrc hm hslot, finishDemodulate, hsym, firstNoBin_none_of_symbols,
    slotSymbols_map]
  exact finishBytes_ok s _ hsink hcap

/-- The slots decode to `symbols` if there are as many and each does. -/
theorem decodeSlots_eq {s : State} {m : Mode} {symbols : List Symbol} (hlen : symbols.length = s.slotCount)
    (h : ∀ (k : Nat) (hk : k < symbols.length), s.decodeSlot m k = .symbol symbols[k]) :
    s.decodeSlots m = symbols.map .symbol := by
  refine List.ext_getElem (by simp [State.decodeSlots, hlen]) fun k _ hk => ?_
  simp only [State.decodeSlots, List.getElem_map, List.getElem_range]
  exact h k (by simpa using hk)

/-- Where `IS` is one slot, slot 0 is the whole of it. -/
theorem decodeSlot_whole {s : State} {m : Mode} (h : s.slotLen = s.mem.is.length) :
    s.decodeSlot m 0 = decodeBlock s.block.numerics m s.freq0 s.freq1 s.srate s.mem.is := by
  simp [State.decodeSlot, State.slotBlock, h]

/-! ### When `MODULATE` and `DEMODULATE` fail up front (R150, R188, R222) -/

/-- A check of `MODULATE` that fails ends it with its error. -/
theorem exec_modulate_error {s : State} {e : ErrCode} {info : Word} (h : modulateChecks s = .error (e, info)) :
    exec .modulate s = .next (s.finishError e info 0) := by
  simp only [exec, execModulate, h, raise]

/-- A check of `DEMODULATE` that fails ends it with its error. -/
theorem exec_demodulate_error {s : State} {e : ErrCode} {info : Word} (h : demodulateChecks s = .error (e, info)) :
    exec .demodulate s = .next (s.finishError e info 0) := by
  simp only [exec, execDemodulate, h, raise]

/-- A failed source is reported before everything else (R211). -/
theorem checks_source {s : State} (h : s.srcFail = true) :
    modulateChecks s = .error (.sourceUnavailable, 0) ∧ demodulateChecks s = .error (.sourceUnavailable, 0) :=
  ⟨if_pos h, if_pos h⟩

/-- An unsupported mode is reported next (R212). -/
theorem checks_mode {s : State} (hsrc : s.srcFail = false) (hm : modeOf s.mode = none) :
    modulateChecks s = .error (.invalidMode, s.mode) ∧ demodulateChecks s = .error (.invalidMode, s.mode) := by
  simp [modulateChecks, demodulateChecks, hsrc, hm]

/-! ### What the first lines of a call set up -/

/-- An idle block takes a transaction that sets a call up. -/
theorem runEvent_setsUp {s : State} (hb : s.busy = false) {t : Txn} (ht : t.setsUp = true) :
    runEvent s (.host t) = .next (s.setUp t) := by
  refine (hostTxn_idle hb t).trans ?_
  cases t with
  | wrWord r v => exact if_neg (of_decide_eq_true ht)
  | wrParam r v => rfl
  | loadB b => rfl
  | loadS rate x => rfl
  | _ => cases ht

/-- A load of `IB` changes `IB` at most. -/
theorem loadB_eq (s : State) (b : List Byte) : ∃ ib, s.loadB b = s.withInputs ib s.mem.is := by
  rcases Nat.lt_or_ge s.block.capIB.val b.length with h | h
  · exact ⟨s.mem.ib, loadB_tooLong h⟩
  · exact ⟨b, loadB_fits h⟩

/-- A load of `IS` changes `IS` and `ISRATE` at most. -/
theorem loadS_eq (s : State) (rate : Param) (x : List Sample) :
    ∃ is rate', s.loadS rate x = s.withSamples rate' is := by
  rcases Nat.lt_or_ge s.block.capIS.val x.length with h | h
  · exact ⟨s.mem.is, s.israte, loadS_tooLong rate h⟩
  · exact ⟨x, rate, loadS_fits rate h⟩

/-- Such a transaction leaves the record in flight and what the host has read alone. -/
theorem setUp_frame (s : State) (t : Txn) : (s.setUp t).inFlight = s.inFlight ∧ (s.setUp t).replies = s.replies := by
  cases t with
  | wrWord r v => cases r <;> exact ⟨rfl, rfl⟩
  | wrParam r v => cases r <;> exact ⟨rfl, rfl⟩
  | loadB b => obtain ⟨ib, e⟩ := loadB_eq s b; simp only [State.setUp, e]; exact ⟨rfl, rfl⟩
  | loadS rate x => obtain ⟨is, rate', e⟩ := loadS_eq s rate x; simp only [State.setUp, e]; exact ⟨rfl, rfl⟩
  | _ => exact ⟨rfl, rfl⟩

/-- The first lines of a call, on an idle block. -/
theorem runEvents_setsUp (l : List Txn) (hl : l.all Txn.setsUp = true) {s : State} (hb : s.busy = false) :
    runEvents (l.map .host) s = .next (l.foldl State.setUp s) ∧ (l.foldl State.setUp s).busy = false ∧
      (l.foldl State.setUp s).replies = s.replies := by
  induction l generalizing s with
  | nil => exact ⟨rfl, hb, rfl⟩
  | cons t l ih =>
    obtain ⟨ht, hrest⟩ := (Bool.and_eq_true _ _).mp hl
    obtain ⟨hflight, hreplies⟩ := setUp_frame s t
    obtain ⟨hrun, hidle, hread⟩ := ih hrest (s := s.setUp t) ((busy_false _).2 (hflight.trans ((busy_false s).1 hb)))
    exact ⟨by simp only [List.map_cons, runEvents, runEvent_setsUp hb ht, hrun, List.foldl_cons], hidle,
      hread.trans hreplies⟩

/-- A call whose lines set up `u`, where its command ends in `v`, from which the last read returns `r`. -/
theorem runsTo_of_exec {p : Pace} {hostif : Option Word} {setup : List Txn} {i : Instr} {out : Txn} {s u v : State}
    {r : Reply} (hb : s.busy = false) (hl : (setup ++ failures hostif).all Txn.setsUp = true)
    (hu : (setup ++ failures hostif).foldl State.setUp s = u) (he : exec i u = .next v)
    (hread : ∀ q rs, takeTxn ((v.withScript q).replied rs) (v.lastRead out) =
      .next (((v.withScript q).replied rs).replied [r])) :
    RunsTo s (contractCall p hostif setup i out) [wordReply v.statusWord, wordReply v.statusWord, r] := by
  intro rest hsc
  have hset := runEvents_setsUp _ hl hb
  rw [hu] at hset
  obtain ⟨hrun, hidle, hsame⟩ := hset
  have hend := exec_host he rest []
  rw [replied_nil, replied_nil] at hend
  obtain ⟨n, hn⟩ := contractCall_run hsc (runEvents_withScript _ hrun rest).1 hidle hend
  obtain ⟨g, -, rfl⟩ := exec_eq_apply he
  obtain ⟨-, -, hreplies, -⟩ := apply_frame u g
  rw [replied_append] at hn
  refine ⟨n, p.polls i (u.withScript rest), _, hn.trans (hread rest _), rfl, ?_, ?_⟩
  · simp [State.busy, apply_inFlight]
  · simp only [replied_replies, State.withScript_replies, hreplies, hsame, List.append_assoc, List.cons_append,
      List.nil_append]
    rfl

/-- A call whose command succeeds reads its result (R102). -/
theorem runsTo_ok {p : Pace} {hostif : Option Word} {setup : List Txn} {i : Instr} {out : Txn} {s u v : State} {r : Reply}
    (hb : s.busy = false) (hl : (setup ++ failures hostif).all Txn.setsUp = true)
    (hu : (setup ++ failures hostif).foldl State.setUp s = u) (he : exec i u = .next v.finishOk)
    (hread : ∀ q rs, takeTxn ((v.finishOk.withScript q).replied rs) out =
      .next (((v.finishOk.withScript q).replied rs).replied [r])) :
    RunsTo s (contractCall p hostif setup i out) [wordReply 2, wordReply 2, r] :=
  runsTo_of_exec hb hl hu he hread

/-- A call whose command fails reads the error's code (R102). -/
theorem runsTo_error {p : Pace} {hostif : Option Word} {setup : List Txn} {i : Instr} {out : Txn} {s u : State}
    {e : ErrCode} {info idx : Word} (hb : s.busy = false) (hl : (setup ++ failures hostif).all Txn.setsUp = true)
    (hu : (setup ++ failures hostif).foldl State.setUp s = u) (he : exec i u = .next (u.finishError e info idx)) :
    RunsTo s (contractCall p hostif setup i out) [wordReply 6, wordReply 6, wordReply e.code] :=
  runsTo_of_exec hb hl hu he fun _ _ => rfl

/-! ### The five calls -/

section

variable (p : Pace) {s : State} (f0 f1 d r : Param)

/-- `frequencyOf` of a symbol of its mode. -/
theorem callFrequencyOf_runsTo (hb : s.busy = false) {m : Mode} {v : Symbol} (hv : v ∈ alphabet m) :
    RunsTo s (callFrequencyOf p none (v.setWidth 32) (modeCode m) f0 f1)
      [wordReply 2, wordReply 2, .reg (.param (freqOf v m f0 f1))] := by
  have he := exec_freqof_ok (s := { s with mode := modeCode m, freq0 := f0, freq1 := f1, arg := v.setWidth 32 })
    (modeOf_modeCode m) (inDomain_of_mem hv)
  have hv8 : ((v.setWidth 32 : Word).setWidth 8) = v := by simp
  rw [hv8] at he
  exact runsTo_ok hb rfl rfl he fun _ _ => rfl

/-- `generateTone` of a tone that fits the block. -/
theorem callGenerateTone_runsTo (f : Param) (hb : s.busy = false) (hsink : s.sinkFail = false) {n : Nat}
    (hn : (s.withParams s.mode s.freq0 s.freq1 d r).slotLen = n) (hmin : s.block.minSlotLen ≤ n)
    (hcap : n ≤ s.block.capOS.val) :
    RunsTo s (callGenerateTone p none f d r) [wordReply 2, wordReply 2, .samples r (tone s.block.numerics f r n)] := by
  subst hn
  have he := exec_gentone_ok (s := { s.withParams s.mode s.freq0 s.freq1 d r with farg := f }) hsink hmin hcap
  exact runsTo_ok hb rfl rfl he fun _ _ => rfl

/-- `modulate` of bytes whose waveform fits the block. -/
theorem callModulate_runsTo (hb : s.busy = false) (hsrc : s.srcFail = false) (hsink : s.sinkFail = false) (m : Mode)
    {b : List Byte} {w : Word} (hw : w ≠ 0) (hload : b.length ≤ s.block.capIB.val) {n : Nat}
    (hn : (s.withParams (modeCode m) f0 f1 d r).slotLen = n) (hmin : s.block.minSlotLen ≤ n)
    (hcap : (expand b m).length * n ≤ s.block.capOS.val) :
    RunsTo s (callModulate p none b (modeCode m) f0 f1 d r w)
      [wordReply 2, wordReply 2, .samples r (modulateWave s.block.numerics m f0 f1 r n b)] := by
  subst hn
  have hu := loadB_fits (s := (s.withParams (modeCode m) f0 f1 d r).writeWord .workers w) hload
  exact runsTo_ok hb rfl hu (exec_modulate_ok hsrc hsink (modeOf_modeCode m) hw hmin hcap) fun _ _ => rfl

/-- `decodeSlot` of one whole slot that decodes. -/
theorem callDecodeSlot_runsTo (hb : s.busy = false) (hsrc : s.srcFail = false) (m : Mode) {x : List Sample} {v : Symbol}
    (hload : x.length ≤ s.block.capIS.val) (hn : (s.withParams (modeCode m) f0 f1 d r).slotLen = x.length)
    (hmin : s.block.minSlotLen ≤ x.length) (hv : decodeBlock s.block.numerics m f0 f1 r x = .symbol v) :
    RunsTo s (callDecodeSlot p none x (modeCode m) f0 f1 r d) [wordReply 2, wordReply 2, wordReply (v.setWidth 32)] := by
  have hu := congrArg (State.writeWord · .arg 0) (loadS_fits (s := s.withParams (modeCode m) f0 f1 d r) r hload)
  have he := exec_decslot_ok (s := ((s.withParams (modeCode m) f0 f1 d r).withSamples r x).writeWord .arg 0) hsrc
    (modeOf_modeCode m) (hmin.trans_eq hn.symm) ((Nat.one_mul _).trans hn).le ((decodeSlot_whole hn).trans hv)
  exact runsTo_ok hb rfl hu he fun _ _ => rfl

/-- `demodulate` of samples whose slots all decode, to bytes that fit the block. -/
theorem callDemodulate_runsTo (hb : s.busy = false) (hsrc : s.srcFail = false) (hsink : s.sinkFail = false) (m : Mode)
    {x : List Sample} {symbols : List Symbol} (hload : x.length ≤ s.block.capIS.val) {n : Nat}
    (hn : (s.withParams (modeCode m) f0 f1 d r).slotLen = n) (hmin : s.block.minSlotLen ≤ n)
    (hlen : symbols.length = x.length / n)
    (hsym : ∀ (k : Nat) (hk : k < symbols.length),
      decodeBlock s.block.numerics m f0 f1 r ((x.drop (k * n)).take n) = .symbol symbols[k])
    (hcap : (pack symbols m).length ≤ s.block.capOB.val) :
    RunsTo s (callDemodulate p none x (modeCode m) f0 f1 d r) [wordReply 2, wordReply 2, .bytes (pack symbols m)] := by
  subst hn
  have hu := loadS_fits (s := s.withParams (modeCode m) f0 f1 d r) r hload
  have he := exec_demodulate_ok (s := (s.withParams (modeCode m) f0 f1 d r).withSamples r x) hsrc hsink (modeOf_modeCode m)
    hmin (decodeSlots_eq hlen hsym) hcap
  exact runsTo_ok hb rfl hu he fun _ _ => rfl

/-- `modulate` in an unsupported mode (R212). -/
theorem callModulate_invalidMode (hb : s.busy = false) (hsrc : s.srcFail = false) (b : List Byte) (w : Word) {mode : Word}
    (hm : modeOf mode = none) : RunsTo s (callModulate p none b mode f0 f1 d r w) [wordReply 6, wordReply 6, wordReply 2] := by
  obtain ⟨ib, hu⟩ := loadB_eq ((s.withParams mode f0 f1 d r).writeWord .workers w) b
  have hchecks := checks_mode (s := ((s.withParams mode f0 f1 d r).writeWord .workers w).withInputs ib s.mem.is) hsrc hm
  exact runsTo_error (e := .invalidMode) hb rfl hu (exec_modulate_error hchecks.1)

/-- `demodulate` in an unsupported mode (R212). -/
theorem callDemodulate_invalidMode (hb : s.busy = false) (hsrc : s.srcFail = false) (x : List Sample) {mode : Word}
    (hm : modeOf mode = none) : RunsTo s (callDemodulate p none x mode f0 f1 d r) [wordReply 6, wordReply 6, wordReply 2] := by
  obtain ⟨is, rate, hu⟩ := loadS_eq (s.withParams mode f0 f1 d r) r x
  have hchecks := checks_mode (s := (s.withParams mode f0 f1 d r).withSamples rate is) hsrc hm
  exact runsTo_error (e := .invalidMode) hb rfl hu (exec_demodulate_error hchecks.2)

/-- `modulate` with a source reported as failed (R30, R211). -/
theorem callModulate_source (hb : s.busy = false) (b : List Byte) (mode w : Word) :
    RunsTo s (callModulate p (some 1) b mode f0 f1 d r w) [wordReply 6, wordReply 6, wordReply 1] :=
  runsTo_error (e := .sourceUnavailable) hb rfl rfl (exec_modulate_error (checks_source rfl).1)

/-- `demodulate` with a source reported as failed (R30, R211). -/
theorem callDemodulate_source (hb : s.busy = false) (x : List Sample) (mode : Word) :
    RunsTo s (callDemodulate p (some 1) x mode f0 f1 d r) [wordReply 6, wordReply 6, wordReply 1] :=
  runsTo_error (e := .sourceUnavailable) hb rfl rfl (exec_demodulate_error (checks_source rfl).2)

end

/-- Settles O60: the lines of any call run as `contractCall_run` says, and each of the five sets up a state in which its command
succeeds with the result the contract promises, or fails up front. -/
theorem contractCallsReturnTheirResults : Obligations.ContractCallsReturnTheirResults := by
  refine ⟨fun p hostif setup i out rest s u v hsc hu hb he => ?_, fun p s m f0 f1 hb hsrc hsink => ⟨fun v hv => ?_,
    fun d r b x w mode => ⟨fun h0 h1 => ⟨?_, ?_⟩, ?_, ?_⟩, fun d r n hn hmin => ⟨fun b w hw hload hcap => ?_,
    fun hcap => ?_, fun x v hlen hload hv => ?_, fun x symbols hload hlen hsym hcap => ?_⟩⟩⟩
  · obtain ⟨n, hn⟩ := contractCall_run hsc hu hb he
    refine ⟨n, hn.trans ?_⟩
    cases p <;> rfl
  · exact callFrequencyOf_runsTo p f0 f1 hb hv
  · exact callModulate_invalidMode p f0 f1 d r hb hsrc b w (modeOf_none mode h0 h1)
  · exact callDemodulate_invalidMode p f0 f1 d r hb hsrc x (modeOf_none mode h0 h1)
  · exact callModulate_source p f0 f1 d r hb b mode w
  · exact callDemodulate_source p f0 f1 d r hb x mode
  · exact callModulate_runsTo p f0 f1 d r hb hsrc hsink m hw hload hn.symm hmin hcap
  · exact callGenerateTone_runsTo p d r f0 hb hsink hn.symm hmin hcap
  · subst hlen
    exact callDecodeSlot_runsTo p f0 f1 d r hb hsrc m hload hn.symm hmin hv
  · exact callDemodulate_runsTo p f0 f1 d r hb hsrc hsink m hload hn.symm hmin hlen hsym hcap

end Sys2Proof.Proofs
end

section
/-!
SUPPORT. The Frequency Map (`40_frequency_map.md`): how the frequencies of two symbols differ, that they lie between the bounds,
and what `FREQOF` makes of them.
-/

namespace Sys2Proof.Proofs

open Sys2Proof.Machine Sys2Proof.Laws

/-! ### The Byte-mode map (R121) -/

theorem freqOf_byte_val (v : Symbol) (f0 f1 : Param) :
    (freqOf v .byte f0 f1).val = f0.val + v.toNat * (f1.val - f0.val) / 255 := rfl

theorem freqOf_byte_zero (f0 f1 : Param) : freqOf 0 .byte f0 f1 = f0 :=
  Param.ext' (by simp [freqOf_byte_val])

theorem freqOf_byte_last (f0 f1 : Param) : freqOf 255 .byte f0 f1 = f1 :=
  Param.ext' (by simp [freqOf_byte_val])

theorem freqOf_byte_sub (u v : Symbol) (f0 f1 : Param) :
    (freqOf u .byte f0 f1).val - (freqOf v .byte f0 f1).val = (u.toNat - v.toNat) * (f1.val - f0.val) / 255 := by
  simp only [freqOf_byte_val]
  ring

/-- The weights of the two bounds are `1 − v/255` and `v/255`. -/
theorem freqOf_byte_between (v : Symbol) (f0 f1 : Param) :
    min f0.val f1.val ≤ (freqOf v .byte f0 f1).val ∧ (freqOf v .byte f0 f1).val ≤ max f0.val f1.val := by
  have hle : (v.toNat : ℚ) / 255 ≤ 1 := by
    rw [div_le_one (by norm_num)]
    exact_mod_cast Nat.le_of_lt_succ v.isLt
  have h0 : 0 ≤ 1 - (v.toNat : ℚ) / 255 := sub_nonneg.2 hle
  have h1 : 0 ≤ (v.toNat : ℚ) / 255 := by positivity
  have hcombo : (freqOf v .byte f0 f1).val = (1 - (v.toNat : ℚ) / 255) • f0.val + ((v.toNat : ℚ) / 255) • f1.val := by
    simp only [freqOf_byte_val, smul_eq_mul]
    ring
  rw [hcombo]
  exact ⟨Convex.min_le_combo _ _ h0 h1 (sub_add_cancel ..), Convex.combo_le_max _ _ h0 h1 (sub_add_cancel ..)⟩

/-- Settles O18: every clause is one of the lemmas on the Byte-mode map, adjacent symbols being 1 apart. -/
theorem byteMapIsLinearBetweenItsBounds : Obligations.ByteMapIsLinearBetweenItsBounds := by
  intro f0 f1 v
  refine ⟨freqOf_byte_val v f0 f1, freqOf_byte_zero f0 f1, freqOf_byte_last f0 f1, fun u hu => ?_,
    freqOf_byte_between v f0 f1⟩
  rw [freqOf_byte_sub, hu, Nat.cast_succ, add_sub_cancel_left, one_mul]

/-! ### Shared frequencies (R125) -/

theorem freqOf_of_equal_bounds (v : Symbol) (m : Mode) (f : Param) : freqOf v m f f = f := by
  cases m with
  | bit => exact ite_self f
  | byte => exact Param.ext' (by simp [freqOf_byte_val])

theorem bounds_eq_of_shared_bit {u v : Symbol} {f0 f1 : Param} (hu : u ∈ alphabet .bit) (hv : v ∈ alphabet .bit)
    (hne : u ≠ v) (h : freqOf u .bit f0 f1 = freqOf v .bit f0 f1) : f0 = f1 := by
  obtain rfl | rfl := (mem_alphabet_bit u).1 hu <;> obtain rfl | rfl := (mem_alphabet_bit v).1 hv
  · exact absurd rfl hne
  · exact h
  · exact h.symm
  · exact absurd rfl hne

theorem bounds_eq_of_shared_byte {u v : Symbol} {f0 f1 : Param} (hne : u ≠ v)
    (h : freqOf u .byte f0 f1 = freqOf v .byte f0 f1) : f0 = f1 := by
  have hprod : ((u.toNat : ℚ) - v.toNat) * (f1.val - f0.val) / 255 = 0 := by rw [← freqOf_byte_sub, h, sub_self]
  have hsym : (u.toNat : ℚ) - v.toNat ≠ 0 := sub_ne_zero.2 fun e => hne (BitVec.eq_of_toNat_eq (Nat.cast_injective e))
  have hbounds : f1.val - f0.val = 0 :=
    (mul_eq_zero.1 ((div_eq_zero_iff.1 hprod).resolve_right (by norm_num))).resolve_left hsym
  exact Param.ext' (sub_eq_zero.1 hbounds).symm

theorem zero_mem_alphabet (m : Mode) : 0 ∈ alphabet m := by
  rw [alphabet_eq]
  exact List.mem_cons_self

theorem one_mem_alphabet (m : Mode) : 1 ∈ alphabet m := by
  cases m with
  | bit => exact (mem_alphabet_bit 1).2 (.inr rfl)
  | byte => exact mem_alphabet_byte 1

/-- Settles O19: different symbols differ in frequency by a non-zero multiple of the difference of the bounds; where the bounds
are equal, symbols 0 and 1 share theirs. -/
theorem symbolsShareAFrequencyIffBoundsEqual : Obligations.SymbolsShareAFrequencyIffBoundsEqual := by
  refine fun m f0 f1 => ⟨⟨fun ⟨u, hu, v, hv, hne, h⟩ => ?_, ?_⟩, ?_⟩
  · cases m with
    | bit => exact bounds_eq_of_shared_bit hu hv hne h
    | byte => exact bounds_eq_of_shared_byte hne h
  · rintro rfl
    exact ⟨0, zero_mem_alphabet m, 1, one_mem_alphabet m, by decide,
      (freqOf_of_equal_bounds 0 m f0).trans (freqOf_of_equal_bounds 1 m f0).symm⟩
  · rintro rfl v -
    exact freqOf_of_equal_bounds v m f0

/-! ### `FREQOF` (R123) -/

theorem exec_freqof_invalidMode {s : State} (hm : modeOf s.mode = none) :
    exec .freqof s = .next (s.finishError .invalidMode s.mode 0) := by
  simp only [exec, execFreqof, hm, raise]

theorem exec_freqof_invalidSymbol {s : State} {m : Mode} (hm : modeOf s.mode = some m) (hd : inDomain m s.arg = false) :
    exec .freqof s = .next (s.finishError .invalidSymbol s.arg 0) := by
  simp only [exec, execFreqof, hm, hd, Bool.false_eq_true, if_false, raise]

/-- `exec_freqof_ok` with the operand given by its value. -/
theorem exec_freqof_of_arg {s : State} {m : Mode} {w : Word} (hm : modeOf s.mode = some m) (ha : s.arg = w)
    (hd : inDomain m w = true) :
    exec .freqof s = .next (s.setFres (freqOf (w.setWidth 8) m s.freq0 s.freq1)).finishOk := by
  subst ha
  exact exec_freqof_ok hm hd

/-- A symbol of the Byte mode keeps its number where the operand register is cut to a byte. -/
theorem toNat_setWidth_symbol {w : Word} (h : w.toNat ≤ 255) : (w.setWidth 8).toNat = w.toNat := by
  rw [BitVec.toNat_setWidth, Nat.mod_eq_of_lt (by omega)]

/-- Settles O17: the mode and the domain of the symbol decide, in this order; in the domain the register's value is the
symbol. -/
theorem freqofFollowsItsRule : Obligations.FreqofFollowsItsRule := by
  refine ⟨decode_encode .freqof, fun s => ⟨fun h0 h1 => ?_, fun hm ha => ?_, fun hm ha => ?_, fun hm ha => ?_,
    fun hm ha => ?_, fun hm ha => ?_⟩⟩
  · exact exec_freqof_invalidMode (modeOf_none _ h0 h1)
  · exact exec_freqof_invalidSymbol (modeOf_of_zero hm) (decide_eq_false (Nat.not_le.2 ha))
  · exact exec_freqof_invalidSymbol (modeOf_of_one hm) (decide_eq_false (Nat.not_le.2 ha))
  · exact exec_freqof_of_arg (modeOf_of_zero hm) ha rfl
  · exact exec_freqof_of_arg (modeOf_of_zero hm) ha rfl
  · refine ⟨freqOf (s.arg.setWidth 8) .byte s.freq0 s.freq1, ?_, exec_freqof_ok (modeOf_of_one hm) (decide_eq_true ha)⟩
    rw [freqOf_byte_val, toNat_setWidth_symbol ha]

end Sys2Proof.Proofs
end

section
/-!
SUPPORT. The Tone Generator (`41_tone_generator.md`): what `GENTONE` makes of a tone, and the samples of a reference tone.
-/

namespace Sys2Proof.Proofs

open Sys2Proof.Machine Sys2Proof.Laws

/-! ### `GENTONE` (R134) -/

theorem exec_gentone_tooShort {s : State} (hslot : s.slotLen < s.block.minSlotLen) :
    exec .gentone s = .next (s.finishError .durationTooShort (sat32 s.slotLen) 0) := by
  simp only [exec, execGentone, tooShort_true hslot, if_true, raiseTooShort, raise]

theorem exec_gentone_sinkUnavailable {s : State} (hslot : s.block.minSlotLen ≤ s.slotLen)
    (hsink : s.sinkFail = true ∨ s.block.capOS.val < s.slotLen) :
    exec .gentone s = .next (s.finishError .sinkUnavailable (sat32 s.slotLen) 0) := by
  simp only [exec, execGentone, tooShort_false hslot, Bool.false_eq_true, if_false]
  rw [finishSamples_fail s _ (by rwa [tone_length]), tone_length]

/-- Settles O20: the slot length, then the sink decide; the tone's length is the slot length. -/
theorem gentoneFollowsItsRule : Obligations.GentoneFollowsItsRule :=
  ⟨decode_encode .gentone, fun _ => ⟨exec_gentone_tooShort, exec_gentone_sinkUnavailable,
    fun hslot hsink hcap => exec_gentone_ok hsink hslot hcap⟩⟩

/-! ### The reference sample (R131) -/

theorem sinSample_reference_val (f r : Param) (i : Nat) :
    (sinSample .reference f r i).val = Real.sin (2 * Real.pi * (f.val * i / r.val)) := by
  simp only [sinSample, sineTurns_val, Rat.cast_div, Rat.cast_mul, Rat.cast_natCast]

/-- Settles O21: each sample of a tone is a reference sample, whose datum stands for the sine of `f · i / r` turns. -/
theorem referenceToneIsTheRealSine : Obligations.ReferenceToneIsTheRealSine := by
  refine fun f r n => ⟨tone_length _ f r n, fun i h _ => ?_⟩
  rw [tone_getElem, sinSample_reference_val]
  congr 1
  ring

/-! ### Consequences for the reference sample (R135) -/

section
variable {f r : Param}

/-- R135 (a). -/
theorem sinSample_reference_start (f r : Param) : (sinSample .reference f r 0).val = 0 := by
  simp [sinSample_reference_val]

/-- R135 (b). -/
theorem abs_sinSample_reference_le_one (f r : Param) (i : Nat) : |(sinSample .reference f r i).val| ≤ 1 := by
  rw [sinSample_reference_val]
  exact Real.abs_sin_le_one _

/-- R135 (c). -/
theorem sinSample_reference_of_silent (hf : f.val = 0) (i : Nat) : (sinSample .reference f r i).val = 0 := by
  simp [sinSample_reference_val, hf]

/-- R135 (d): the phase of each sample is a multiple of a half turn. -/
theorem sinSample_reference_of_halfTurns {m : ℤ} (hm : 2 * f.val / r.val = m) (i : Nat) :
    (sinSample .reference f r i).val = 0 := by
  have hm' : 2 * (f.val : ℝ) / r.val = m := mod_cast congrArg (Rat.cast (K := ℝ)) hm
  have hphase : 2 * Real.pi * (f.val * i / r.val) = (m * i : ℤ) * Real.pi := by
    push_cast
    rw [← hm']
    ring
  rw [sinSample_reference_val, hphase, Real.sin_int_mul_pi]

/-- R135 (e): sample `i` is `i` whole turns further on, and `sineTurns` keeps only the fraction of a turn. -/
theorem sinSample_reference_add_rate {f' : Param} (hr : 0 < r.val) (hf : f'.val = f.val + r.val) (i : Nat) :
    sinSample .reference f' r i = sinSample .reference f r i := by
  have hturns : f'.val * i / r.val = f.val * i / r.val + i := by
    rw [hf]
    field_simp
  simp only [sinSample, hturns, sineTurns_add_nat]

/-- R135 (e): the phase of sample `i` is short of `i` whole turns by what it was. -/
theorem sinSample_reference_mirror {f' : Param} (hr : 0 < r.val) (hf : f'.val = r.val - f.val) (i : Nat) :
    (sinSample .reference f' r i).val = -(sinSample .reference f r i).val := by
  have hr' : (r.val : ℝ) ≠ 0 := Rat.cast_ne_zero.2 hr.ne'
  have hphase : 2 * Real.pi * (f'.val * i / r.val) = i * (2 * Real.pi) - 2 * Real.pi * (f.val * i / r.val) := by
    rw [hf]
    push_cast
    field_simp
  rw [sinSample_reference_val, sinSample_reference_val, hphase, Real.sin_nat_mul_two_pi_sub]

/-- R135 (f). -/
theorem sinSample_reference_onBin (hr : 0 < r.val) {m : ℤ} {n : Nat} (hf : f.val = m * r.val / n) (i : Nat) :
    (sinSample .reference f r i).val = Real.sin (2 * Real.pi * m * (i / n)) := by
  have hr' : (r.val : ℝ) ≠ 0 := Rat.cast_ne_zero.2 hr.ne'
  rw [sinSample_reference_val, hf]
  push_cast
  congr 1
  field_simp

end

/-- Settles O22: each clause is the one about the sample at its index. -/
theorem referenceToneConsequences : Obligations.ReferenceToneConsequences := by
  intro f r n i hr hi
  simp only [tone_getD _ _ _ _ 0 (Nat.zero_lt_of_lt hi), tone_getD _ _ _ _ i hi]
  exact ⟨sinSample_reference_start f r, abs_sinSample_reference_le_one f r i,
    fun hf => sinSample_reference_of_silent hf i, fun _ hm => sinSample_reference_of_halfTurns hm i,
    fun _ hf => List.map_congr_left fun k _ => sinSample_reference_add_rate hr hf k,
    fun _ hf => sinSample_reference_mirror hr hf i, fun _ hf => sinSample_reference_onBin hr hf i⟩

end Sys2Proof.Proofs
end

section
/-!
SUPPORT. The Modulator (`42_modulator.md`): `MODULATE` once its checks have passed, in a form where the worker count does not show,
and from it the theorems about its rule, its slots, its worker pool and empty input.
-/

namespace Sys2Proof.Machine

/-- `s` in a block with `n + 1` worker units and with `w` in `WORKERS`. -/
def State.withPool (s : State) (w : Word) (n : Nat) : State :=
  { s with workers := w, block := { s.block with nWorkersPred := n } }

@[simp] theorem State.withPool_workers (s : State) (w : Word) (n : Nat) : (s.withPool w n).workers = w := rfl

end Sys2Proof.Machine

namespace Sys2Proof.Proofs

open Sys2Proof.Machine Sys2Proof.Laws

/-! ### The checks of `MODULATE` and `DEMODULATE` that read the worker count and the slot length (R150, R188) -/

theorem modulateChecks_badWorkerCount {s : State} {m : Mode} (hsrc : s.srcFail = false) (hm : modeOf s.mode = some m)
    (hw : s.workers = 0) : modulateChecks s = .error (.badWorkerCount, 0) := by
  simp [modulateChecks, hsrc, hm, hw]

theorem modulateChecks_tooShort {s : State} {m : Mode} (hsrc : s.srcFail = false) (hm : modeOf s.mode = some m)
    (hw : s.workers ≠ 0) (hslot : s.slotLen < s.block.minSlotLen) :
    modulateChecks s = .error (.durationTooShort, sat32 s.slotLen) := by
  simpa [modulateChecks, hsrc, hm, tooShort_true hslot] using hw

theorem demodulateChecks_tooShort {s : State} {m : Mode} (hsrc : s.srcFail = false) (hm : modeOf s.mode = some m)
    (hslot : s.slotLen < s.block.minSlotLen) : demodulateChecks s = .error (.durationTooShort, sat32 s.slotLen) := by
  simp [demodulateChecks, hsrc, hm, tooShort_true hslot]

/-! ### `MODULATE` after its checks -/

/-- The chunks of the workers make the waveform of R140, in which the worker count does not show. -/
theorem exec_modulate_of_checks {s : State} {m : Mode} (h : modulateChecks s = .ok m) :
    exec .modulate s =
      finishSamples s (modulateWave s.block.numerics m s.freq0 s.freq1 s.srate s.slotLen s.mem.ib) := by
  obtain ⟨-, -, hw, -⟩ := modulateChecks_ok h
  simp only [exec, execModulate, h, chunkedWave_eq _ _ _ _ _ _ (workerCount_pos hw), modulateWave]

theorem exec_modulate_sinkUnavailable {s : State} {m : Mode} (h : modulateChecks s = .ok m)
    (hsink : s.sinkFail = true ∨ s.block.capOS.val < (expand s.mem.ib m).length * s.slotLen) :
    exec .modulate s =
      .next (s.finishError .sinkUnavailable (sat32 ((expand s.mem.ib m).length * s.slotLen)) 0) := by
  rw [exec_modulate_of_checks h, modulateWave, finishSamples_fail s _ (by rwa [wave_length]), wave_length]

/-- A `MODULATE` without an error has committed its waveform. -/
theorem exec_modulate_commits {s t : State} (h : exec .modulate s = .next t) (herr : t.err = false) :
    ∃ m, modeOf s.mode = some m ∧
      t = (s.setOS (modulateWave s.block.numerics m s.freq0 s.freq1 s.srate s.slotLen s.mem.ib)).finishOk := by
  cases hchecks : modulateChecks s with
  | error e =>
    cases (exec_modulate_error hchecks).symm.trans h
    cases herr
  | ok m =>
    obtain ⟨-, hm, -⟩ := modulateChecks_ok hchecks
    rw [exec_modulate_of_checks hchecks] at h
    rcases finishSamples_cases s _ with hfail | hok
    · cases hfail.symm.trans h
      cases herr
    · exact ⟨m, hm, next_inj.1 (h.symm.trans hok)⟩

/-! ### The worker pool (R146) -/

/-- The checks read of the worker pool only whether `WORKERS` is 0. -/
theorem modulateChecks_withPool {s : State} {w : Word} (hs : s.workers ≠ 0) (hw : w ≠ 0) (n : Nat) :
    modulateChecks (s.withPool w n) = modulateChecks s := by
  simp only [modulateChecks, State.withPool_workers, hs, hw, if_false]
  rfl

/-- The end of a command that writes `OS` does not read the worker pool. -/
theorem finishSamples_withPool {s t : State} {out : List Sample} (h : finishSamples s out = .next t) (w : Word) (n : Nat) :
    finishSamples (s.withPool w n) out = .next (t.withPool w n) := by
  by_cases hfail : s.sinkFail = true ∨ s.block.capOS.val < out.length
  · cases (finishSamples_fail s out hfail).symm.trans h
    exact finishSamples_fail (s.withPool w n) out hfail
  · obtain ⟨hsink, hcap⟩ := not_or.1 hfail
    have hsink := Bool.eq_false_of_not_eq_true hsink
    have hcap := Nat.not_lt.1 hcap
    cases (finishSamples_ok s out hsink hcap).symm.trans h
    exact finishSamples_ok (s.withPool w n) out hsink hcap

/-- The one-step meaning of `MODULATE` does not depend on the worker pool. -/
theorem exec_modulate_withPool {s t : State} {w : Word} (hs : s.workers ≠ 0) (hw : w ≠ 0) (n : Nat)
    (h : exec .modulate s = .next t) : exec .modulate (s.withPool w n) = .next (t.withPool w n) := by
  have hpool := modulateChecks_withPool hs hw n
  cases hchecks : modulateChecks s with
  | error e =>
    cases (exec_modulate_error hchecks).symm.trans h
    exact exec_modulate_error (hpool.trans hchecks)
  | ok m =>
    rw [exec_modulate_of_checks hchecks] at h
    rw [exec_modulate_of_checks (hpool.trans hchecks)]
    exact finishSamples_withPool h w n

/-- On every schedule a command that has ended has ended as its one-step meaning does (O57). -/
theorem exec_of_finished_run {s t : State} {i : Instr} {es : List Event} (hb : s.busy = false) (hes : ∀ e ∈ es, e.inner)
    (hrun : runEvents (.accept (encode i) :: es) s = .next t) (ht : t.busy = false) : exec i s = .next t := by
  rcases everyScheduleEndsAsTheOneStepMeaning s t i es hb hes hrun with ⟨hbusy, -⟩ | hexec
  · cases ht.symm.trans hbusy
  · exact hexec

/-! ### Waveforms shorter than the input of one byte (R186) -/

/-- Every decoded symbol is the result of a slot. -/
theorem slotSymbols_length_le (results : List SlotResult) : (slotSymbols results).length ≤ results.length := by
  induction results with
  | nil => exact le_rfl
  | cons r rest ih =>
    cases r with
    | symbol v => exact Nat.succ_le_succ ih
    | noBin v => exact Nat.le_succ_of_le ih

/-- A `DEMODULATE` without an error has committed the packed symbols of its slots. -/
theorem exec_demodulate_commits {s t : State} (h : exec .demodulate s = .next t) (herr : t.err = false) :
    ∃ m, modeOf s.mode = some m ∧ t = (s.setOB (pack (slotSymbols (s.decodeSlots m)) m)).finishOk := by
  cases hchecks : demodulateChecks s with
  | error e =>
    cases (exec_demodulate_error hchecks).symm.trans h
    cases herr
  | ok m =>
    obtain ⟨-, hm, -⟩ := demodulateChecks_ok hchecks
    simp only [exec, execDemodulate, hchecks, finishDemodulate] at h
    split at h
    · cases h
      cases herr
    · rcases finishBytes_cases s (pack (slotSymbols (s.decodeSlots m)) m) with hfail | hok
      · cases hfail.symm.trans h
        cases herr
      · exact ⟨m, hm, next_inj.1 (h.symm.trans hok)⟩

/-- A waveform shorter than one slot has no slots. -/
theorem decodeSlots_of_short {s : State} (h : s.mem.is.length < s.slotLen) (m : Mode) : s.decodeSlots m = [] := by
  simp [State.decodeSlots, State.slotCount, Nat.div_eq_of_lt h]

/-- Fewer than 8 slots of the Bit mode make no byte (R198). -/
theorem pack_bit_of_short {s : State} (h : s.mem.is.length < 8 * s.slotLen) :
    pack (slotSymbols (s.decodeSlots .bit)) .bit = [] := by
  have hcount : s.slotCount < 8 := Nat.div_lt_of_lt_mul (Nat.mul_comm 8 _ ▸ h)
  have hsymbols : (slotSymbols (s.decodeSlots .bit)).length ≤ s.slotCount := by
    simpa [State.decodeSlots] using slotSymbols_length_le (s.decodeSlots .bit)
  exact List.eq_nil_of_length_eq_zero ((pack_length _ .bit).trans (Nat.div_eq_of_lt (by omega)))

/-- `MODULATE` of no bytes commits an empty waveform (R147). -/
theorem exec_modulate_of_empty {s : State} {m : Mode} (hsrc : s.srcFail = false) (hsink : s.sinkFail = false)
    (hm : modeOf s.mode = some m) (hw : s.workers ≠ 0) (hslot : s.block.minSlotLen ≤ s.slotLen) (hib : s.mem.ib = []) :
    exec .modulate s = .next (s.setOS []).finishOk := by
  have hexpand : expand s.mem.ib m = [] := by cases m <;> simp [expand, hib]
  rw [exec_modulate_ok hsrc hsink hm hw hslot (by simp [hexpand]), modulateWave, hexpand, List.flatMap_nil]

/-- `DEMODULATE` of a waveform shorter than one slot commits an empty buffer (R186). -/
theorem exec_demodulate_of_short {s : State} {m : Mode} (hsrc : s.srcFail = false) (hsink : s.sinkFail = false)
    (hm : modeOf s.mode = some m) (hslot : s.block.minSlotLen ≤ s.slotLen) (hshort : s.mem.is.length < s.slotLen) :
    exec .demodulate s = .next (s.setOB []).finishOk := by
  have hpack : pack [] m = [] := by cases m <;> rfl
  have hok := exec_demodulate_ok (symbols := []) hsrc hsink hm hslot (decodeSlots_of_short hshort m) (by simp [hpack])
  rwa [hpack] at hok

/-! ### The obligations -/

/-- Settles O29: a run that has ended has ended as the one-step meaning does, and that does not depend on the worker pool. -/
theorem workerCountAndScheduleShowInNoOutput : Obligations.WorkerCountAndScheduleShowInNoOutput := by
  intro s t t' w n es es' hb hs hw hes hes' hrun ht hrun' ht'
  have hexec : exec .modulate s = .next t := exec_of_finished_run hb hes hrun ht
  have hexec' : exec .modulate (s.withPool w n) = .next t' := exec_of_finished_run (s := s.withPool w n) hb hes' hrun' ht'
  have hblock : t.block = s.block := by
    obtain ⟨g, -, rfl⟩ := exec_eq_apply hexec
    exact apply_block g s
  rw [← hblock]
  exact next_inj.1 (hexec'.symm.trans (exec_modulate_withPool hs hw n hexec))

/-- Settles O26: the checks decide in their order, then the sink and the length of the waveform. -/
theorem modulateFollowsItsRule : Obligations.ModulateFollowsItsRule := by
  refine ⟨decode_encode .modulate, fun s => ⟨fun hsrc => ?_, fun hsrc h0 h1 => ?_, fun hsrc m hm hw => ?_,
    fun hsrc m hm hw hslot => ?_, fun hsrc m hm hw hslot hsink => ?_, fun hsrc m hm hw hslot hsink hcap => ?_⟩⟩
  · exact exec_modulate_error (checks_source hsrc).1
  · exact exec_modulate_error (checks_mode hsrc (modeOf_none _ h0 h1)).1
  · exact exec_modulate_error (modulateChecks_badWorkerCount hsrc hm hw)
  · exact exec_modulate_error (modulateChecks_tooShort hsrc hm hw hslot)
  · exact exec_modulate_sinkUnavailable (modulateChecks_of hsrc hm hw hslot) hsink
  · exact exec_modulate_ok hsrc hsink hm hw hslot hcap

/-- Settles O27, row by row; the last row takes the remainder. -/
theorem chunksCoverTheSymbolsInOrder : Obligations.ChunksCoverTheSymbolsInOrder := by
  refine fun l w hw => ⟨chunkTable_length l w, fun c h => ?_, chunkTable_cover l hw⟩
  rw [chunkTable_getElem]
  refine ⟨rfl, fun hc => if_pos hc, fun hc => ?_⟩
  exact (if_neg hc.not_lt).trans (chunk_tail l w hw)

/-- Settles O28: the waveform is the tones of the symbols in order, all of one length. -/
theorem everySlotOfTheWaveformIsItsTone : Obligations.EverySlotOfTheWaveformIsItsTone := by
  intro s t m hm h herr
  obtain ⟨m', hm', rfl⟩ := exec_modulate_commits h herr
  obtain rfl : m = m' := Option.some.inj (hm.symm.trans hm')
  exact ⟨wave_length _ _ _ _ _ _ _, fun k hk => flatMap_block _ _ _ (fun _ _ => tone_length _ _ _ _) k hk⟩

/-- Settles O43: with valid parameters there is no symbol to encode and no slot, or no byte of slots, to decode; the checks
come first. -/
theorem emptyInputGivesEmptyOutput : Obligations.EmptyInputGivesEmptyOutput := by
  refine fun s hsrc hsink => ⟨fun hib hmode hw hslot => ?_, fun hshort hmode hslot => ?_, fun h0 hshort t h herr => ?_,
    fun h0 h1 => ?_, fun hmode hw => ?_, fun hmode hslot => ?_⟩
  · obtain ⟨m, hm⟩ := modeOf_of_legal hmode
    simpa only [State.setOS, hib] using exec_modulate_of_empty hsrc hsink hm hw hslot hib
  · obtain ⟨m, hm⟩ := modeOf_of_legal hmode
    exact exec_demodulate_of_short hsrc hsink hm hslot hshort
  · obtain ⟨m, hm, rfl⟩ := exec_demodulate_commits h herr
    obtain rfl : Mode.bit = m := Option.some.inj ((modeOf_of_zero h0).symm.trans hm)
    exact pack_bit_of_short hshort
  · obtain ⟨hmod, hdemod⟩ := checks_mode hsrc (modeOf_none _ h0 h1)
    exact ⟨exec_modulate_error hmod, exec_demodulate_error hdemod⟩
  · obtain ⟨m, hm⟩ := modeOf_of_legal hmode
    exact exec_modulate_error (modulateChecks_badWorkerCount hsrc hm hw)
  · obtain ⟨m, hm⟩ := modeOf_of_legal hmode
    exact ⟨fun hw => exec_modulate_error (modulateChecks_tooShort hsrc hm hw hslot),
      exec_demodulate_error (demodulateChecks_tooShort hsrc hm hslot)⟩

end Sys2Proof.Proofs
end

section
/-!
SUPPORT. The Spectral Symbol Decoder (`43_spectral_decoder.md`): the transform of an on-bin tone, the bin of a candidate, what a
block decodes to, and `DECSLOT`.
-/

namespace Sys2Proof.Machine

/-- The last candidate of a mode's scan (R124, R167). -/
def Mode.lastSymbol : Mode → Symbol
  | .bit => 1
  | .byte => 255

end Sys2Proof.Machine

namespace Sys2Proof.Proofs

open Sys2Proof.Machine Sys2Proof.Laws

/-! ### The transform (R160) -/

theorem getD_map_val (x : List Sample) (n : ℕ) : (x.map Sample.val).getD n 0 = (x.getD n default).val := by
  rw [← default_val, List.getD_map]

theorem refMag_sq (x : List Sample) (j : ℤ) :
    refMag x j ^ 2 = dftRe (x.map Sample.val) j ^ 2 + dftIm (x.map Sample.val) j ^ 2 :=
  Real.sq_sqrt (by positivity)

theorem refMag_add_length (x : List Sample) (j : ℤ) : refMag x (j + x.length) = refMag x j := by
  obtain ⟨hre, him⟩ := dft_period (x.map Sample.val) j
  rw [List.length_map] at hre him
  simp only [refMag, dftMag, hre, him]

/-- Settles O30: the square of the root is the sum of the squares of the two parts, and each part is periodic. -/
theorem referenceMagnitudeIsThatOfTheTransform : Obligations.ReferenceMagnitudeIsThatOfTheTransform := by
  refine fun x j j' => ⟨?_, Real.sqrt_nonneg _, refMag_add_length x j, magLe_ref x j j'⟩
  rw [refMag_sq, dftRe, dftIm]
  simp only [List.length_map, getD_map_val, mul_neg]

/-! ### On-bin tones (R172) -/

/-- The `n`-th root of unity that is `k` of `n` equal parts of a turn, to the power `i`. -/
theorem rootOfUnity_pow (n : ℕ) (k : ℤ) (i : ℕ) :
    (Complex.exp (2 * Real.pi * Complex.I / n) ^ k) ^ i = Complex.exp ((2 * Real.pi * k * i / n : ℝ) * Complex.I) := by
  rw [← Complex.exp_int_mul, ← Complex.exp_nat_mul]
  congr 1
  push_cast
  ring

/-- Whole turns add up, anything else cancels over a period: the geometric sum of a root of unity (G3). -/
theorem sum_rootOfUnity_pow {n : ℕ} (hn : n ≠ 0) (k : ℤ) :
    ∑ i ∈ Finset.range n, (Complex.exp (2 * Real.pi * Complex.I / n) ^ k) ^ i = if (n : ℤ) ∣ k then (n : ℂ) else 0 := by
  have hroot := Complex.isPrimitiveRoot_exp n hn
  split
  · next hk => simp [(hroot.zpow_eq_one_iff_dvd k).2 hk]
  · next hk =>
    have hperiod : (Complex.exp (2 * Real.pi * Complex.I / n) ^ k) ^ n = 1 := by
      rw [← zpow_natCast, zpow_comm, zpow_natCast, hroot.pow_eq_one, one_zpow]
    rw [geom_sum_eq (mt (hroot.zpow_eq_one_iff_dvd k).1 hk), hperiod, sub_self, zero_div]

theorem sum_cos_period {n : ℕ} (hn : n ≠ 0) (k : ℤ) :
    ∑ i ∈ Finset.range n, Real.cos (2 * Real.pi * k * i / n) = if (n : ℤ) ∣ k then (n : ℝ) else 0 := by
  have h := congrArg Complex.re (sum_rootOfUnity_pow hn k)
  simp only [rootOfUnity_pow, Complex.re_sum, Complex.exp_ofReal_mul_I_re] at h
  rw [h]
  split <;> simp

theorem sum_sin_period {n : ℕ} (hn : n ≠ 0) (k : ℤ) :
    ∑ i ∈ Finset.range n, Real.sin (2 * Real.pi * k * i / n) = 0 := by
  have h := congrArg Complex.im (sum_rootOfUnity_pow hn k)
  simp only [rootOfUnity_pow, Complex.im_sum, Complex.exp_ofReal_mul_I_im] at h
  rw [h]
  split <;> simp

section
variable {f r : Param} {n : ℕ} {m : ℤ}

/-- Sample `i` of an on-bin tone, as the transform reads it. -/
theorem tone_onBin_getD (hr : 0 < r.val) (hf : f.val = m * r.val / n) {i : ℕ} (hi : i < n) :
    ((tone .reference f r n).map Sample.val).getD i 0 = Real.sin (2 * Real.pi * m * i / n) := by
  rw [getD_map_val, tone_getD _ _ _ _ _ hi, sinSample_reference_onBin hr hf, mul_div_assoc]

/-- A product of a sine and a cosine is half the sum of the sines of the sum and the difference. -/
theorem dftRe_tone_onBin (hn : n ≠ 0) (hr : 0 < r.val) (hf : f.val = m * r.val / n) (j : ℤ) :
    dftRe ((tone .reference f r n).map Sample.val) j = 0 := by
  have hterm : ∀ i ∈ Finset.range n,
      ((tone .reference f r n).map Sample.val).getD i 0 * Real.cos (2 * Real.pi * j * i / n) =
        (Real.sin (2 * Real.pi * (m + j : ℤ) * i / n) + Real.sin (2 * Real.pi * (m - j : ℤ) * i / n)) / 2 := by
    intro i hi
    rw [tone_onBin_getD hr hf (Finset.mem_range.1 hi), eq_div_iff two_ne_zero, mul_comm, ← mul_assoc,
      Real.two_mul_sin_mul_cos, add_comm]
    push_cast
    ring_nf
  rw [dftRe, List.length_map, tone_length, Finset.sum_congr rfl hterm, ← Finset.sum_div, Finset.sum_add_distrib,
    sum_sin_period hn, sum_sin_period hn, add_zero, zero_div]

/-- A product of two sines is half the difference of the cosines of the difference and the sum. -/
theorem dftIm_tone_onBin (hn : n ≠ 0) (hr : 0 < r.val) (hf : f.val = m * r.val / n) (j : ℤ) :
    dftIm ((tone .reference f r n).map Sample.val) j =
      ((if (n : ℤ) ∣ m + j then (n : ℝ) else 0) - (if (n : ℤ) ∣ m - j then (n : ℝ) else 0)) / 2 := by
  have hterm : ∀ i ∈ Finset.range n,
      -(((tone .reference f r n).map Sample.val).getD i 0 * Real.sin (2 * Real.pi * j * i / n)) =
        (Real.cos (2 * Real.pi * (m + j : ℤ) * i / n) - Real.cos (2 * Real.pi * (m - j : ℤ) * i / n)) / 2 := by
    intro i hi
    rw [tone_onBin_getD hr hf (Finset.mem_range.1 hi), eq_div_iff two_ne_zero, neg_mul, mul_comm, ← mul_assoc,
      Real.two_mul_sin_mul_sin, neg_sub]
    push_cast
    ring_nf
  rw [dftIm, List.length_map, tone_length, Finset.sum_congr rfl hterm, ← Finset.sum_div, Finset.sum_sub_distrib,
    sum_cos_period hn, sum_cos_period hn]

end

/-- R172: on the axis, the bins `m` and `-m` are the only ones a whole turn from the tone. -/
theorem refMag_tone_onBin {f r : Param} {n m : ℕ} {j : ℤ} (hm : 0 < m) (hmn : 2 * m < n) (hr : 0 < r.val)
    (hf : f.val = m * r.val / n) (hj : j ∈ binRange n) :
    refMag (tone .reference f r n) j = if j = m ∨ j = -m then (n : ℝ) / 2 else 0 := by
  have hn : n ≠ 0 := by omega
  have hf' : f.val = (m : ℤ) * r.val / n := by rw [hf, Int.cast_natCast]
  have hmag : refMag (tone .reference f r n) j =
      |(if (n : ℤ) ∣ m + j then (n : ℝ) else 0) - (if (n : ℤ) ∣ m - j then (n : ℝ) else 0)| / 2 := by
    rw [refMag, dftMag, dftRe_tone_onBin hn hr hf', dftIm_tone_onBin hn hr hf', zero_pow two_ne_zero, zero_add,
      Real.sqrt_sq_eq_abs, abs_div, abs_two]
  rw [mem_binRange] at hj
  have hsum : (n : ℤ) ∣ m + j ↔ j = -m :=
    ⟨fun h => by have := Int.eq_zero_of_abs_lt_dvd h (by rw [abs_lt]; omega); omega, fun h => by simp [h]⟩
  have hdiff : (n : ℤ) ∣ m - j ↔ j = m :=
    ⟨fun h => by have := Int.eq_zero_of_abs_lt_dvd h (by rw [abs_lt]; omega); omega, fun h => by simp [h]⟩
  simp only [hmag, hsum, hdiff]
  by_cases hown : j = m
  · simp [hown, show ((m : ℤ) ≠ -m) by omega]
  · by_cases hmirror : j = -m
    · simp [hmirror, show ((-m : ℤ) ≠ m) by omega]
    · simp [hown, hmirror]

/-- Settles O37. -/
theorem onBinToneHasOneMagnitude : Obligations.OnBinToneHasOneMagnitude :=
  fun _ _ n _ j _ hm hmn hr hf hlo hhi => refMag_tone_onBin hm hmn hr hf ((mem_binRange n j).2 ⟨hlo, hhi⟩)

/-! ### The bin of a candidate (R162, R163) -/

section
variable {fc r : Param} {n : ℕ} {j : ℤ}

theorem qualifies_eq_false_iff : qualifies fc r n j = false ↔ 10 < |j * r.val / n - fc.val| := by
  rw [← Bool.not_eq_true, qualifies_iff, not_le]

theorem binOf_eq_some_iff : binOf fc r n = some j ↔
    j ∈ binRange n ∧ |j * r.val / n - fc.val| ≤ 10 ∧ ∀ k ∈ binRange n, k < j → 10 < |k * r.val / n - fc.val| := by
  simp only [binOf, find?_sorted _ (binRange_sorted n), qualifies_iff, qualifies_eq_false_iff]

theorem binOf_eq_none_iff : binOf fc r n = none ↔ ∀ j ∈ binRange n, 10 < |j * r.val / n - fc.val| := by
  simp only [binOf, List.find?_eq_none, Bool.not_eq_true, qualifies_eq_false_iff]

/-- A qualifying bin lies between the two ends of the window, in units of the bin spacing. -/
theorem bounds_of_qualifies (hn : 1 ≤ n) (hr : 0 < r.val) (h : qualifies fc r n j = true) :
    (fc.val - 10) * n / r.val ≤ j ∧ (j : ℚ) ≤ (fc.val + 10) * n / r.val := by
  have hn' : (0 : ℚ) < n := by exact_mod_cast hn
  obtain ⟨hlo, hhi⟩ := abs_le.1 ((qualifies_iff fc r n j).1 h)
  constructor
  · rw [div_le_iff₀ hr, ← le_div_iff₀ hn']
    linarith
  · rw [le_div_iff₀ hr, ← div_le_iff₀ hn']
    linarith

theorem countP_qualifies_le (hn : 1 ≤ n) (hr : 0 < r.val) :
    ((binRange n).countP (qualifies fc r n) : ℤ) ≤ ⌊20 * (n : ℚ) / r.val⌋ + 1 := by
  have hwidth : (fc.val + 10) * n / r.val - (fc.val - 10) * n / r.val = 20 * n / r.val := by ring
  have hwindow : 0 ≤ 20 * (n : ℚ) / r.val := by positivity
  rw [List.countP_eq_length_filter, ← hwidth]
  refine rising_length _ ((binRange_sorted n).filter _) _ _ (fun k hk => ?_) (by linarith)
  exact bounds_of_qualifies hn hr (List.mem_filter.1 hk).2

/-- Bins further apart than the window is wide leave room for one. -/
theorem countP_qualifies_le_one (hn : 1 ≤ n) (h : 20 < r.val / n) : (binRange n).countP (qualifies fc r n) ≤ 1 := by
  have hn' : (0 : ℚ) < n := by exact_mod_cast hn
  rw [lt_div_iff₀ hn'] at h
  have hr : 0 < r.val := by linarith
  have hfloor : ⌊20 * (n : ℚ) / r.val⌋ < 1 := by
    rw [Int.floor_lt, div_lt_iff₀ hr]
    push_cast
    linarith
  have := countP_qualifies_le (fc := fc) hn hr
  omega

end

/-- Settles O31: the scan goes upward, and the qualifying bins are integers in the window. -/
theorem candidateBinIsTheLowestQualifying : Obligations.CandidateBinIsTheLowestQualifying := by
  refine fun fc r n hn => ⟨fun j => ?_, ?_, countP_qualifies_le hn, countP_qualifies_le_one hn⟩
  · rw [binOf_eq_some_iff, mem_binRange, and_assoc]
    refine and_congr_right fun _ => and_congr_right fun hhi => and_congr_right fun _ => ?_
    exact ⟨fun h k hk hlt => h k ((mem_binRange n k).2 ⟨hk, by omega⟩) hlt,
      fun h k hk hlt => h k ((mem_binRange n k).1 hk).1 hlt⟩
  · simp only [binOf_eq_none_iff, mem_binRange, and_imp]

/-! ### The bin of an on-bin candidate (R173, R174) -/

section
variable {fc r : Param} {n b : ℕ}

/-- The distance of a bin up to the candidate's own, in bin spacings. -/
theorem abs_sub_onBin (hf : fc.val = b * r.val / n) {k : ℤ} (hk : k ≤ b) :
    |k * r.val / n - fc.val| = (b - k) * (r.val / n) := by
  have hk' : (0 : ℚ) ≤ b - k := by
    rw [sub_nonneg]
    exact_mod_cast hk
  have hspacing : 0 ≤ r.val / n := div_nonneg r.nonneg n.cast_nonneg
  rw [abs_sub_comm, hf, show b * r.val / n - k * r.val / n = (b - k) * (r.val / n) by ring,
    abs_of_nonneg (mul_nonneg hk' hspacing)]

/-- Where `d` spacings fit into half the window and `d + 1` do not, the bin read is `d` below the candidate's own. -/
theorem binOf_onBin_sub {d : ℕ} (hf : fc.val = b * r.val / n) (haxis : (b - d : ℤ) ∈ binRange n)
    (hin : d * (r.val / n) ≤ 10) (hout : 10 < (d + 1) * (r.val / n)) : binOf fc r n = some (b - d : ℤ) := by
  refine binOf_eq_some_iff.2 ⟨haxis, ?_, fun k _ hk => ?_⟩
  · rw [abs_sub_onBin hf (by omega)]
    push_cast
    rwa [sub_sub_cancel]
  · have hfar : (d + 1 : ℚ) ≤ b - k := by
      rw [le_sub_iff_add_le]
      exact_mod_cast (by omega : (d + 1 + k : ℤ) ≤ b)
    rw [abs_sub_onBin hf (by omega)]
    exact hout.trans_le (mul_le_mul_of_nonneg_right hfar (div_nonneg r.nonneg n.cast_nonneg))

/-- The first match is no higher than any qualifying bin. -/
theorem binOf_le_of_qualifies {k : ℤ} (hk : k ∈ binRange n) (hq : |k * r.val / n - fc.val| ≤ 10) :
    ∃ j, binOf fc r n = some j ∧ j ≤ k := by
  cases hbin : binOf fc r n with
  | none => exact absurd hq (binOf_eq_none_iff.1 hbin k hk).not_ge
  | some j => exact ⟨j, rfl, not_lt.1 fun hlt => ((binOf_eq_some_iff.1 hbin).2.2 k hk hlt).not_ge hq⟩

/-- The bins from 0 up to one below half the rate are on the axis. -/
theorem mem_binRange_of_le (hb : 2 * b < n) {k : ℤ} (h0 : 0 ≤ k) (hk : k ≤ b) : k ∈ binRange n :=
  (mem_binRange n k).2 (by omega)

end

/-! ### What a block decodes to (R164 to R167) -/

section
variable {num : Numerics} {m : Mode} {f0 f1 r : Param} {x : List Sample}

/-- The first candidate only fills the running best, as it would from any start. -/
theorem decodeBlock_eq_scan : decodeBlock num m f0 f1 r x =
    scanCandidates num m f0 f1 r x (alphabet m) 0 ((candidateBin m f0 f1 r x.length 0).getD 0) := by
  rw [decodeBlock, alphabet_eq m, scanCandidates]
  cases candidateBin m f0 f1 r x.length 0 with
  | none => rfl
  | some j => simp [magLe_refl]

theorem decodeBlock_eq_noBin_iff {v : Symbol} : decodeBlock num m f0 f1 r x = .noBin v ↔
    v ∈ alphabet m ∧ candidateBin m f0 f1 r x.length v = none ∧
      ∀ u ∈ alphabet m, u.toNat < v.toNat → (candidateBin m f0 f1 r x.length u).isSome := by
  rw [decodeBlock_eq_scan, scan_noBin _ _ _ _ _ _ _ (alphabet_sorted m)]

/-- No bin lies above half the rate. -/
theorem candidateBin_eq_none_of_high {n : ℕ} {v : Symbol} (h : r.val / 2 + 10 < (freqOf v m f0 f1).val) :
    candidateBin m f0 f1 r n v = none := by
  refine binOf_eq_none_iff.2 fun j hj => ?_
  rw [mem_binRange] at hj
  have hn : (0 : ℚ) < n := by exact_mod_cast (by omega : 0 < n)
  have hj' : (j : ℚ) * 2 ≤ n := by exact_mod_cast (by omega : j * 2 ≤ n)
  have hbelow : j * r.val / n ≤ r.val / 2 := by
    rw [div_le_div_iff₀ hn two_pos]
    nlinarith [r.nonneg]
  rw [lt_abs]
  right
  linarith

/-- R165 with R166: the scan of a block all of whose candidates have a bin keeps the last of greatest magnitude. -/
theorem decodeBlock_symbol (hbins : ∀ v ∈ alphabet m, (candidateBin m f0 f1 r x.length v).isSome) :
    ∃ v ∈ alphabet m, ∃ j, decodeBlock num m f0 f1 r x = .symbol v ∧ candidateBin m f0 f1 r x.length v = some j ∧
      ∀ u ∈ alphabet m, ∀ k, candidateBin m f0 f1 r x.length u = some k →
        magLe num x k j = true ∧ (v.toNat < u.toNat → magLe num x j k = false) := by
  have hsorted := alphabet_sorted m
  rw [alphabet_eq m, List.pairwise_cons] at hsorted
  rw [alphabet_eq m] at hbins ⊢
  obtain ⟨hlow, hrest⟩ := hsorted
  obtain ⟨j, hj⟩ := Option.isSome_iff_exists.1 (hbins 0 List.mem_cons_self)
  simp only [decodeBlock, hj]
  exact scan_symbol num m f0 f1 r x _ hrest (fun v hv => hbins v (List.mem_cons_of_mem _ hv)) 0 j hj hlow

theorem lastSymbol_mem (m : Mode) : m.lastSymbol ∈ alphabet m := by
  cases m with
  | bit => exact (mem_alphabet_bit _).2 (.inr rfl)
  | byte => exact mem_alphabet_byte _

theorem eq_lastSymbol {v : Symbol} (hv : v ∈ alphabet m) (h : m.lastSymbol.toNat ≤ v.toNat) : v = m.lastSymbol := by
  cases m with
  | bit => exact ((mem_alphabet_bit v).1 hv).resolve_left fun h0 => by subst h0; exact absurd h (by decide)
  | byte => exact BitVec.eq_of_toNat_eq (le_antisymm (Nat.le_of_lt_succ v.isLt) h)

/-- Where every candidate ties with the last one, the last one wins (R166). -/
theorem decodeBlock_of_ties (hbins : ∀ v ∈ alphabet m, (candidateBin m f0 f1 r x.length v).isSome)
    (hties : ∀ v ∈ alphabet m, ∀ j k, candidateBin m f0 f1 r x.length v = some j →
      candidateBin m f0 f1 r x.length m.lastSymbol = some k → magLe num x j k = true) :
    decodeBlock num m f0 f1 r x = .symbol m.lastSymbol := by
  obtain ⟨v, hv, j, hdec, hj, hmax⟩ := decodeBlock_symbol (num := num) hbins
  obtain ⟨k, hk⟩ := Option.isSome_iff_exists.1 (hbins _ (lastSymbol_mem m))
  have hnot : ¬ v.toNat < m.lastSymbol.toNat := fun hlt => by
    have hstrict := (hmax _ (lastSymbol_mem m) k hk).2 hlt
    rw [hties v hv j k hj hk] at hstrict
    cases hstrict
  rw [hdec, eq_lastSymbol hv (not_lt.1 hnot)]

/-- R167 (a), for any bins: where the magnitude of every candidate's bin is 0. -/
theorem decodeBlock_of_silent
    (hbins : ∀ v ∈ alphabet m, ∃ j, candidateBin m f0 f1 r x.length v = some j ∧ refMag x j = 0) :
    decodeBlock .reference m f0 f1 r x = .symbol m.lastSymbol := by
  have hzero : ∀ v ∈ alphabet m, ∀ j, candidateBin m f0 f1 r x.length v = some j → refMag x j = 0 := by
    intro v hv j hj
    obtain ⟨j', hj', h0⟩ := hbins v hv
    rwa [Option.some.inj (hj.symm.trans hj')]
  refine decodeBlock_of_ties (fun v hv => ?_) fun v hv j k hj hk => ?_
  · obtain ⟨j, hj, -⟩ := hbins v hv
    rw [hj, Option.isSome_some]
  · rw [magLe_ref, hzero v hv j hj, hzero _ (lastSymbol_mem m) k hk]

/-- R167 (b): equal bounds give every candidate one bin. -/
theorem decodeBlock_of_equal_bounds {f : Param} (hbins : ∀ v ∈ alphabet m, (candidateBin m f f r x.length v).isSome) :
    decodeBlock num m f f r x = .symbol m.lastSymbol := by
  refine decodeBlock_of_ties hbins fun v _ j k hj hk => ?_
  rw [candidateBin, freqOf_of_equal_bounds] at hj hk
  rw [Option.some.inj (hj.symm.trans hk)]
  exact magLe_refl _ _ _

/-- R167 (c): the decoder sees only the order of the magnitudes, which scaling keeps. -/
theorem decodeBlock_of_scaled {c : ℝ} {y : List Sample} (hc : c ≠ 0)
    (h : y.map Sample.val = x.map fun e => c * e.val) :
    decodeBlock .reference m f0 f1 r y = decodeBlock .reference m f0 f1 r x := by
  have hlen : y.length = x.length := by simpa using congrArg List.length h
  have horder : ∀ j k, magLe .reference y j k = magLe .reference x j k := fun j k => by
    rw [Bool.eq_iff_iff, magLe_ref, magLe_ref, refMag_scale x y c h, refMag_scale x y c h,
      mul_le_mul_iff_right₀ (abs_pos.2 hc)]
  simp only [decodeBlock, hlen, scan_congr _ _ _ _ _ x y hlen horder]

/-- R167 (d): the earlier of two candidates of one bin is not decoded. -/
theorem decodeBlock_ne_of_shared_bin (hbins : ∀ v ∈ alphabet m, (candidateBin m f0 f1 r x.length v).isSome) {u v : Symbol}
    (hv : v ∈ alphabet m) (hlt : u.toNat < v.toNat)
    (hshared : candidateBin m f0 f1 r x.length u = candidateBin m f0 f1 r x.length v) :
    decodeBlock num m f0 f1 r x ≠ .symbol u := by
  intro hu
  obtain ⟨w, -, j, hdec, hj, hmax⟩ := decodeBlock_symbol (num := num) hbins
  obtain rfl : u = w := SlotResult.symbol.inj (hu.symm.trans hdec)
  have hstrict := (hmax v hv j (hshared.symm.trans hj)).2 hlt
  rw [magLe_refl] at hstrict
  cases hstrict

end

/-- Settles O32: the scan stops at the first candidate without a bin. -/
theorem decodeFailsOnlyForWantOfABin : Obligations.DecodeFailsOnlyForWantOfABin :=
  fun _ _ _ _ _ _ _ => ⟨decodeBlock_eq_noBin_iff, candidateBin_eq_none_of_high⟩

/-- Settles O33. -/
theorem decodedSymbolIsTheLastOfGreatestMagnitude : Obligations.DecodedSymbolIsTheLastOfGreatestMagnitude :=
  fun _ _ _ _ _ _ hbins => decodeBlock_symbol hbins

/-- Settles O34, clause by clause: (a) and (b) are ties of all candidates. -/
theorem decoderConsequences : Obligations.DecoderConsequences := by
  refine fun m f0 f1 r x hbins => ⟨fun hzero => ?_, fun heq => ?_, fun _ _ hc hscaled => decodeBlock_of_scaled hc hscaled, ?_,
    fun _ _ _ hv hlt hshared => decodeBlock_ne_of_shared_bin hbins hv hlt hshared⟩
  · refine decodeBlock_of_silent fun v hv => ?_
    obtain ⟨j, hj⟩ := Option.isSome_iff_exists.1 (hbins v hv)
    exact ⟨j, hj, refMag_zero x hzero j⟩
  · subst heq
    exact decodeBlock_of_equal_bounds hbins
  · obtain ⟨v, -, -, hdec, -⟩ := decodeBlock_symbol (num := .reference) hbins
    exact ⟨v, hdec⟩

/-! ### Tones that decode to their symbol, and tones that do not (R173, R174) -/

theorem decodeBlock_tone_of_discriminates {num : Numerics} {m : Mode} {f0 f1 r : Param} {n : ℕ}
    (h : Discriminates num m f0 f1 r n) {v : Symbol} (hv : v ∈ alphabet m) :
    decodeBlock num m f0 f1 r (symbolTone num m f0 f1 r n v) = .symbol v := by
  obtain ⟨hbins, hgreater⟩ := h
  have hlen : (symbolTone num m f0 f1 r n v).length = n := tone_length _ _ _ _
  obtain ⟨w, hw, j, hdec, hj, hmax⟩ := decodeBlock_symbol (num := num) (x := symbolTone num m f0 f1 r n v) (by rwa [hlen])
  rw [hlen] at hj hmax
  obtain ⟨k, hk⟩ := Option.isSome_iff_exists.1 (hbins v hv)
  have hvw : v = w := by
    by_contra hne
    have hless := hgreater v hv w hw hne k j hk hj
    rw [(hmax v hv k hk).1] at hless
    cases hless
  rw [hdec, hvw]

/-- A spacing above 10 Hz keeps every other bin out of the window's lower half. -/
theorem candidateBin_of_wide_spacing {m : Mode} {f0 f1 r : Param} {n b : ℕ} {v : Symbol} (hb : 2 * b < n)
    (hf : (freqOf v m f0 f1).val = b * r.val / n) (hwide : 10 < r.val / n) :
    candidateBin m f0 f1 r n v = some (b : ℤ) := by
  have h := binOf_onBin_sub (d := 0) hf (mem_binRange_of_le hb (by omega) (by omega)) (by norm_num) (by simpa using hwide)
  rwa [Nat.cast_zero, sub_zero] at h

/-- R173: each tone has magnitude `n / 2` at its own bin and 0 at the bins of the other symbols. -/
theorem discriminates_of_onBin {m : Mode} {f0 f1 r : Param} {n : ℕ} {bin : Symbol → ℕ}
    (hon : ∀ v ∈ alphabet m, 0 < bin v ∧ 2 * bin v < n ∧ (freqOf v m f0 f1).val = bin v * r.val / n)
    (hdistinct : ∀ u ∈ alphabet m, ∀ v ∈ alphabet m, u ≠ v → bin u ≠ bin v) (hwide : 10 < r.val / n)
    (hbin : ∀ v ∈ alphabet m, candidateBin m f0 f1 r n v = some (bin v : ℤ)) :
    Discriminates .reference m f0 f1 r n := by
  refine ⟨fun v hv => by rw [hbin v hv, Option.isSome_some], fun v hv v' hv' hne j j' hj hj' => ?_⟩
  obtain rfl : (bin v : ℤ) = j := Option.some.inj ((hbin v hv).symm.trans hj)
  obtain rfl : (bin v' : ℤ) = j' := Option.some.inj ((hbin v' hv').symm.trans hj')
  obtain ⟨hpos, hlow, hf⟩ := hon v hv
  obtain ⟨hpos', hlow', -⟩ := hon v' hv'
  have hother := hdistinct v hv v' hv' hne
  have hn : 0 < n := by omega
  have hr : 0 < r.val := (div_pos_iff_of_pos_right (Nat.cast_pos.2 hn)).1 (by linarith)
  rw [← Bool.not_eq_true, magLe_ref, not_le, symbolTone,
    refMag_tone_onBin hpos hlow hr hf (mem_binRange_of_le hlow (by omega) le_rfl),
    refMag_tone_onBin hpos hlow hr hf (mem_binRange_of_le hlow' (by omega) le_rfl), if_neg (by omega), if_pos (.inl rfl)]
  exact half_pos (Nat.cast_pos.2 hn)

/-- Settles O38: the own bin of each tone is the strict maximum of the scan. -/
theorem discriminatedTonesDecodeToTheirSymbol : Obligations.DiscriminatedTonesDecodeToTheirSymbol := by
  refine ⟨fun _ _ _ _ _ _ h _ hv => decodeBlock_tone_of_discriminates h hv, fun m f0 f1 r n bin hon hdistinct hwide => ?_⟩
  have hbin : ∀ v ∈ alphabet m, candidateBin m f0 f1 r n v = some (bin v : ℤ) := fun v hv => by
    obtain ⟨-, hlow, hf⟩ := hon v hv
    exact candidateBin_of_wide_spacing hlow hf hwide
  exact ⟨discriminates_of_onBin hon hdistinct hwide hbin, hbin⟩

/-- R174: an on-bin tone is 0 at every bin but its own and its mirror, so it is silent to a decoder that reads neither. -/
theorem decodeBlock_tone_of_missed_bins {m : Mode} {f0 f1 f r : Param} {n b : ℕ} (hb : 0 < b) (hbn : 2 * b < n)
    (hr : 0 < r.val) (hf : f.val = b * r.val / n)
    (hbins : ∀ v ∈ alphabet m, ∃ j : ℤ, candidateBin m f0 f1 r n v = some j ∧ j ≠ b ∧ j ≠ -b) :
    decodeBlock .reference m f0 f1 r (tone .reference f r n) = .symbol m.lastSymbol := by
  refine decodeBlock_of_silent fun v hv => ?_
  obtain ⟨j, hj, hown, hmirror⟩ := hbins v hv
  refine ⟨j, by rwa [tone_length], ?_⟩
  rw [refMag_tone_onBin hb hbn hr hf (binOf_eq_some_iff.1 hj).1, if_neg (not_or.2 ⟨hown, hmirror⟩)]

theorem binOf_lt_of_narrow_spacing {fc r : Param} {n b : ℕ} (hb : 0 < b) (hbn : 2 * b < n) (hf : fc.val = b * r.val / n)
    (hnarrow : r.val / n ≤ 10) : ∃ j : ℤ, binOf fc r n = some j ∧ j < b := by
  have hbelow : |((b - 1 : ℤ) : ℚ) * r.val / n - fc.val| ≤ 10 := by
    rw [abs_sub_onBin hf (by omega)]
    push_cast
    rwa [sub_sub_cancel, one_mul]
  obtain ⟨j, hj, hle⟩ := binOf_le_of_qualifies (mem_binRange_of_le hbn (by omega) (by omega)) hbelow
  exact ⟨j, hj, by omega⟩

/-- The bins of R174's example: at a spacing of exactly 10 Hz the bin below is just in the window. -/
theorem binOf_of_spacing_ten {fc r : Param} {n b : ℕ} (hb : 0 < b) (hbn : 2 * b < n) (hten : r.val / n = 10)
    (hf : fc.val = b * 10) : binOf fc r n = some (b - 1 : ℤ) := by
  have hf' : fc.val = b * r.val / n := by rw [hf, mul_div_assoc, hten]
  have h := binOf_onBin_sub (d := 1) hf' (mem_binRange_of_le hbn (by omega) (by omega)) (by norm_num [hten])
    (by norm_num [hten])
  rwa [Nat.cast_one] at h

/-- Settles O39. -/
theorem firstMatchDefeatsLongSlots : Obligations.FirstMatchDefeatsLongSlots := by
  refine ⟨fun fc r n b _ hb hbn hf hnarrow => binOf_lt_of_narrow_spacing hb hbn hf hnarrow,
    fun m f0 f1 f r n b _ hb hbn hr hf hbins => decodeBlock_tone_of_missed_bins hb hbn hr hf hbins,
    fun f0 f1 r hf0 hf1 hr => ?_⟩
  have hten : r.val / (4410 : ℕ) = 10 := by norm_num [hr]
  have hbin0 : binOf f0 r 4410 = some 99 :=
    binOf_of_spacing_ten (b := 100) (by decide) (by decide) hten (by norm_num [hf0])
  have hbin1 : binOf f1 r 4410 = some 199 :=
    binOf_of_spacing_ten (b := 200) (by decide) (by decide) hten (by norm_num [hf1])
  have hmissed : ∀ {b : ℕ}, b = 100 ∨ b = 200 → ∀ v ∈ alphabet .bit,
      ∃ j : ℤ, candidateBin .bit f0 f1 r 4410 v = some j ∧ j ≠ b ∧ j ≠ -b := by
    intro b hb v hv
    rcases (mem_alphabet_bit v).1 hv with rfl | rfl
    · exact ⟨99, hbin0, by omega, by omega⟩
    · exact ⟨199, hbin1, by omega, by omega⟩
  have hr' : 0 < r.val := by norm_num [hr]
  exact ⟨hbin0, hbin1,
    decodeBlock_tone_of_missed_bins (b := 100) (by decide) (by decide) hr' (by norm_num [hf0, hr]) (hmissed (.inl rfl)),
    decodeBlock_tone_of_missed_bins (b := 200) (by decide) (by decide) hr' (by norm_num [hf1, hr]) (hmissed (.inr rfl))⟩

/-! ### `DECSLOT` (R170) -/

section
variable {s : State} {m : Mode}

theorem exec_decslot_sourceUnavailable (hsrc : s.srcFail = true) :
    exec .decslot s = .next (s.finishError .sourceUnavailable 0 0) := by
  simp only [exec, execDecslot, hsrc, if_true, raise]

theorem exec_decslot_invalidMode (hsrc : s.srcFail = false) (hm : modeOf s.mode = none) :
    exec .decslot s = .next (s.finishError .invalidMode s.mode 0) := by
  simp only [exec, execDecslot, hsrc, hm, Bool.false_eq_true, if_false, raise]

theorem exec_decslot_tooShort (hsrc : s.srcFail = false) (hm : modeOf s.mode = some m)
    (hslot : s.slotLen < s.block.minSlotLen) :
    exec .decslot s = .next (s.finishError .durationTooShort (sat32 s.slotLen) 0) := by
  simp only [exec, execDecslot, hsrc, hm, tooShort_true hslot, Bool.false_eq_true, if_false, if_true, raiseTooShort, raise]

theorem exec_decslot_incompleteSlot (hsrc : s.srcFail = false) (hm : modeOf s.mode = some m)
    (hslot : s.block.minSlotLen ≤ s.slotLen) (hlen : s.mem.is.length < (s.arg.toNat + 1) * s.slotLen) :
    exec .decslot s = .next (s.finishError .incompleteSlot (sat32 (s.avail s.arg.toNat)) s.arg) := by
  simp only [exec, execDecslot, hsrc, hm, tooShort_false hslot, Bool.false_eq_true, if_false, if_pos hlen, raise]

theorem exec_decslot_noQualifyingBin {v : Symbol} (hsrc : s.srcFail = false) (hm : modeOf s.mode = some m)
    (hslot : s.block.minSlotLen ≤ s.slotLen) (hlen : (s.arg.toNat + 1) * s.slotLen ≤ s.mem.is.length)
    (hv : s.decodeSlot m s.arg.toNat = .noBin v) :
    exec .decslot s = .next (s.finishError .noQualifyingBin (v.setWidth 32) s.arg) := by
  simp only [exec, execDecslot, hsrc, hm, tooShort_false hslot, hv, Bool.false_eq_true, if_false, if_neg hlen.not_gt, raise]

end

/-- Settles O35: the checks decide in their order, then the decoder. -/
theorem decslotFollowsItsRule : Obligations.DecslotFollowsItsRule :=
  ⟨decode_encode .decslot, fun _ => ⟨exec_decslot_sourceUnavailable,
    fun hsrc h0 h1 => exec_decslot_invalidMode hsrc (modeOf_none _ h0 h1),
    fun hsrc _ hm hslot => exec_decslot_tooShort hsrc hm hslot,
    fun hsrc _ hm hslot hlen => exec_decslot_incompleteSlot hsrc hm hslot hlen,
    fun hsrc _ _ hm hslot hlen hv => exec_decslot_noQualifyingBin hsrc hm hslot hlen hv,
    fun hsrc _ _ hm hslot hlen hv => exec_decslot_ok hsrc hm hslot hlen hv⟩⟩

/-- Settles O36: a complete slot is a block of `N` samples, and such a block decodes to a symbol. -/
theorem decslotCompletesOnEveryCompleteSlot : Obligations.DecslotCompletesOnEveryCompleteSlot := by
  intro s m hsrc hm hslot hlen hbins
  obtain ⟨v, hv, -, hdec, -⟩ := decodeBlock_symbol (num := s.block.numerics) (x := s.slotBlock s.arg.toNat)
    (by rwa [slotBlock_length hlen])
  exact ⟨v, hv, exec_decslot_ok hsrc hm hslot hlen hdec⟩

end Sys2Proof.Proofs
end

section
/-!
SUPPORT. The Demodulator (`44_demodulator.md`): what `DEMODULATE` answers once its checks have passed, in terms of the results of the
slots; what those results are for a waveform of `MODULATE`, for a truncated waveform, and where every candidate has a bin.
-/

namespace Sys2Proof.Machine

/-- `s` with the waveform `x` in `IS`. -/
def State.withWaveform (s : State) (x : List Sample) : State := { s with mem := { s.mem with is := x } }

end Sys2Proof.Machine

namespace Sys2Proof.Proofs

open Sys2Proof.Machine Sys2Proof.Laws

/-! ### Packing undoes expansion (R200) -/

/-- The weighted sum of the bits of a byte is the byte. -/
theorem packByte_expand (b : List Byte) {n : ℕ} (hn : n < b.length) : packByte (expand b .bit) n = b[n] := by
  refine BitVec.eq_of_toNat_eq ?_
  rw [packByte_toNat _ _ (expand_symbols_le b), ← byte_sum_bits _ b[n].isLt]
  exact Finset.sum_congr rfl fun j hj => by rw [expand_bit_getD b n j hn (Finset.mem_range.1 hj)]

theorem pack_expand (b : List Byte) (m : Mode) : pack (expand b m) m = b := by
  cases m with
  | byte => rfl
  | bit =>
    have hlen : (pack (expand b .bit) .bit).length = b.length := by
      rw [pack_length, expand_length, Nat.mul_div_cancel_left _ (by decide)]
    refine List.ext_getElem hlen fun n _ hn => ?_
    simpa [pack] using packByte_expand b hn

/-! ### `DEMODULATE` after its checks (R188) -/

section
variable {s : State} {m : Mode}

theorem exec_demodulate_of_checks (h : demodulateChecks s = .ok m) :
    exec .demodulate s = finishDemodulate s m (s.decodeSlots m) := by
  simp only [exec, execDemodulate, h]

theorem exec_demodulate_sinkUnavailable {symbols : List Symbol} (h : demodulateChecks s = .ok m)
    (hsym : s.decodeSlots m = symbols.map .symbol)
    (hsink : s.sinkFail = true ∨ s.block.capOB.val < (pack symbols m).length) :
    exec .demodulate s = .next (s.finishError .sinkUnavailable (sat32 (pack symbols m).length) 0) := by
  rw [exec_demodulate_of_checks h, finishDemodulate, hsym, firstNoBin_none_of_symbols, slotSymbols_map]
  exact finishBytes_fail s _ hsink

/-- Whether and at which symbol a slot fails depends on its length, which all complete slots share (R164). -/
theorem decodeSlot_noBin_of_slot {j k : ℕ} {v : Symbol} (hj : j < s.slotCount) (hk : k < s.slotCount)
    (h : s.decodeSlot m k = .noBin v) : s.decodeSlot m j = .noBin v := by
  rw [State.decodeSlot, decodeBlock_eq_noBin_iff, slotBlock_length (slotCount_mul_le s hk)] at h
  rwa [State.decodeSlot, decodeBlock_eq_noBin_iff, slotBlock_length (slotCount_mul_le s hj)]

/-- Where any slot fails slot 0 does, and it is the one reported (R188, R218). -/
theorem exec_demodulate_noQualifyingBin {k : ℕ} {v : Symbol} (h : demodulateChecks s = .ok m) (hk : k < s.slotCount)
    (hv : s.decodeSlot m k = .noBin v) :
    exec .demodulate s = .next (s.finishError .noQualifyingBin (v.setWidth 32) 0) := by
  obtain ⟨n, hn⟩ := Nat.exists_eq_add_one_of_ne_zero (Nat.ne_zero_of_lt hk)
  have hfirst : firstNoBin (s.decodeSlots m) 0 = some (0, v) := by
    rw [State.decodeSlots, hn, List.range_succ_eq_map, List.map_cons, decodeSlot_noBin_of_slot (by omega) hk hv, firstNoBin]
  rw [exec_demodulate_of_checks h, finishDemodulate, hfirst]
  rfl

/-- Slots that all decode are a sequence of symbols. -/
theorem exists_symbols_of_decodeSlots (h : ∀ k < s.slotCount, ∃ v, s.decodeSlot m k = .symbol v) :
    ∃ symbols : List Symbol, symbols.length = s.slotCount ∧ s.decodeSlots m = symbols.map .symbol := by
  have hmem : s.decodeSlots m ∈ Set.range (List.map SlotResult.symbol) := by
    rw [Set.range_list_map]
    intro r hr
    obtain ⟨k, hk, rfl⟩ := List.mem_map.1 hr
    obtain ⟨v, hv⟩ := h k (List.mem_range.1 hk)
    exact ⟨v, hv.symm⟩
  obtain ⟨symbols, hsym⟩ := hmem
  exact ⟨symbols, by simpa [State.decodeSlots] using congrArg List.length hsym, hsym.symm⟩

/-- A complete slot decodes where every candidate has a bin (R167). -/
theorem exists_symbol_of_bins {k : ℕ} (hk : k < s.slotCount)
    (hbins : ∀ v ∈ alphabet m, (candidateBin m s.freq0 s.freq1 s.srate s.slotLen v).isSome) :
    ∃ v, s.decodeSlot m k = .symbol v := by
  obtain ⟨v, -, -, hdec, -⟩ := decodeBlock_symbol (num := s.block.numerics) (x := s.slotBlock k)
    (by rwa [slotBlock_length (slotCount_mul_le s hk)])
  exact ⟨v, hdec⟩

/-! ### The waveform of `MODULATE` (R191) -/

theorem symbolTone_length (num : Numerics) (m : Mode) (f0 f1 r : Param) (n : ℕ) (v : Symbol) :
    (symbolTone num m f0 f1 r n v).length = n := tone_length _ _ _ _

/-- Slot `k` of a waveform is the tone of symbol `k` (R145), which decodes to that symbol (R173). -/
theorem decodeSlots_of_tones {symbols : List Symbol} (hpos : 0 < s.slotLen)
    (hdisc : Discriminates s.block.numerics m s.freq0 s.freq1 s.srate s.slotLen) (hmem : ∀ v ∈ symbols, v ∈ alphabet m)
    (his : s.mem.is = symbols.flatMap (symbolTone s.block.numerics m s.freq0 s.freq1 s.srate s.slotLen)) :
    s.decodeSlots m = symbols.map .symbol := by
  have hcount : symbols.length = s.slotCount := by rw [State.slotCount, his, wave_length, Nat.mul_div_cancel _ hpos]
  refine decodeSlots_eq hcount fun k hk => ?_
  rw [State.decodeSlot, State.slotBlock, his, flatMap_block _ _ _ (fun _ _ => symbolTone_length _ _ _ _ _ _ _) k hk]
  exact decodeBlock_tone_of_discriminates hdisc (hmem _ (List.getElem_mem hk))

theorem exec_demodulate_of_modulateWave {b : List Byte} (hsrc : s.srcFail = false) (hsink : s.sinkFail = false)
    (hm : modeOf s.mode = some m) (hslot : s.block.minSlotLen ≤ s.slotLen)
    (hdisc : Discriminates s.block.numerics m s.freq0 s.freq1 s.srate s.slotLen)
    (his : s.mem.is = modulateWave s.block.numerics m s.freq0 s.freq1 s.srate s.slotLen b)
    (hcap : b.length ≤ s.block.capOB.val) : exec .demodulate s = .next (s.setOB b).finishOk := by
  have hpos : 0 < s.slotLen := Nat.lt_of_lt_of_le (Nat.succ_pos _) hslot
  have hsym := decodeSlots_of_tones hpos hdisc (expand_mem_alphabet b m) his
  have hok := exec_demodulate_ok hsrc hsink hm hslot hsym (by rwa [pack_expand])
  rwa [pack_expand] at hok

end

/-- An idle block takes samples that fit `IS` (R63). -/
theorem runEvent_loadS_fits {s : State} (hb : s.busy = false) (rate : Param) {x : List Sample}
    (h : x.length ≤ s.block.capIS.val) : runEvent s (.host (.loadS rate x)) = .next (s.withSamples rate x) :=
  (hostTxn_idle hb _).trans (congrArg _ (loadS_fits rate h))

/-- Settles O44: each slot of the waveform decodes to its symbol, and packing undoes expansion. -/
theorem demodulateUndoesModulate : Obligations.DemodulateUndoesModulate := by
  intro s m _ hm hsrc hsink hw hslot hdisc hcapOS hcapIS hcapOB
  have hfits := (wave_length s.block.numerics m s.freq0 s.freq1 s.srate s.slotLen (expand s.mem.ib m)).trans_le hcapIS
  exact ⟨_, _, _, exec_modulate_ok hsrc hsink hm hw hslot hcapOS, rfl, runEvent_loadS_fits rfl _ hfits, rfl,
    exec_demodulate_of_modulateWave (m := m) (b := s.mem.ib) hsrc hsink hm hslot hdisc rfl hcapOB, rfl, rfl⟩

/-- Settles O40: the checks decide in their order, then slot 0, then the sink and the length of the output. -/
theorem demodulateFollowsItsRule : Obligations.DemodulateFollowsItsRule := by
  refine ⟨decode_encode .demodulate, fun s => ⟨fun hsrc => ?_, fun hsrc h0 h1 => ?_, fun hsrc m hm hshort => ?_,
    fun hsrc m hm hslot k v hk hv => ?_, fun hsrc m hm hslot symbols hlen hdec => ?_⟩⟩
  · exact exec_demodulate_error (checks_source hsrc).2
  · exact exec_demodulate_error (checks_mode hsrc (modeOf_none _ h0 h1)).2
  · exact exec_demodulate_error (demodulateChecks_tooShort hsrc hm hshort)
  · exact exec_demodulate_noQualifyingBin (demodulateChecks_of hsrc hm hslot) hk hv
  · have hsym := decodeSlots_eq hlen hdec
    exact ⟨exec_demodulate_sinkUnavailable (demodulateChecks_of hsrc hm hslot) hsym,
      fun hsink hcap => exec_demodulate_ok hsrc hsink hm hslot hsym hcap⟩

/-- Settles O41: every slot decodes to a symbol, so the output is a packed sequence of as many symbols as slots. -/
theorem demodulateCompletesWhereCandidatesHaveBins : Obligations.DemodulateCompletesWhereCandidatesHaveBins := by
  intro s m hsrc hsink hm hslot hcap hbins
  have hdec : ∀ k < s.slotCount, ∃ v, s.decodeSlot m k = .symbol v := fun k hk =>
    exists_symbol_of_bins hk (hbins ((Nat.le_mul_of_pos_left _ k.succ_pos).trans (slotCount_mul_le s hk)))
  obtain ⟨symbols, hlen, hsym⟩ := exists_symbols_of_decodeSlots hdec
  have hout := pack_length symbols m
  rw [hlen] at hout
  exact ⟨pack symbols m, hout, exec_demodulate_ok hsrc hsink hm hslot hsym (hout.trans_le hcap)⟩

/-! ### The trailing partial slot (R187) -/

/-- The end of a command that writes `OB` does not read the waveform. -/
theorem finishBytes_withWaveform {s t : State} {out : List Byte} (h : finishBytes s out = .next t) (x : List Sample) :
    finishBytes (s.withWaveform x) out = .next (t.withWaveform x) := by
  by_cases hfail : s.sinkFail = true ∨ s.block.capOB.val < out.length
  · cases (finishBytes_fail s out hfail).symm.trans h
    exact finishBytes_fail (s.withWaveform x) out hfail
  · obtain ⟨hsink, hcap⟩ := not_or.1 hfail
    have hsink := Bool.eq_false_of_not_eq_true hsink
    have hcap := Nat.not_lt.1 hcap
    cases (finishBytes_ok s out hsink hcap).symm.trans h
    exact finishBytes_ok (s.withWaveform x) out hsink hcap

/-- `DEMODULATE` reads the waveform only through the results of its slots. -/
theorem exec_demodulate_withWaveform {s t : State} {x : List Sample}
    (hslots : ∀ m, (s.withWaveform x).decodeSlots m = s.decodeSlots m) (h : exec .demodulate s = .next t) :
    exec .demodulate (s.withWaveform x) = .next (t.withWaveform x) := by
  have hsame : demodulateChecks (s.withWaveform x) = demodulateChecks s := rfl
  cases hchecks : demodulateChecks s with
  | error e =>
    cases (exec_demodulate_error hchecks).symm.trans h
    exact exec_demodulate_error (hsame.trans hchecks)
  | ok m =>
    rw [exec_demodulate_of_checks hchecks, finishDemodulate] at h
    rw [exec_demodulate_of_checks (hsame.trans hchecks), finishDemodulate, hslots]
    cases hfirst : firstNoBin (s.decodeSlots m) 0 with
    | some failure =>
      rw [hfirst] at h
      cases h
      rfl
    | none =>
      rw [hfirst] at h
      exact finishBytes_withWaveform h x

/-- A block that ends within the samples kept is kept whole. -/
theorem slotBlock_take {s : State} {j l : ℕ} (h : (j + 1) * s.slotLen ≤ l) :
    (s.withWaveform (s.mem.is.take l)).slotBlock j = s.slotBlock j := by
  have hj : s.slotLen ≤ l - j * s.slotLen := by rw [Nat.succ_mul] at h; omega
  show ((s.mem.is.take l).drop (j * s.slotLen)).take s.slotLen = (s.mem.is.drop (j * s.slotLen)).take s.slotLen
  rw [List.drop_take, List.take_take, Nat.min_eq_left hj]

/-- The complete slots of a waveform and their results are those of the waveform cut after them. -/
theorem decodeSlots_take {s : State} {k : ℕ} (hlow : k * s.slotLen ≤ s.mem.is.length)
    (hhigh : s.mem.is.length < (k + 1) * s.slotLen) (m : Mode) :
    (s.withWaveform (s.mem.is.take (k * s.slotLen))).decodeSlots m = s.decodeSlots m := by
  have hcount : s.slotCount = k := Nat.div_eq_of_lt_le hlow hhigh
  have hcount' : (s.withWaveform (s.mem.is.take (k * s.slotLen))).slotCount = k := by
    show (s.mem.is.take (k * s.slotLen)).length / s.slotLen = k
    rw [List.length_take_of_le hlow]
    exact Nat.div_eq_of_lt_le le_rfl (hlow.trans_lt hhigh)
  rw [State.decodeSlots, State.decodeSlots, hcount, hcount']
  refine List.map_congr_left fun j hj => ?_
  rw [State.decodeSlot, State.decodeSlot, slotBlock_take (Nat.mul_le_mul_right _ (List.mem_range.1 hj))]
  rfl

/-- Settles O42: both waveforms have the same complete slots. -/
theorem trailingPartialSlotIsNeverRead : Obligations.TrailingPartialSlotIsNeverRead :=
  fun _ _ _ hlow hhigh h => exec_demodulate_withWaveform (decodeSlots_take hlow.le hhigh) h

end Sys2Proof.Proofs
end

section
/-!
SUPPORT. The packing utilities (`45_packing.md`): what `EXPAND` and `PACK` answer on each of their paths, and expansion as the
undoing of packing.
-/

namespace Sys2Proof.Proofs

open Sys2Proof.Machine Sys2Proof.Laws

/-! ### The paths of `EXPAND` and `PACK` (R201, R202) -/

section
variable {s : State} {m : Mode}

theorem exec_expand_sourceUnavailable (hsrc : s.srcFail = true) :
    exec .expand s = .next (s.finishError .sourceUnavailable 0 0) := by
  simp only [exec, execExpand, hsrc, if_true, raise]

theorem exec_expand_invalidMode (hsrc : s.srcFail = false) (hm : modeOf s.mode = none) :
    exec .expand s = .next (s.finishError .invalidMode s.mode 0) := by
  simp only [exec, execExpand, hsrc, hm, Bool.false_eq_true, if_false, raise]

theorem exec_expand_of_mode (hsrc : s.srcFail = false) (hm : modeOf s.mode = some m) :
    exec .expand s = finishBytes s (expand s.mem.ib m) := by
  simp only [exec, execExpand, hsrc, hm, Bool.false_eq_true, if_false]

theorem exec_expand_ok (hsrc : s.srcFail = false) (hsink : s.sinkFail = false) (hm : modeOf s.mode = some m)
    (hcap : (expand s.mem.ib m).length ≤ s.block.capOB.val) :
    exec .expand s = .next (s.setOB (expand s.mem.ib m)).finishOk :=
  (exec_expand_of_mode hsrc hm).trans (finishBytes_ok s _ hsink hcap)

theorem exec_pack_sourceUnavailable (hsrc : s.srcFail = true) :
    exec .pack s = .next (s.finishError .sourceUnavailable 0 0) := by
  simp only [exec, execPack, hsrc, if_true, raise]

theorem exec_pack_invalidMode (hsrc : s.srcFail = false) (hm : modeOf s.mode = none) :
    exec .pack s = .next (s.finishError .invalidMode s.mode 0) := by
  simp only [exec, execPack, hsrc, hm, Bool.false_eq_true, if_false, raise]

theorem exec_pack_invalidSymbol {i : ℕ} {v : Symbol} (hsrc : s.srcFail = false) (hm : modeOf s.mode = some m)
    (hbad : firstBadSymbol s.mem.ib m = some (i, v)) :
    exec .pack s = .next (s.finishError .invalidSymbol (v.setWidth 32) (sat32 i)) := by
  simp only [exec, execPack, hsrc, hm, hbad, Bool.false_eq_true, if_false, raise]

theorem exec_pack_of_symbols (hsrc : s.srcFail = false) (hm : modeOf s.mode = some m)
    (hgood : firstBadSymbol s.mem.ib m = none) : exec .pack s = finishBytes s (pack s.mem.ib m) := by
  simp only [exec, execPack, hsrc, hm, hgood, Bool.false_eq_true, if_false]

theorem exec_pack_sinkUnavailable (hsrc : s.srcFail = false) (hm : modeOf s.mode = some m)
    (hgood : firstBadSymbol s.mem.ib m = none) (hsink : s.sinkFail = true ∨ s.block.capOB.val < (pack s.mem.ib m).length) :
    exec .pack s = .next (s.finishError .sinkUnavailable (sat32 (pack s.mem.ib m).length) 0) :=
  (exec_pack_of_symbols hsrc hm hgood).trans (finishBytes_fail s _ hsink)

theorem exec_pack_ok (hsrc : s.srcFail = false) (hsink : s.sinkFail = false) (hm : modeOf s.mode = some m)
    (hgood : firstBadSymbol s.mem.ib m = none) (hcap : (pack s.mem.ib m).length ≤ s.block.capOB.val) :
    exec .pack s = .next (s.setOB (pack s.mem.ib m)).finishOk :=
  (exec_pack_of_symbols hsrc hm hgood).trans (finishBytes_ok s _ hsink hcap)

end

/-- The least symbol above 1 is the one that R203 reports. -/
theorem firstBadSymbol_bit_eq_some {y : List Symbol} {i : ℕ} (h : i < y.length) (hv : 1 < y[i].toNat)
    (hmin : ∀ k (hk : k < i), y[k].toNat ≤ 1) : firstBadSymbol y .bit = some (i, y[i]) := by
  rw [firstBadSymbol, firstAboveOne_some y 0 i h hv hmin, Nat.zero_add]

theorem firstBadSymbol_bit_eq_none {y : List Symbol} (h : ∀ v ∈ y, v.toNat ≤ 1) : firstBadSymbol y .bit = none :=
  (firstAboveOne_none y 0).2 h

/-! ### Expansion undoes packing up to the incomplete group (R200) -/

theorem pack_bit_getElem (y : List Symbol) {n : ℕ} (hn : n < (pack y .bit).length) :
    (pack y .bit)[n] = packByte y n := by
  simp [pack]

/-- A list of bits holds a bit at every index, 0 beyond its end. -/
theorem getD_toNat_le_one {y : List Symbol} (hy : ∀ v ∈ y, v.toNat ≤ 1) (i : ℕ) : (y.getD i 0).toNat ≤ 1 := by
  rcases Nat.lt_or_ge i y.length with hi | hi
  · rw [List.getD_eq_getElem _ _ hi]
    exact hy _ (List.getElem_mem hi)
  · rw [List.getD_eq_default _ _ hi]
    exact Nat.zero_le 1

/-- Bit `7 - j` of a packed byte is symbol `j` of its group (R198). -/
theorem packByte_bit {y : List Symbol} (hy : ∀ v ∈ y, v.toNat ≤ 1) (n : ℕ) {j : ℕ} (hj : j < 8) :
    (packByte y n).toNat / 2 ^ (7 - j) % 2 = (y.getD (8 * n + j) 0).toNat := by
  rw [packByte_toNat y n hy, bit_of_sum _ (fun _ => getD_toNat_le_one hy _) j hj]

theorem expand_pack_bit_getD {y : List Symbol} (hy : ∀ v ∈ y, v.toNat ≤ 1) {i : ℕ} (hi : i < 8 * (y.length / 8)) :
    (expand (pack y .bit) .bit).getD i 0 = y.getD i 0 := by
  have hn : i / 8 < (pack y .bit).length := by rw [pack_length]; exact Nat.div_lt_of_lt_mul hi
  have hj : i % 8 < 8 := Nat.mod_lt i (by decide)
  refine BitVec.eq_of_toNat_eq ?_
  calc ((expand (pack y .bit) .bit).getD i 0).toNat
      = ((expand (pack y .bit) .bit).getD (8 * (i / 8) + i % 8) 0).toNat := by rw [Nat.div_add_mod]
    _ = (packByte y (i / 8)).toNat / 2 ^ (7 - i % 8) % 2 := by rw [expand_bit_getD _ _ _ hn hj, pack_bit_getElem]
    _ = (y.getD i 0).toNat := by rw [packByte_bit hy _ hj, Nat.div_add_mod]

theorem expand_pack_bit {y : List Symbol} (hy : ∀ v ∈ y, v.toNat ≤ 1) :
    expand (pack y .bit) .bit = y.take (8 * (y.length / 8)) := by
  have hlen : (expand (pack y .bit) .bit).length = 8 * (y.length / 8) := by rw [expand_length, pack_length]
  have htake : 8 * (y.length / 8) ≤ y.length := Nat.mul_div_le _ _
  refine List.ext_getElem (by rw [hlen, List.length_take_of_le htake]) fun i hi _ => ?_
  have hget := expand_pack_bit_getD hy (hi.trans_eq hlen)
  rw [hlen] at hi
  rw [List.getD_eq_getElem _ _ (by omega), List.getD_eq_getElem _ _ (hi.trans_le htake)] at hget
  rw [hget, List.getElem_take]

/-! ### The obligations -/

/-- Settles O23: the checks decide in their order, then the sink and the length of the expansion. -/
theorem expandFollowsItsRule : Obligations.ExpandFollowsItsRule := by
  refine ⟨decode_encode .expand, fun s => ⟨exec_expand_sourceUnavailable, fun hsrc h0 h1 => ?_,
    fun hsrc m hm hsink => ?_, fun hsrc hsink h0 hcap => ?_, fun hsrc hsink h1 hcap => ?_⟩⟩
  · exact exec_expand_invalidMode hsrc (modeOf_none _ h0 h1)
  · exact (exec_expand_of_mode hsrc hm).trans (finishBytes_fail s _ hsink)
  · have hlen := expand_length s.mem.ib .bit
    exact ⟨expand s.mem.ib .bit, hlen, expand_bit_getD s.mem.ib,
      exec_expand_ok hsrc hsink (modeOf_of_zero h0) (hlen.trans_le hcap)⟩
  · exact exec_expand_ok hsrc hsink (modeOf_of_one h1) hcap

/-- Settles O24: the checks decide in their order, then the least symbol above 1 in Bit mode, then the sink and the length of
the packed bytes. -/
theorem packFollowsItsRule : Obligations.PackFollowsItsRule := by
  refine ⟨decode_encode .pack, fun s => ⟨exec_pack_sourceUnavailable, fun hsrc h0 h1 => ?_,
    fun hsrc h0 i hi hv hmin => ?_, fun hsrc h0 hsym hsink => ?_, fun hsrc h1 hsink => ?_,
    fun hsrc hsink h0 hsym hcap => ?_, fun hsrc hsink h1 hcap => ?_⟩⟩
  · exact exec_pack_invalidMode hsrc (modeOf_none _ h0 h1)
  · exact exec_pack_invalidSymbol hsrc (modeOf_of_zero h0) (firstBadSymbol_bit_eq_some hi hv hmin)
  · have hlen : (pack s.mem.ib .bit).length = s.mem.ib.length / 8 := pack_length s.mem.ib .bit
    rw [← hlen] at hsink ⊢
    exact exec_pack_sinkUnavailable hsrc (modeOf_of_zero h0) (firstBadSymbol_bit_eq_none hsym) hsink
  · exact exec_pack_sinkUnavailable hsrc (modeOf_of_one h1) rfl hsink
  · have hlen := pack_length s.mem.ib .bit
    refine ⟨pack s.mem.ib .bit, hlen, fun n hn => ?_,
      exec_pack_ok hsrc hsink (modeOf_of_zero h0) (firstBadSymbol_bit_eq_none hsym) (hlen.trans_le hcap)⟩
    rw [List.getD_eq_getElem _ _ hn, pack_bit_getElem, packByte_toNat _ _ hsym]
  · exact exec_pack_ok hsrc hsink (modeOf_of_one h1) rfl hcap

/-- Settles O25: `pack_expand` and `expand_pack_bit`, and the cut drops nothing iff there is no incomplete group. -/
theorem packingLaws : Obligations.PackingLaws := by
  refine ⟨pack_expand, fun y hy => ?_, fun b => expand_length b .bit, fun m => ?_⟩
  · have hcut : expand (pack y .bit) .bit = y.take (8 * (y.length / 8)) :=
      expand_pack_bit fun v hv => by rcases hy v hv with rfl | rfl <;> decide
    refine ⟨hcut, ?_⟩
    rw [hcut, List.take_eq_self_iff]
    omega
  · cases m <;> exact ⟨rfl, rfl⟩

end Sys2Proof.Proofs
end

section
/-!
SUPPORT. How commands end (`60_exceptions.md`): the two finish steps, the up-front checks in the order of R222, which leave each
command a short list of codes (`exec_checked`), and for every entry of R220's table a state in which the command raises the error.
-/

namespace Sys2Proof.Machine

/-- `i` reads an input buffer, and the source failed (R211). -/
def SourceFault (i : Instr) (s : State) : Prop := (i ≠ .freqof ∧ i ≠ .gentone) ∧ s.srcFail = true

/-- `i` reads `MODE`, and the mode is unsupported (R212). -/
def ModeFault (i : Instr) (s : State) : Prop := i ≠ .gentone ∧ s.mode ≠ 0 ∧ s.mode ≠ 1

/-- `i` reads `WORKERS`, and there are none (R219). -/
def CountFault (i : Instr) (s : State) : Prop := i = .modulate ∧ s.workers = 0

/-- `i` uses the slot length, and the slot is too short (R214). -/
def LengthFault (i : Instr) (s : State) : Prop :=
  (i = .gentone ∨ i = .modulate ∨ i = .decslot ∨ i = .demodulate) ∧ s.slotLen < s.block.minSlotLen

/-- What a command can leave in `ERRCODE` once its up-front checks have passed: success, an element error, or the sink's. -/
def lateCodes : Instr → List ErrCode
  | .freqof => [.none, .invalidSymbol]
  | .gentone => [.none, .sinkUnavailable]
  | .modulate => [.none, .sinkUnavailable]
  | .decslot => [.none, .incompleteSlot, .noQualifyingBin]
  | .demodulate => [.none, .noQualifyingBin, .sinkUnavailable]
  | .expand => [.none, .sinkUnavailable]
  | .pack => [.none, .invalidSymbol, .sinkUnavailable]

/-- How `i` ends from `s`: by the first up-front check that fails in the order of R222, or with one of its late codes. -/
inductive Checked (i : Instr) (s : State) : State → Prop where
  | source (hsource : SourceFault i s) : Checked i s (s.finishError .sourceUnavailable 0 0)
  | mode (hsource : ¬ SourceFault i s) (hmode : ModeFault i s) : Checked i s (s.finishError .invalidMode s.mode 0)
  | count (hsource : ¬ SourceFault i s) (hmode : ¬ ModeFault i s) (hcount : CountFault i s) :
      Checked i s (s.finishError .badWorkerCount 0 0)
  | length (hsource : ¬ SourceFault i s) (hmode : ¬ ModeFault i s) (hcount : ¬ CountFault i s)
      (hlength : LengthFault i s) : Checked i s (s.finishError .durationTooShort (sat32 s.slotLen) 0)
  | passed {t : State} (hsource : ¬ SourceFault i s) (hmode : ¬ ModeFault i s) (hcount : ¬ CountFault i s)
      (hlength : ¬ LengthFault i s) (hlate : t.errcode ∈ lateCodes i) : Checked i s t

/-- The table of R220: `i` can raise `e`. -/
def CanRaise (i : Instr) : ErrCode → Prop
  | .none => False
  | .sourceUnavailable => i ≠ .freqof ∧ i ≠ .gentone
  | .invalidMode => i ≠ .gentone
  | .badWorkerCount => i = .modulate
  | .durationTooShort => i = .gentone ∨ i = .modulate ∨ i = .decslot ∨ i = .demodulate
  | .invalidSymbol => i = .freqof ∨ i = .pack
  | .incompleteSlot => i = .decslot
  | .noQualifyingBin => i = .decslot ∨ i = .demodulate
  | .sinkUnavailable => i ≠ .freqof ∧ i ≠ .decslot
  | .illegalCommand => False

/-- From some state `i` ends with the code `e`. -/
def Raises (i : Instr) (e : ErrCode) : Prop := ∃ s t, exec i s = .next t ∧ t.errcode = e

/-- A block with `MIN_SLOT_LEN = 1` and room for one element in each buffer, set to slots of one sample at 1 Hz. -/
def State.oneHertz : State :=
  { State.reset with block := ⟨0, 0, .reference, .halfEven, 1, 1, 1, 1⟩, symdur := .frac 1 1, srate := .frac 1 1 }

/-- One slot in `IS`, and symbol 0 at a frequency far above half the rate. -/
def State.noBin : State := { State.oneHertz with freq0 := .frac 1000 1, mem := ⟨[], [.ofRat 0], [], []⟩ }

/-- A failed sink. -/
def State.noSink : State := { State.oneHertz with sinkFail := true }

end Sys2Proof.Machine

namespace Sys2Proof.Proofs

open Sys2Proof.Machine Sys2Proof.Laws

/-! ### The finish steps (R231, R232) -/

/-- `ERR` tells an error from every other effect. -/
theorem apply_err_iff (s : State) (g : Effect) : (g.apply s).err = true ↔ ∃ e info idx, g = .fail e info idx := by
  cases g <;> simp [Effect.apply]

/-- An effect without an error ends in the success finish. -/
theorem apply_eq_finishOk {s : State} {g : Effect} (h : (g.apply s).err = false) : ∃ u : State, g.apply s = u.finishOk := by
  cases g with
  | fail e info idx => cases h
  | fres v => exact ⟨_, rfl⟩
  | res v => exact ⟨_, rfl⟩
  | os out => exact ⟨_, rfl⟩
  | ob out => exact ⟨_, rfl⟩

/-- Only success has the code 0 (R90). -/
theorem code_ne_zero {e : ErrCode} (h : e ≠ .none) : e.code ≠ 0 := by
  cases e with
  | none => exact absurd rfl h
  | _ => decide

/-- Settles O45: a command without an error ends in `finishOk`. -/
theorem successfulCommandsFinishClean : Obligations.SuccessfulCommandsFinishClean := by
  refine ⟨fun i s t h herr => ?_, fun s => rfl⟩
  obtain ⟨g, -, rfl⟩ := exec_eq_apply h
  obtain ⟨u, hu⟩ := apply_eq_finishOk herr
  rw [hu]
  exact ⟨rfl, rfl, rfl, rfl, rfl, rfl, rfl⟩

/-- Settles O46: the only effect of a command that sets `ERR` is `finishError`, with a code that is not 0. -/
theorem failedCommandsChangeOnlyTheStatus : Obligations.FailedCommandsChangeOnlyTheStatus := by
  refine ⟨fun i s t h herr => ?_, fun s e info idx => rfl⟩
  obtain ⟨g, fits, rfl⟩ := exec_eq_apply h
  obtain ⟨e, info, idx, rfl⟩ := (apply_err_iff s g).1 herr
  exact ⟨rfl, code_ne_zero fits, rfl⟩

/-! ### The up-front checks (R222) -/

section
variable {i : Instr} {s : State}

theorem srcFail_of_not_sourceFault (h : ¬ SourceFault i s) (h1 : i ≠ .freqof) (h2 : i ≠ .gentone) : s.srcFail = false :=
  Bool.eq_false_of_not_eq_true fun hsrc => h ⟨⟨h1, h2⟩, hsrc⟩

theorem exists_mode_of_not_modeFault (h : ¬ ModeFault i s) (hi : i ≠ .gentone) : ∃ m, modeOf s.mode = some m :=
  modeOf_of_legal (or_iff_not_imp_left.2 fun h0 => not_not.1 fun h1 => h ⟨hi, h0, h1⟩)

theorem minSlotLen_le_of_not_lengthFault (h : ¬ LengthFault i s)
    (hi : i = .gentone ∨ i = .modulate ∨ i = .decslot ∨ i = .demodulate) : s.block.minSlotLen ≤ s.slotLen :=
  Nat.not_lt.1 fun hslot => h ⟨hi, hslot⟩

theorem exec_of_sourceFault (h : SourceFault i s) : exec i s = .next (s.finishError .sourceUnavailable 0 0) := by
  obtain ⟨⟨hfreqof, hgentone⟩, hsrc⟩ := h
  cases i with
  | freqof => exact absurd rfl hfreqof
  | gentone => exact absurd rfl hgentone
  | modulate => exact exec_modulate_error (checks_source hsrc).1
  | decslot => exact exec_decslot_sourceUnavailable hsrc
  | demodulate => exact exec_demodulate_error (checks_source hsrc).2
  | expand => exact exec_expand_sourceUnavailable hsrc
  | pack => exact exec_pack_sourceUnavailable hsrc

theorem exec_of_modeFault (hsource : ¬ SourceFault i s) (h : ModeFault i s) :
    exec i s = .next (s.finishError .invalidMode s.mode 0) := by
  obtain ⟨hgentone, h0, h1⟩ := h
  have hm := modeOf_none _ h0 h1
  have hsrc := srcFail_of_not_sourceFault hsource
  cases i with
  | freqof => exact exec_freqof_invalidMode hm
  | gentone => exact absurd rfl hgentone
  | modulate => exact exec_modulate_error (checks_mode (hsrc nofun nofun) hm).1
  | decslot => exact exec_decslot_invalidMode (hsrc nofun nofun) hm
  | demodulate => exact exec_demodulate_error (checks_mode (hsrc nofun nofun) hm).2
  | expand => exact exec_expand_invalidMode (hsrc nofun nofun) hm
  | pack => exact exec_pack_invalidMode (hsrc nofun nofun) hm

theorem exec_of_countFault (hsource : ¬ SourceFault i s) (hmode : ¬ ModeFault i s) (h : CountFault i s) :
    exec i s = .next (s.finishError .badWorkerCount 0 0) := by
  obtain ⟨rfl, hw⟩ := h
  obtain ⟨m, hm⟩ := exists_mode_of_not_modeFault hmode nofun
  exact exec_modulate_error (modulateChecks_badWorkerCount (srcFail_of_not_sourceFault hsource nofun nofun) hm hw)

theorem exec_of_lengthFault (hsource : ¬ SourceFault i s) (hmode : ¬ ModeFault i s) (hcount : ¬ CountFault i s)
    (h : LengthFault i s) : exec i s = .next (s.finishError .durationTooShort (sat32 s.slotLen) 0) := by
  have hsrc := srcFail_of_not_sourceFault hsource
  have hm := exists_mode_of_not_modeFault hmode
  obtain ⟨rfl | rfl | rfl | rfl, hslot⟩ := h
  · exact exec_gentone_tooShort hslot
  · obtain ⟨m, hm⟩ := hm nofun
    exact exec_modulate_error (modulateChecks_tooShort (hsrc nofun nofun) hm (fun hw => hcount ⟨rfl, hw⟩) hslot)
  · obtain ⟨m, hm⟩ := hm nofun
    exact exec_decslot_tooShort (hsrc nofun nofun) hm hslot
  · obtain ⟨m, hm⟩ := hm nofun
    exact exec_demodulate_error (demodulateChecks_tooShort (hsrc nofun nofun) hm hslot)

end

/-! ### After the up-front checks -/

section
variable {s t : State}

theorem finishBytes_code {out : List Byte} (h : finishBytes s out = .next t) :
    t.errcode = .none ∨ t.errcode = .sinkUnavailable := by
  rcases finishBytes_cases s out with e | e <;> cases e.symm.trans h
  · exact .inr rfl
  · exact .inl rfl

theorem finishSamples_code {out : List Sample} (h : finishSamples s out = .next t) :
    t.errcode = .none ∨ t.errcode = .sinkUnavailable := by
  rcases finishSamples_cases s out with e | e <;> cases e.symm.trans h
  · exact .inr rfl
  · exact .inl rfl

theorem exec_freqof_code {m : Mode} (hm : modeOf s.mode = some m) (h : exec .freqof s = .next t) :
    t.errcode ∈ lateCodes .freqof := by
  cases hd : inDomain m s.arg with
  | true => cases (exec_freqof_ok hm hd).symm.trans h; simp [lateCodes]
  | false => cases (exec_freqof_invalidSymbol hm hd).symm.trans h; simp [lateCodes]

theorem exec_gentone_of_slot (hslot : s.block.minSlotLen ≤ s.slotLen) :
    exec .gentone s = finishSamples s (tone s.block.numerics s.farg s.srate s.slotLen) := by
  simp only [exec, execGentone, tooShort_false hslot, Bool.false_eq_true, if_false]

theorem exec_gentone_code (hslot : s.block.minSlotLen ≤ s.slotLen) (h : exec .gentone s = .next t) :
    t.errcode ∈ lateCodes .gentone := by
  rw [exec_gentone_of_slot hslot] at h
  simpa [lateCodes] using finishSamples_code h

theorem exec_modulate_code {m : Mode} (hc : modulateChecks s = .ok m) (h : exec .modulate s = .next t) :
    t.errcode ∈ lateCodes .modulate := by
  rw [exec_modulate_of_checks hc] at h
  simpa [lateCodes] using finishSamples_code h

theorem exec_decslot_code {m : Mode} (hsrc : s.srcFail = false) (hm : modeOf s.mode = some m)
    (hslot : s.block.minSlotLen ≤ s.slotLen) (h : exec .decslot s = .next t) : t.errcode ∈ lateCodes .decslot := by
  rcases Nat.lt_or_ge s.mem.is.length ((s.arg.toNat + 1) * s.slotLen) with hlen | hlen
  · cases (exec_decslot_incompleteSlot hsrc hm hslot hlen).symm.trans h; simp [lateCodes]
  cases hdec : s.decodeSlot m s.arg.toNat with
  | symbol v => cases (exec_decslot_ok hsrc hm hslot hlen hdec).symm.trans h; simp [lateCodes]
  | noBin v => cases (exec_decslot_noQualifyingBin hsrc hm hslot hlen hdec).symm.trans h; simp [lateCodes]

theorem exec_demodulate_code {m : Mode} (hc : demodulateChecks s = .ok m) (h : exec .demodulate s = .next t) :
    t.errcode ∈ lateCodes .demodulate := by
  rw [exec_demodulate_of_checks hc, finishDemodulate] at h
  cases hfirst : firstNoBin (s.decodeSlots m) 0 with
  | some failure =>
    rw [hfirst] at h
    cases h
    simp [lateCodes]
  | none =>
    rw [hfirst] at h
    rcases finishBytes_code h with e | e <;> simp [lateCodes, e]

theorem exec_expand_code {m : Mode} (hsrc : s.srcFail = false) (hm : modeOf s.mode = some m)
    (h : exec .expand s = .next t) : t.errcode ∈ lateCodes .expand := by
  rw [exec_expand_of_mode hsrc hm] at h
  simpa [lateCodes] using finishBytes_code h

theorem exec_pack_code {m : Mode} (hsrc : s.srcFail = false) (hm : modeOf s.mode = some m)
    (h : exec .pack s = .next t) : t.errcode ∈ lateCodes .pack := by
  cases hbad : firstBadSymbol s.mem.ib m with
  | some bad =>
    cases (exec_pack_invalidSymbol hsrc hm hbad).symm.trans h
    simp [lateCodes]
  | none =>
    rw [exec_pack_of_symbols hsrc hm hbad] at h
    rcases finishBytes_code h with e | e <;> simp [lateCodes, e]

/-- A command whose up-front checks have passed ends with one of its late codes. -/
theorem exec_code_of_passed {i : Instr} (hsource : ¬ SourceFault i s) (hmode : ¬ ModeFault i s)
    (hcount : ¬ CountFault i s) (hlength : ¬ LengthFault i s) (h : exec i s = .next t) : t.errcode ∈ lateCodes i := by
  have hsrc := srcFail_of_not_sourceFault hsource
  have hm := exists_mode_of_not_modeFault hmode
  have hslot := minSlotLen_le_of_not_lengthFault hlength
  cases i with
  | freqof =>
    obtain ⟨m, hm⟩ := hm nofun
    exact exec_freqof_code hm h
  | gentone => exact exec_gentone_code (hslot (by decide)) h
  | modulate =>
    obtain ⟨m, hm⟩ := hm nofun
    have hw : s.workers ≠ 0 := fun hw => hcount ⟨rfl, hw⟩
    exact exec_modulate_code (modulateChecks_of (hsrc nofun nofun) hm hw (hslot (by decide))) h
  | decslot =>
    obtain ⟨m, hm⟩ := hm nofun
    exact exec_decslot_code (hsrc nofun nofun) hm (hslot (by decide)) h
  | demodulate =>
    obtain ⟨m, hm⟩ := hm nofun
    exact exec_demodulate_code (demodulateChecks_of (hsrc nofun nofun) hm (hslot (by decide))) h
  | expand =>
    obtain ⟨m, hm⟩ := hm nofun
    exact exec_expand_code (hsrc nofun nofun) hm h
  | pack =>
    obtain ⟨m, hm⟩ := hm nofun
    exact exec_pack_code (hsrc nofun nofun) hm h

/-- Every command ends by the first up-front check that fails, or with one of its late codes. -/
theorem exec_checked {i : Instr} (h : exec i s = .next t) : Checked i s t := by
  by_cases hsource : SourceFault i s
  · cases (exec_of_sourceFault hsource).symm.trans h
    exact .source hsource
  by_cases hmode : ModeFault i s
  · cases (exec_of_modeFault hsource hmode).symm.trans h
    exact .mode hsource hmode
  by_cases hcount : CountFault i s
  · cases (exec_of_countFault hsource hmode hcount).symm.trans h
    exact .count hsource hmode hcount
  by_cases hlength : LengthFault i s
  · cases (exec_of_lengthFault hsource hmode hcount hlength).symm.trans h
    exact .length hsource hmode hcount hlength
  exact .passed hsource hmode hcount hlength (exec_code_of_passed hsource hmode hcount hlength h)

end

/-- No late code is that of an up-front check. -/
theorem lateCodes_not_upFront (i : Instr) : ∀ e ∈ lateCodes i,
    e ≠ .sourceUnavailable ∧ e ≠ .invalidMode ∧ e ≠ .badWorkerCount ∧ e ≠ .durationTooShort := by
  cases i <;> decide

/-- Settles O48: each up-front code is left by its own check only, in the case where all earlier ones have passed. -/
theorem upFrontErrorsHaveTheirCauses : Obligations.UpFrontErrorsHaveTheirCauses := by
  intro i s t h
  show (t.errcode = .sourceUnavailable ↔ SourceFault i s) ∧
    (t.errcode = .invalidMode ↔ ¬ SourceFault i s ∧ ModeFault i s) ∧
    (t.errcode = .badWorkerCount ↔ ¬ SourceFault i s ∧ ¬ ModeFault i s ∧ CountFault i s) ∧
    (t.errcode = .durationTooShort ↔
      ¬ SourceFault i s ∧ ¬ ModeFault i s ∧ ¬ CountFault i s ∧ LengthFault i s) ∧ _
  cases exec_checked h with
  | source hsource => simp [hsource]
  | mode hsource hmode => simp [hsource, hmode]
  | count hsource hmode hcount => simp [hsource, hmode, hcount]
  | length hsource hmode hcount hlength => simp [hsource, hmode, hcount, hlength, sat32_toNat]
  | passed hsource hmode hcount hlength hlate =>
    obtain ⟨h1, h2, h3, h4⟩ := lateCodes_not_upFront i _ hlate
    simp [hsource, hmode, hcount, hlength, h1, h2, h3, h4]

/-! ### The table of R220 -/

theorem canRaise_of_mem_lateCodes (i : Instr) : ∀ e ∈ lateCodes i, e ≠ .none → CanRaise i e := by
  cases i <;> simp [lateCodes, CanRaise]

/-- No command raises an error that its column of the table does not name. -/
theorem canRaise_of_exec {i : Instr} {s t : State} (h : exec i s = .next t) (he : t.errcode ≠ .none) :
    CanRaise i t.errcode := by
  cases exec_checked h with
  | source hsource => exact hsource.1
  | mode _ hmode => exact hmode.1
  | count _ _ hcount => exact hcount.1
  | length _ _ _ hlength => exact hlength.1
  | passed _ _ _ _ hlate => exact canRaise_of_mem_lateCodes i _ hlate he

/-! ### States in which the errors are raised -/

theorem slotLen_oneHertz : State.oneHertz.slotLen = 1 := by
  norm_num [State.oneHertz, State.slotLen, Param.frac, roundQuot]

theorem slotLen_noBin : State.noBin.slotLen = 1 := slotLen_oneHertz

theorem slotLen_noSink : State.noSink.slotLen = 1 := slotLen_oneHertz

/-- After reset the slots have no sample. -/
theorem slotLen_reset_lt : State.reset.slotLen < State.reset.block.minSlotLen := by
  rw [slotLen_of_srate_zero _ rfl]
  exact Nat.succ_pos _

/-- The one slot of `noBin` fails at its first candidate (R164). -/
theorem decodeSlot_noBin : State.noBin.decodeSlot .bit 0 = .noBin 0 := by
  refine decodeBlock_eq_noBin_iff.2
    ⟨zero_mem_alphabet _, candidateBin_eq_none_of_high ?_, fun u _ hu => absurd hu (Nat.not_lt_zero _)⟩
  norm_num [State.noBin, State.oneHertz, Param.frac, freqOf]

theorem raises_of_finishError {i : Instr} {s : State} {e : ErrCode} {info idx : Word}
    (h : exec i s = .next (s.finishError e info idx)) : Raises i e :=
  ⟨s, _, h, rfl⟩

section
variable {i : Instr}

theorem raises_sourceUnavailable (h1 : i ≠ .freqof) (h2 : i ≠ .gentone) : Raises i .sourceUnavailable :=
  raises_of_finishError (exec_of_sourceFault (s := { State.reset with srcFail := true }) ⟨⟨h1, h2⟩, rfl⟩)

theorem raises_invalidMode (h : i ≠ .gentone) : Raises i .invalidMode :=
  raises_of_finishError (exec_of_modeFault (s := { State.reset with mode := 2 }) (fun hsource => nomatch hsource.2)
    ⟨h, by decide, by decide⟩)

theorem raises_badWorkerCount : Raises .modulate .badWorkerCount :=
  raises_of_finishError (exec_of_countFault (s := { State.reset with workers := 0 }) (fun hsource => nomatch hsource.2)
    (fun hmode => hmode.2.1 rfl) ⟨rfl, rfl⟩)

theorem raises_durationTooShort (h : i = .gentone ∨ i = .modulate ∨ i = .decslot ∨ i = .demodulate) :
    Raises i .durationTooShort :=
  raises_of_finishError (exec_of_lengthFault (s := State.reset) (fun hsource => nomatch hsource.2)
    (fun hmode => hmode.2.1 rfl) (fun hcount => absurd hcount.2 (by decide)) ⟨h, slotLen_reset_lt⟩)

theorem raises_invalidSymbol (h : i = .freqof ∨ i = .pack) : Raises i .invalidSymbol := by
  rcases h with rfl | rfl
  · exact raises_of_finishError (exec_freqof_invalidSymbol (s := { State.reset with arg := 2 }) (m := .bit) rfl rfl)
  · exact raises_of_finishError (exec_pack_invalidSymbol (s := { State.oneHertz with mem := ⟨[2], [], [], []⟩ })
      (m := .bit) (i := 0) (v := 2) rfl rfl rfl)

theorem raises_incompleteSlot : Raises .decslot .incompleteSlot :=
  raises_of_finishError (exec_decslot_incompleteSlot (s := State.oneHertz) (m := .bit) rfl rfl
    slotLen_oneHertz.ge (by rw [slotLen_oneHertz]; decide))

theorem raises_noQualifyingBin (h : i = .decslot ∨ i = .demodulate) : Raises i .noQualifyingBin := by
  have hslot : State.noBin.block.minSlotLen ≤ State.noBin.slotLen := slotLen_noBin.ge
  rcases h with rfl | rfl
  · exact raises_of_finishError (exec_decslot_noQualifyingBin rfl rfl hslot (by rw [slotLen_noBin]; decide) decodeSlot_noBin)
  · exact raises_of_finishError (exec_demodulate_noQualifyingBin (demodulateChecks_of rfl rfl hslot)
      (k := 0) (by rw [State.slotCount, slotLen_noBin]; decide) decodeSlot_noBin)

theorem raises_sinkUnavailable (h1 : i ≠ .freqof) (h2 : i ≠ .decslot) : Raises i .sinkUnavailable := by
  have hslot : State.noSink.block.minSlotLen ≤ State.noSink.slotLen := slotLen_noSink.ge
  have hsink : State.noSink.sinkFail = true := rfl
  have hm : modeOf State.noSink.mode = some .bit := rfl
  cases i with
  | freqof => exact absurd rfl h1
  | gentone => exact raises_of_finishError (exec_gentone_sinkUnavailable hslot (.inl hsink))
  | modulate =>
    exact raises_of_finishError (exec_modulate_sinkUnavailable (modulateChecks_of rfl hm (by decide) hslot) (.inl hsink))
  | decslot => exact absurd rfl h2
  | demodulate =>
    exact raises_of_finishError (exec_demodulate_sinkUnavailable (symbols := []) (demodulateChecks_of rfl hm hslot)
      (decodeSlots_of_short (by rw [slotLen_noSink]; decide) .bit) (.inl hsink))
  | expand => exact raises_of_finishError ((exec_expand_of_mode rfl hm).trans (finishBytes_fail _ _ (.inl hsink)))
  | pack => exact raises_of_finishError (exec_pack_sinkUnavailable rfl hm rfl (.inl hsink))

/-- Every entry of the table has a state. -/
theorem raises_of_canRaise {e : ErrCode} (h : CanRaise i e) : Raises i e := by
  cases e with
  | none => exact h.elim
  | sourceUnavailable => exact raises_sourceUnavailable h.1 h.2
  | invalidMode => exact raises_invalidMode h
  | invalidSymbol => exact raises_invalidSymbol h
  | durationTooShort => exact raises_durationTooShort h
  | incompleteSlot => cases h; exact raises_incompleteSlot
  | sinkUnavailable => exact raises_sinkUnavailable h.1 h.2
  | illegalCommand => exact h.elim
  | noQualifyingBin => exact raises_noQualifyingBin h
  | badWorkerCount => cases h; exact raises_badWorkerCount

end

/-- Settles O49: `CanRaise` is the table. -/
theorem commandsRaiseTheErrorsOfTheTable : Obligations.CommandsRaiseTheErrorsOfTheTable := by
  intro i e he
  refine Iff.trans ⟨?_, raises_of_canRaise⟩ (Iff.of_eq ?_ : CanRaise i e ↔ _)
  · rintro ⟨s, t, h, rfl⟩
    exact canRaise_of_exec h he
  · cases e <;> rfl

end Sys2Proof.Proofs
end

section
/-!
SUPPORT. Nothing is stuck (`70_reset_and_hazards.md`): a step of any state answers a next state, and a command that nothing else is
scheduled on takes one worker step after the other to the join and then its finish step. Then the theorems that settle the
obligations of that chapter.
-/

namespace Sys2Proof.Proofs

open Sys2Proof.Machine Sys2Proof.Laws

/-! ### How much work a command starts with (R149, R189) -/

/-- The chunk lengths add up to the number of symbols (R143). -/
theorem chunkTable_len_sum (l : Nat) {w : Nat} (hw : 1 ≤ w) : ((chunkTable l w).map Chunk.len).sum = l := by
  have hlength := congrArg List.length (chunkTable_cover l hw)
  simpa only [List.length_flatMap, List.length_range', List.length_range] using hlength

/-- No chunk of the table has made progress. -/
theorem chunkTable_progress {l w : Nat} {c : Chunk} (hc : c ∈ chunkTable l w) : c.progress = 0 := by
  obtain ⟨k, -, rfl⟩ := List.mem_map.1 hc
  rfl

/-- `MODULATE` starts with one worker step to take per symbol (R149). -/
theorem startWork_modulate_remaining {s : State} {m : Mode} (h : modulateChecks s = .ok m) :
    (startWork .modulate s).remaining = (expand s.mem.ib m).length := by
  obtain ⟨-, -, hworkers, -⟩ := modulateChecks_ok h
  have hleft (c) (hc : c ∈ chunkTable (expand s.mem.ib m).length s.workerCount) : c.len - c.progress = c.len := by
    rw [chunkTable_progress hc, Nat.sub_zero]
  simp only [startWork, h, Work.remaining]
  rw [List.map_congr_left hleft, chunkTable_len_sum _ (workerCount_pos hworkers)]

/-- `DEMODULATE` starts with one worker step to take per slot (R189). -/
theorem startWork_demodulate_remaining {s : State} {m : Mode} (h : demodulateChecks s = .ok m) :
    (startWork .demodulate s).remaining = s.slotCount := by
  simp [startWork, h, Work.remaining, List.countP_replicate]

/-- No other command has worker steps. -/
theorem startWork_remaining_eq_zero (s : State) {i : Instr} (h1 : i ≠ .modulate) (h2 : i ≠ .demodulate) :
    (startWork i s).remaining = 0 := by
  cases i
  case modulate => exact absurd rfl h1
  case demodulate => exact absurd rfl h2
  all_goals rfl

/-! ### The run of a command that nothing else is scheduled on (R255) -/

/-- A run of one step is that step. -/
theorem runSteps_one (s : State) : runSteps 1 s = step s := by
  obtain ⟨sc, rp, t, h, -⟩ := step_moves s
  exact (runSteps_succ 0 h).trans h.symm

/-- Before the join or at it there is an enabled step (R73, R255). -/
theorem complete_or_enabled (w : Work) (s : State) : w.complete = true ∨ ∃ n w', w.workerStep s n = some w' := by
  cases hn : w.nextWorker with
  | none => exact .inl ((nextWorker_none_iff w).1 hn)
  | some n => exact .inr ⟨n, nextWorker_enabled hn s⟩

section
variable {s : State} {i : Instr} {w : Work} (hsc : s.script = []) (h : w.Coherent s i)
include hsc h

/-- As long as worker steps are left, each step of the run takes one, and the command stays in progress. -/
theorem runSteps_inProgress {k : Nat} (hk : k ≤ w.remaining) :
    ∃ w' : Work, w'.Coherent s i ∧ w'.remaining + k = w.remaining ∧
      runSteps k (s.inProgress i w) = .next (s.inProgress i w') := by
  induction k generalizing w with
  | zero => exact ⟨w, h, rfl, rfl⟩
  | succ k ih =>
    have hearly : w.complete = false := by
      rw [Bool.eq_false_iff, ne_eq, complete_iff]
      omega
    obtain ⟨w₁, hw₁, hrem₁, hturn⟩ := idleTurn_worker h hearly
    obtain ⟨w', hw', hrem, hrun⟩ := ih hw₁ (by omega)
    have hstep : step (s.inProgress i w) = .next (s.inProgress i w₁) :=
      (step_of_nil (s := s.inProgress i w) hsc).trans hturn
    exact ⟨w', hw', by omega, (runSteps_succ k hstep).trans hrun⟩

/-- The step after the last worker step is the finish step, and the command ends as its one-step meaning does. -/
theorem runSteps_finish : runSteps (w.remaining + 1) (s.inProgress i w) = exec i s := by
  obtain ⟨w', hw', hrem, hrun⟩ := runSteps_inProgress hsc h le_rfl
  have hjoin : w'.complete = true := (complete_iff w').2 (by omega)
  calc runSteps (w.remaining + 1) (s.inProgress i w)
      = runSteps 1 (s.inProgress i w') := runSteps_add 1 hrun
    _ = idleTurn (s.inProgress i w') := (runSteps_one _).trans (step_of_nil (s := s.inProgress i w') hsc)
    _ = exec i s := idleTurn_join hw' hjoin

end

/-! ### The obligations -/

/-- Settles O58: each step after acceptance takes one of the worker steps left, the step at the join is the finish step, and the
chunk lengths add up to the number of symbols. -/
theorem everyCommandFinishes : Obligations.EveryCommandFinishes := by
  refine ⟨fun s f _ => complete_or_enabled f.work s, fun _ _ _ _ => workerStep_remaining, fun s i _ hsc => ⟨?_, fun k hk => ?_⟩,
    fun _ _ => startWork_modulate_remaining, fun _ _ => startWork_demodulate_remaining,
    fun s _ => startWork_remaining_eq_zero s⟩
  · exact runSteps_finish hsc (startWork_coherent i s)
  · obtain ⟨w', -, -, hrun⟩ := runSteps_inProgress hsc (startWork_coherent i s) hk
    exact ⟨_, hrun, rfl⟩

/-- Settles O6: every step is a move, and every command has an effect, whatever the state. -/
theorem everyStepAnswersANextState : Obligations.EveryStepAnswersANextState := by
  refine ⟨fun s => ?_, fun i s => ?_⟩
  · obtain ⟨sc, rp, t, h, -⟩ := step_moves s
    exact ⟨t, h⟩
  · obtain ⟨t, h, -⟩ := exec_moves i s
    exact ⟨t, h⟩

end Sys2Proof.Proofs
end
